-- ==== Sys2Proof/Word.lean ====
section
/-! DEFINITION. The word types of the MoatBus framing core (00_scope.md R6, 30_encoding.md R61). -/

namespace Sys2Proof

/-- A byte: a buffer byte, a handle, an opcode, a width operand (30_encoding.md R61). -/
abbrev Byte := BitVec 8

/-- A 32-bit word: the wide operands `x` and `y`, and the value of a response (R61, R66). -/
abbrev Word := BitVec 32

/-- `ceil8(n) = (n + 7) div 8` of 00_scope.md R6: the bytes that hold `n` bits. -/
def ceil8 (n : Nat) : Nat := (n + 7) / 8

end Sys2Proof
end

