-- ==== Sys2Proof/Config.lean ====
section
/-! DEFINITION. What an implementation fixes (00_scope.md R5) and the free values: constants without a body, of
which nothing can be proved but what holds for every value of them. -/

namespace Sys2Proof.Config

/-- `MSG_MAXHDR` (R5): bytes reserved before the payload for the header. -/
def msgMaxHdr : Nat := 3

/-- `MSG_MINBUF` (R5, 70_reset_and_hazards.md R240): a duty of the caller; no command reads it. -/
def msgMinBuf : Nat := 30

/-- `CAP_MAX` (R5): the largest capacity or length operand, 2^16 - 1 - `MSG_MAXHDR`. -/
def capMax : Nat := 65532

/-- `W_MAX` (R5): the largest width operand. -/
def wMax : Nat := 16

/-- `2^HOST_AW` with `HOST_AW` = 32 (R5): the size of the host's address space. -/
def hostSpace : Nat := 4294967296

/-- The largest count of data bytes, and of bits of ADD_FROM (30_encoding.md R62, R65). -/
def countMax : Nat := 65535

/-- `NONE` (10_state.md R11): the handle that names no context. -/
def noHandle : Byte := 0xFF

/-- `N_MSG` of `State.reset`. The parameter is OPEN (R5, U11); DESIGN CHOICE (log 1), unsafe for statements about
`State.reset` only: every other statement is over all numbers of contexts. -/
def nMsg : Nat := 3

/-- `POOL_BYTES` of `State.reset`: none is "unbounded" (R5, U11). DESIGN CHOICE (log 1), unsafe as `nMsg` is. -/
def poolBytes : Option Nat := none

/-- `POLY8` = `table8[1]` (R5, U1): OPEN in the spec, a constant without a value here (log 2, safe). -/
opaque poly8 : BitVec 8

/-- `POLY16` = `table16[1]` (R5, U1): OPEN in the spec, a constant without a value here (log 2, safe). -/
opaque poly16 : BitVec 16

/-- FREE VALUE (20_memory.md R51, U2; log 7, safe): byte `k` of the owned buffer whose draw number is `draw`, for
as long as nothing has written it. -/
opaque freeByte (draw k : Nat) : BitVec 8

/-- FREE VALUE (U13; log 8, safe): what host memory holds at address `a` before anything writes it. -/
opaque hostByte (a : Nat) : BitVec 8

/-- FREE VALUE (20_memory.md R53, U5; log 9, safe): the `n` bits ADD_FROM writes when its two windows overlap. -/
opaque freeBits (draw n : Nat) : BitVec n

end Sys2Proof.Config
end

