-- ==== Sys2Proof/Syntax.lean ====
section
/-! DEFINITION. The commands of the block, one constructor per row of spec/opcode_table.json (30_encoding.md R63).
A constructor carries exactly the fields of the command word its row uses; a field the command does not use is
ignored by the block (R61) and is not part of the instruction. -/

namespace Sys2Proof

/-- A command with its operands, each at the full width of its field (R61): range checks are the command's own and
give BadOperand (R62, R64). -/
inductive Instr where
  /-- CRC8_INIT, op 0x00 (R82). -/
  | crc8Init
  /-- CRC8_UPDATE, op 0x01 (R83): `x` byte, `y` crc. -/
  | crc8Update (x y : Word)
  /-- CRC8_UPDATE_V, op 0x02 (R84): `w` n_bits, `x` value, `y` crc. -/
  | crc8UpdateV (w : Byte) (x y : Word)
  /-- CRC8_FINISH, op 0x03 (R85): `y` crc. -/
  | crc8Finish (y : Word)
  /-- CRC8_BLOCK, op 0x04 (R86): `x` count, then the data bytes. -/
  | crc8Block (x : Word) (data : List Byte)
  /-- CRC16_INIT, op 0x08 (R87). -/
  | crc16Init
  /-- CRC16_UPDATE, op 0x09 (R88): `x` byte, `y` crc. -/
  | crc16Update (x y : Word)
  /-- CRC16_UPDATE_V, op 0x0A (R89): `w` n_bits, `x` value, `y` crc. -/
  | crc16UpdateV (w : Byte) (x y : Word)
  /-- CRC16_FINISH, op 0x0B (R90): `y` crc. -/
  | crc16Finish (y : Word)
  /-- CRC16_BLOCK, op 0x0C (R91): `x` count, then the data bytes. -/
  | crc16Block (x : Word) (data : List Byte)
  /-- ALLOCATE, op 0x10 (R103): `x` capacity. -/
  | allocate (x : Word)
  /-- WRAP, op 0x11 (R104): `x` base, `y` length. -/
  | wrap (x y : Word)
  /-- DUPLICATE, op 0x12 (R105): `ha` source. -/
  | duplicate (ha : Byte)
  /-- RELEASE, op 0x13 (R107). -/
  | release (ha : Byte)
  /-- GROW, op 0x14 (R108): `x` new capacity. -/
  | grow (ha : Byte) (x : Word)
  /-- ATTACH, op 0x15 (R106): `x` base, `y` length. -/
  | attach (ha : Byte) (x y : Word)
  /-- START_SEND, op 0x20 (R120). -/
  | startSend (ha : Byte)
  /-- APPEND_BYTE, op 0x21 (R121): `x` byte. -/
  | appendByte (ha : Byte) (x : Word)
  /-- APPEND_BYTES, op 0x22 (R122): `x` count, then the data bytes. -/
  | appendBytes (ha : Byte) (x : Word) (data : List Byte)
  /-- START_EXTRACT, op 0x23 (R123). -/
  | startExtract (ha : Byte)
  /-- HAS_MORE, op 0x24 (R124). -/
  | hasMore (ha : Byte)
  /-- EXTRACT_CHUNK, op 0x25 (R125): `w` frame_bits. -/
  | extractChunk (ha w : Byte)
  /-- START_ADD, op 0x30 (R140). -/
  | startAdd (ha : Byte)
  /-- ADD_CHUNK, op 0x31 (R141): `w` frame_bits, `x` value. -/
  | addChunk (ha w : Byte) (x : Word)
  /-- ADD_FROM, op 0x32 (R142): `ha` destination, `hb` source, `x` bit count. -/
  | addFrom (ha hb : Byte) (x : Word)
  /-- DROP, op 0x33 (R143): `w` frame_bits. -/
  | drop (ha w : Byte)
  /-- ALIGN, op 0x34 (R144). -/
  | align (ha : Byte)
  /-- TRUNCATE_COPY, op 0x35 (R145): `x` bit offset from the payload start. -/
  | truncateCopy (ha : Byte) (x : Word)
  /-- FILL_CRC, op 0x36 (R158): reserved; its fields are not read. -/
  | fillCrc (ha hb w : Byte) (x : Word)
  /-- START, op 0x40 (R170). -/
  | start (ha : Byte)
  /-- LENGTH, op 0x41 (R171). -/
  | length (ha : Byte)
  /-- BIT_LENGTH, op 0x42 (R172). -/
  | bitLength (ha : Byte)
  /-- SENT_BITS, op 0x43 (R173). -/
  | sentBits (ha : Byte)
  /-- GET_FIELD, op 0x44 (R174): `hb` field number. -/
  | getField (ha hb : Byte)
  /-- SET_FIELD, op 0x45 (R175): `hb` field number, `x` value. -/
  | setField (ha hb : Byte) (x : Word)
  /-- HDR_ENCODE, op 0x50 (R193). -/
  | hdrEncode (ha : Byte)
  /-- HDR_DECODE, op 0x51 (R194). -/
  | hdrDecode (ha : Byte)
deriving DecidableEq, Repr

/-- The data bytes that follow the command word (R65); none but for three commands. -/
def Instr.data : Instr → List Byte
  | .crc8Block _ data => data
  | .crc16Block _ data => data
  | .appendBytes _ _ data => data
  | .crc8Init | .crc8Update _ _ | .crc8UpdateV _ _ _ | .crc8Finish _ | .crc16Init | .crc16Update _ _
  | .crc16UpdateV _ _ _ | .crc16Finish _ | .allocate _ | .wrap _ _ | .duplicate _ | .release _ | .grow _ _
  | .attach _ _ _ | .startSend _ | .appendByte _ _ | .startExtract _ | .hasMore _ | .extractChunk _ _
  | .startAdd _ | .addChunk _ _ _ | .addFrom _ _ _ | .drop _ _ | .align _ | .truncateCopy _ _
  | .fillCrc _ _ _ _ | .start _ | .length _ | .bitLength _ | .sentBits _ | .getField _ _ | .setField _ _ _
  | .hdrEncode _ | .hdrDecode _ => []

/-- The bytes a command takes on the command port: 12 and its data bytes (R60, R65). -/
def Instr.size (i : Instr) : Nat := 12 + i.data.length

end Sys2Proof
end

