-- ==== Sys2Proof/Machine/State.lean ====
section
/-! DEFINITION. The state of the block and of the host's side of its ports, as plain data (10_state.md, 70_reset R230). -/

namespace Sys2Proof.Machine

/-- The ownership tag `own` (10_state.md R13, R15). -/
inductive Own where
  /-- No storage: the state DUPLICATE leaves. -/
  | detached
  /-- The block's own storage, `cap + 3` bytes. -/
  | owned
  /-- A window of host memory, lent by the host. -/
  | borrowed
deriving DecidableEq, Repr

/-- The `result` tag (10_state.md R16); its numbers 6 and 7 are never held. -/
inductive ResultTag where
  | working | free | success | missing | error | fatal
deriving DecidableEq, Repr

/-- The status of a response (60_exceptions.md R210). -/
inductive Status where
  | ok | outOfMemory | invalidBufferOwnership | cursorOverflow | corruptHeader | badOperand | illegalCommand
deriving DecidableEq, Repr

/-- A response `(status, value)` (30_encoding.md R66). -/
structure Response where
  status : Status
  value : Word
deriving DecidableEq, Repr

/-- A byte memory as cells (index, byte), indices strictly rising; a byte nothing has written is not listed. -/
abbrev Memory := List Host.Cell

/-- A message context (10_state.md R11, R13). -/
structure Ctx where
  /-- The `valid` bit (R11). -/
  valid : Bool
  /-- Field 0, signed. -/
  src : BitVec 8
  /-- Field 1, signed. -/
  dst : BitVec 8
  /-- Field 2. -/
  code : BitVec 8
  /-- Field 4. -/
  dataOff : BitVec 16
  /-- Field 5. -/
  hdrLen : BitVec 2
  /-- Field 6: the write cursor, byte part. -/
  dataEnd : BitVec 16
  /-- Field 7: the write cursor, bit part. -/
  dataEndOff : BitVec 3
  /-- Field 8: the read cursor, byte part. -/
  dataPos : BitVec 16
  /-- Field 9: the read cursor, bit part. -/
  dataPosOff : BitVec 3
  /-- Field 10. -/
  result : ResultTag
  /-- Field 11: a handle or `NONE`. -/
  next : BitVec 8
  /-- Field 12. -/
  own : Own
  /-- Field 13: payload capacity in bytes. -/
  cap : BitVec 16
  /-- Field 14: host address of the first payload byte of a BORROWED context. -/
  base : BitVec 32
  /-- The bytes of the owned buffer written so far (20_memory.md R41, R42). -/
  store : Memory
  /-- The MODEL's own field: the draw number of the owned buffer's unwritten bytes (R51; log 7). -/
  bufId : Nat
deriving DecidableEq, Repr

/-- What the host does beside sending commands (10_state.md R10). -/
inductive HostAccess where
  /-- `HostRead(h, k)` (20_memory.md R52). -/
  | bufRead (h : Byte) (k : Nat)
  /-- `HostWrite(h, k, v)` (20_memory.md R52). -/
  | bufWrite (h : Byte) (k : Nat) (v : Byte)
  /-- The host writes a byte of its own memory (70_reset_and_hazards.md R234). -/
  | memWrite (a : BitVec 32) (v : Byte)
  /-- A reset (70_reset_and_hazards.md R230; log 12). -/
  | reset
deriving DecidableEq, Repr

/-- What the host does, in its order (10_state.md R10, R22; log 3). -/
inductive HostEvent where
  /-- One byte on the command port (30_encoding.md R67). -/
  | byte (b : Byte)
  /-- An access or a reset, wherever it stands between the bytes of commands (log 5). -/
  | access (a : HostAccess)
deriving DecidableEq, Repr

/-- The OPEN parameters of the block (00_scope.md R5) but `N_MSG`, which is the number of contexts. No step writes
them (log 1, log 2). -/
structure Params where
  /-- `POOL_BYTES`; none is "unbounded". -/
  poolBytes : Option Nat
  /-- `POLY8`, which determines `table8` (40_crc_engine.md R81). -/
  poly8 : BitVec 8
  /-- `POLY16`, which determines `table16` (R81). -/
  poly16 : BitVec 16
deriving DecidableEq, Repr

/-- The whole machine. -/
structure State where
  /-- The contexts `ctx[0]` to `ctx[N_MSG-1]` (10_state.md R11). -/
  ctxs : List Ctx
  /-- Host memory, the bytes written so far (20_memory.md R40, R43). -/
  host : Memory
  /-- The parameters (00_scope.md R5). -/
  params : Params
  /-- The MODEL's own field: the host's events not yet taken, oldest first (R22; log 3). -/
  inbox : List HostEvent
  /-- The MODEL's own field: the response of the last command (30_encoding.md R66; log 6). -/
  resp : Option Response
  /-- The MODEL's own field: the byte the last HostRead returned (20_memory.md R52; log 6). -/
  hostData : Option Byte
  /-- The MODEL's own field: the counter of draws (20_memory.md R51, R53; log 7, log 9). -/
  fresh : Nat
deriving DecidableEq, Repr

/-- Why the machine stops. No command of the block does (60_exceptions.md R210, R214). -/
inductive Fault where
  /-- Raised by the host-port steps only: HostRead or HostWrite names a byte that does not exist (20_memory.md R41,
  R52 give the ports for the bytes 0..cap+2 of a valid buffer). Safe: the model stops where the spec gives no
  effect (log 13). -/
  | hostPortOutsideBuffer
deriving DecidableEq, Repr

/-- Why the machine gives no meaning. Nothing in this model raises it. -/
inductive Refusal where
  /-- Raised by `exec` for an instruction without a meaning. Safe. No arm of this model raises it. -/
  | notModelled (mnemonic : String)
deriving DecidableEq, Repr

/-- A context before any command creates it: `valid` is 0 and no other field is observable (R230). The values of the
other fields are a DESIGN CHOICE (log 10). -/
def Ctx.blank : Ctx :=
  { valid := false, src := 0, dst := 0, code := 0, dataOff := 3, hdrLen := 0, dataEnd := 3, dataEndOff := 0,
    dataPos := 3, dataPosOff := 0, result := .working, next := 0xFF, own := .detached, cap := 0, base := 0,
    store := [], bufId := 0 }

/-- The state after reset (70_reset_and_hazards.md R230) of a block with `n` contexts and the parameters `p`. -/
def State.resetWith (n : Nat) (p : Params) : State :=
  { ctxs := List.replicate n Ctx.blank, host := [], params := p, inbox := [], resp := none, hostData := none,
    fresh := 0 }

/-- The machine right after reset (R230), with the parameters of `Config` (log 1, log 2). -/
def State.reset : State :=
  State.resetWith Config.nMsg { poolBytes := Config.poolBytes, poly8 := Config.poly8, poly16 := Config.poly16 }

end Sys2Proof.Machine
end

