-- ==== Sys2Proof/Machine/Memory.lean ====
section
/-! DEFINITION. Byte memories: cells (index, byte) in one canonical form (20_memory.md R40 to R43; log 7, log 8). -/

namespace Sys2Proof.Machine

/-- The canonical form: indices strictly rising. A byte that nothing has written has no value of its own (`none`),
so no cell can hold what an unlisted index reads as. -/
abbrev Memory.wf (m : Memory) : Prop := m.Pairwise fun c d => c.1 < d.1

/-- The byte written last at `a`; none where nothing has written (an unlisted index). -/
def memGet : Memory → Nat → Option Byte
  | [], _ => none
  | (b, w) :: m, a => if a = b then some w else memGet m a

/-- Write one byte, keeping the canonical form. -/
def memSet : Memory → Nat → Byte → Memory
  | [], a, v => [(a, v)]
  | (b, w) :: m, a, v =>
    if a < b then (a, v) :: (b, w) :: m
    else if a = b then (a, v) :: m
    else (b, w) :: memSet m a v

end Sys2Proof.Machine
end

