-- ==== Sys2Proof/Machine/Ops.lean ====
section
/-! DEFINITION. The shared operations: contexts, cursors, buffer bytes and bits, the pool, answering and failing. -/

namespace Sys2Proof.Machine

/-! ### Answering (00_scope.md R8, 30_encoding.md R66, 60_exceptions.md R210, R214) -/

/-- `respond(OK, v)` (R8, R66). -/
def respond (s : State) (v : Word) : Host.Outcome State Fault Refusal :=
  .next { s with resp := some ⟨.ok, v⟩ }

/-- `raise st` (R8, R214): the response is `st` with value 0 and nothing else changes. This is all the block has in
place of taking an exception, and there is nothing to return from (60_exceptions.md R216). -/
def raise (s : State) (st : Status) : Host.Outcome State Fault Refusal :=
  .next { s with resp := some ⟨st, 0⟩ }

/-- End a command whose body ran on `s`: the state and value of a body that passed its checks, or the status of the
first check that failed, with the state the command found (R213, R214). -/
def complete (s : State) : Except Status (State × Word) → Host.Outcome State Fault Refusal
  | .ok (t, v) => respond t v
  | .error st => raise s st

/-- A check of a command's pseudocode: go on if it holds, else the status (R213). -/
def need (p : Prop) [Decidable p] (st : Status) : Except Status Unit :=
  if p then .ok () else .error st

/-- IllegalCommand (30_encoding.md R64): no state changes. -/
def illegalCommand (s : State) : Host.Outcome State Fault Refusal := raise s .illegalCommand

/-! ### Cursors (00_scope.md R7) -/

/-- `PS`, the payload start in bits. -/
def Ctx.ps (c : Ctx) : Nat := 8 * c.dataOff.toNat

/-- `WC`, the write cursor in bits. -/
def Ctx.wc (c : Ctx) : Nat := 8 * c.dataEnd.toNat + c.dataEndOff.toNat

/-- `RC`, the read cursor in bits. -/
def Ctx.rc (c : Ctx) : Nat := 8 * c.dataPos.toNat + c.dataPosOff.toNat

/-- `LIM`, the end of storage in bits. -/
def Ctx.lim (c : Ctx) : Nat := 8 * (c.dataOff.toNat + c.cap.toNat)

/-- `WC <- p` (R7). -/
def Ctx.withWC (c : Ctx) (p : Nat) : Ctx :=
  { c with dataEnd := BitVec.ofNat 16 (p / 8), dataEndOff := BitVec.ofNat 3 (p % 8) }

/-- `RC <- p` (R7). -/
def Ctx.withRC (c : Ctx) (p : Nat) : Ctx :=
  { c with dataPos := BitVec.ofNat 16 (p / 8), dataPosOff := BitVec.ofNat 3 (p % 8) }

/-! ### Contexts (10_state.md R11, 41_msg_lifecycle.md R100, R101) -/

/-- The slot of handle `h`, valid or not (a blank one beyond `N_MSG`). -/
def State.slot (s : State) (h : Nat) : Ctx := s.ctxs.getD h Ctx.blank

/-- The valid context of handle `h`, none when `h >= N_MSG` or `ctx[h].valid` = 0. -/
def State.ctx? (s : State) (h : Nat) : Option Ctx := s.ctxs[h]?.filter fun c => c.valid

/-- Change the slot of handle `h`. -/
def State.mapCtx (s : State) (h : Nat) (f : Ctx → Ctx) : State := { s with ctxs := s.ctxs.modify h f }

/-- Put a context into the slot of handle `h`. -/
def State.putCtx (s : State) (h : Nat) (c : Ctx) : State := { s with ctxs := s.ctxs.set h c }

/-- `need_ctx(h)` (R100). -/
def needCtx (s : State) (h : Byte) : Except Status Ctx :=
  match s.ctx? h.toNat with
  | some c => .ok c
  | none => .error .badOperand

/-- `need_store(h)` (R100). -/
def needStore (c : Ctx) : Except Status Unit := need (c.own ≠ .detached) .invalidBufferOwnership

/-- What `init_ctx(h)` sets (R101). The last two fields are the model's own: no owned buffer yet. -/
def initCtx : Ctx :=
  { valid := true, src := 0, dst := 0, code := 0, own := .detached, cap := 0, base := 0,
    dataOff := BitVec.ofNat 16 Config.msgMaxHdr, hdrLen := 0,
    dataEnd := BitVec.ofNat 16 Config.msgMaxHdr, dataEndOff := 0,
    dataPos := BitVec.ofNat 16 Config.msgMaxHdr, dataPosOff := 0,
    result := .working, next := Config.noHandle, store := [], bufId := 0 }

/-- The lowest-numbered context with `valid` = 0; OutOfMemory when there is none (R101). -/
def newContext (s : State) : Except Status Nat :=
  match s.ctxs.findIdx? fun c => !c.valid with
  | some h => .ok h
  | none => .error .outOfMemory

/-! ### The pool (10_state.md R21) -/

/-- What one slot takes from the pool. -/
def Ctx.poolBytes (c : Ctx) : Nat :=
  if c.valid ∧ c.own = .owned then c.cap.toNat + Config.msgMaxHdr else 0

/-- `pool_used` (R21). -/
def State.poolUsed (s : State) : Nat := (s.ctxs.map Ctx.poolBytes).sum

/-- `n` bytes in use are at most `POOL_BYTES` (R21). -/
def State.poolHolds (s : State) (n : Nat) : Bool :=
  match s.params.poolBytes with
  | none => true
  | some limit => n ≤ limit

/-! ### Buffer bytes (20_memory.md R41 to R43, R48, R51) -/

/-- Where a byte lies: in the owned buffer of a context, or in host memory (R40). -/
inductive Loc where
  | own (h k : Nat)
  | host (a : Nat)
deriving DecidableEq, Repr

/-- The place of `BUF[h][k]` (R42, R43). It is asked only of a context with storage. -/
def State.bufLoc (s : State) (h k : Nat) : Loc :=
  if (s.slot h).own = .borrowed then .host ((s.slot h).base.toNat - 3 + k) else .own h k

/-- The byte at a place: what was written last, or its free value (R51, U2, U13; log 7, log 8). -/
def State.locRead (s : State) : Loc → Byte
  | .own h k => (memGet (s.slot h).store k).getD (Config.freeByte (s.slot h).bufId k)
  | .host a => (memGet s.host a).getD (Config.hostByte a)

/-- Write the byte at a place. -/
def State.locWrite (s : State) (l : Loc) (v : Byte) : State :=
  match l with
  | .own h k => s.mapCtx h fun c => { c with store := memSet c.store k v }
  | .host a => { s with host := memSet s.host a v }

/-- `MemRead(h, k)` (R7, R43). -/
def State.bufRead (s : State) (h k : Nat) : Byte := s.locRead (s.bufLoc h k)

/-- `MemWrite(h, k, v)` (R7, R43). -/
def State.bufWrite (s : State) (h k : Nat) (v : Byte) : State := s.locWrite (s.bufLoc h k) v

/-- Write bytes at consecutive indices from `k`. -/
def State.writeBytes (s : State) (h k : Nat) : List Byte → State
  | [] => s
  | v :: vs => (s.bufWrite h k v).writeBytes h (k + 1) vs

/-! ### Buffer bits, most significant first (20_memory.md R44 to R46) -/

/-- Bit position `q` of `BUF[h]` (R44). -/
def State.bufBit (s : State) (h q : Nat) : Bool := (s.bufRead h (q / 8)).getLsbD (7 - q % 8)

/-- `getbits(h, p, n)` (R45). -/
def State.getBits (s : State) (h p : Nat) : Nat → Nat
  | 0 => 0
  | n + 1 => 2 * s.getBits h p n + (s.bufBit h (p + n)).toNat

/-- A byte with the bit of position `q` (counted as in R44) set to `b` and every other bit kept (R46). -/
def setBitOf (v : Byte) (q : Nat) (b : Bool) : Byte :=
  let m : Byte := 1 <<< (7 - q % 8)
  (v &&& ~~~m) ||| (if b then m else 0)

/-- Write one bit, a read-modify-write of its byte (R46, R48). -/
def State.putBit (s : State) (h q : Nat) (b : Bool) : State :=
  s.bufWrite h (q / 8) (setBitOf (s.bufRead h (q / 8)) q b)

/-- `putbits(h, p, n, v)` (R46): bit `n-1-i` of `v` to position `p + i`, first position first. -/
def State.putBits (s : State) (h p : Nat) : Nat → Nat → State
  | 0, _ => s
  | n + 1, v => (s.putBits h p n (v / 2)).putBit h (p + n) (v % 2 = 1)

/-- The bit string of a list of bytes as a number of `8 * length` bits, the first byte on top: the `data` of
42_msg_send.md R122, the header bytes of 45_header_codec.md R194. -/
def bytesString (bytes : List Byte) : Nat := bytes.foldl (fun acc b => acc * 256 + b.toNat) 0

/-! ### Making room and appending (41_msg_lifecycle.md R102) -/

/-- `ensure_room(h, nbits)` for the context `c` of handle `h` (R102). The bytes an owned buffer gains are unwritten
(R51), so extending it is setting `cap`. -/
def ensureRoom (s : State) (h : Nat) (c : Ctx) (nbits : Nat) : Except Status State :=
  if c.wc + nbits ≤ c.lim then .ok s
  else if c.own ≠ .owned then .error .cursorOverflow
  else if ceil8 (c.wc + nbits - c.ps) > Config.capMax then .error .cursorOverflow
  else if ¬ s.poolHolds (s.poolUsed - c.cap.toNat + ceil8 (c.wc + nbits - c.ps)) then .error .outOfMemory
  else .ok (s.mapCtx h fun d => { d with cap := BitVec.ofNat 16 (ceil8 (c.wc + nbits - c.ps)) })

/-- Append `nbits` bits to context `c` of handle `h`: make room, write them at the write cursor, advance it
(42_msg_send.md R121, 43_msg_receive.md R141). -/
def appendBits (s : State) (h : Nat) (c : Ctx) (nbits v : Nat) : Except Status State := do
  let s1 ← ensureRoom s h c nbits
  .ok ((s1.putBits h c.wc nbits v).mapCtx h fun d => d.withWC (c.wc + nbits))

/-- Do the windows of two contexts share a host byte (20_memory.md R43, R53)? -/
def windowsOverlap (c d : Ctx) : Bool :=
  c.own = .borrowed ∧ d.own = .borrowed ∧
  c.base.toNat - 3 < d.base.toNat + d.cap.toNat ∧ d.base.toNat - 3 < c.base.toNat + c.cap.toNat

end Sys2Proof.Machine
end

