-- ==== Sys2Proof/Machine/Operands.lean ====
section
/-! DEFINITION. The operand forms (30_encoding.md R62): data operands cut to their width, control operands checked
(41_msg_lifecycle.md R100), and the numbers of the enumerated fields (10_state.md R13, R16). -/

namespace Sys2Proof.Machine

/-- A byte operand, `x[7:0]` (R62). -/
def byteOperand (x : Word) : Byte := BitVec.ofNat 8 x.toNat

/-- An 8-bit running checksum, `y[7:0]` (R62). -/
def crc8Operand (y : Word) : BitVec 8 := BitVec.ofNat 8 y.toNat

/-- A 16-bit running checksum, `y[15:0]` (R62). -/
def crc16Operand (y : Word) : BitVec 16 := BitVec.ofNat 16 y.toNat

/-- A value operand of `w` bits, `x[w-1:0]` (R62, 40_crc_engine.md R93). -/
def valueOperand (x : Word) (w : Byte) : Nat := x.toNat % 2 ^ w.toNat

/-- `need_width(w)` (R100). -/
def needWidth (w : Byte) : Except Status Unit := need (1 ≤ w.toNat ∧ w.toNat ≤ Config.wMax) .badOperand

/-- `need_cap(n)` (R100). -/
def needCap (n : Nat) : Except Status Unit := need (1 ≤ n ∧ n ≤ Config.capMax) .badOperand

/-- `need_base(a, n)` (R100). -/
def needBase (a n : Nat) : Except Status Unit :=
  need (Config.msgMaxHdr ≤ a ∧ a + n ≤ Config.hostSpace) .badOperand

/-- The check of a count operand: at most 65535 (R62, R65). -/
def needCount (n : Nat) : Except Status Unit := need (n ≤ Config.countMax) .badOperand

/-- The number of an ownership tag (10_state.md R13, field 12). -/
def Own.code : Own → Nat
  | .detached => 0
  | .owned => 1
  | .borrowed => 2

/-- The number of a result tag (10_state.md R16). -/
def ResultTag.code : ResultTag → Nat
  | .working => 0
  | .free => 1
  | .success => 2
  | .missing => 3
  | .error => 4
  | .fatal => 5

/-- The result tag of a number (10_state.md R16); none for the numbers that are never held. -/
def resultOf : Nat → Option ResultTag
  | 0 => some .working
  | 1 => some .free
  | 2 => some .success
  | 3 => some .missing
  | 4 => some .error
  | 5 => some .fatal
  | _ => none

/-- The legal range of `src` and `dst` (10_state.md R13). -/
abbrev addressInRange (v : Int) : Prop := -4 ≤ v ∧ v ≤ 127

/-- The read-only view `data_max` (10_state.md R15). -/
def Ctx.dataMax (c : Ctx) : BitVec 16 := if c.own = .owned then c.cap else 0

/-- `base` as it reads: 0 unless BORROWED (10_state.md R13, 44_msg_access.md R174). -/
def Ctx.baseRead (c : Ctx) : BitVec 32 := if c.own = .borrowed then c.base else 0

/-- The value of field `no` (10_state.md R13, 44_msg_access.md R174); none for a number that is no field. -/
def Ctx.field (c : Ctx) (no : Nat) : Option Word :=
  match no with
  | 0 => some (c.src.signExtend 32)
  | 1 => some (c.dst.signExtend 32)
  | 2 => some (c.code.setWidth 32)
  | 3 => some (c.dataMax.setWidth 32)
  | 4 => some (c.dataOff.setWidth 32)
  | 5 => some (c.hdrLen.setWidth 32)
  | 6 => some (c.dataEnd.setWidth 32)
  | 7 => some (c.dataEndOff.setWidth 32)
  | 8 => some (c.dataPos.setWidth 32)
  | 9 => some (c.dataPosOff.setWidth 32)
  | 10 => some (BitVec.ofNat 32 c.result.code)
  | 11 => some (c.next.setWidth 32)
  | 12 => some (BitVec.ofNat 32 c.own.code)
  | 13 => some (c.cap.setWidth 32)
  | 14 => some c.baseRead
  | _ => none

/-- The context after SET_FIELD of field `no` with value `x` on a block with `n` contexts, or BadOperand: a field
that is read-only or absent, or a value outside the field's range (44_msg_access.md R175). -/
def Ctx.withField (c : Ctx) (n no : Nat) (x : Word) : Except Status Ctx :=
  match no with
  | 0 => if addressInRange x.toInt then .ok { c with src := BitVec.ofNat 8 x.toNat } else .error .badOperand
  | 1 => if addressInRange x.toInt then .ok { c with dst := BitVec.ofNat 8 x.toNat } else .error .badOperand
  | 2 => if x.toNat ≤ 255 then .ok { c with code := BitVec.ofNat 8 x.toNat } else .error .badOperand
  | 5 =>
    if x.toNat ≤ 3 ∧ x.toNat ≤ c.dataOff.toNat then .ok { c with hdrLen := BitVec.ofNat 2 x.toNat }
    else .error .badOperand
  | 10 =>
    match resultOf x.toNat with
    | some r => .ok { c with result := r }
    | none => .error .badOperand
  | 11 =>
    if x.toNat < n ∨ x.toNat = Config.noHandle.toNat then .ok { c with next := BitVec.ofNat 8 x.toNat }
    else .error .badOperand
  | _ => .error .badOperand

end Sys2Proof.Machine
end

