-- ==== Sys2Proof/Machine/Access.lean ====
section
/-! DEFINITION. Accessors and field access (44_msg_access.md R170 to R176). -/

namespace Sys2Proof.Machine

/-- START (R170). -/
def execStart (ha : Byte) (s : State) : Host.Outcome State Fault Refusal := complete s do
  let c ← needCtx s ha
  .ok (s, c.dataOff.setWidth 32)

/-- LENGTH (R171): bytes of content, a partial byte counted. -/
def execLength (ha : Byte) (s : State) : Host.Outcome State Fault Refusal := complete s do
  let c ← needCtx s ha
  .ok (s, BitVec.ofNat 32 (ceil8 (c.wc - c.ps)))

/-- BIT_LENGTH (R172). -/
def execBitLength (ha : Byte) (s : State) : Host.Outcome State Fault Refusal := complete s do
  let c ← needCtx s ha
  .ok (s, BitVec.ofNat 32 (c.wc - c.ps))

/-- SENT_BITS (R173). -/
def execSentBits (ha : Byte) (s : State) : Host.Outcome State Fault Refusal := complete s do
  let c ← needCtx s ha
  .ok (s, BitVec.ofNat 32 (c.rc - c.ps))

/-- GET_FIELD (R174). -/
def execGetField (ha hb : Byte) (s : State) : Host.Outcome State Fault Refusal := complete s do
  let c ← needCtx s ha
  match c.field hb.toNat with
  | some v => .ok (s, v)
  | none => .error .badOperand

/-- SET_FIELD (R175, R176): the one field; transitions of `result` are not checked. -/
def execSetField (ha hb : Byte) (x : Word) (s : State) : Host.Outcome State Fault Refusal := complete s do
  let c ← needCtx s ha
  let d ← c.withField s.ctxs.length hb.toNat x
  .ok (s.putCtx ha.toNat d, 0)

end Sys2Proof.Machine
end

