-- ==== Sys2Proof/Machine/Crc.lean ====
section
/-! DEFINITION. CrcEngine (40_crc_engine.md R80 to R94): the tables, the updates, and the ten CRC commands. -/

namespace Sys2Proof.Machine

/-! ### Tables (R81) -/

/-- One round of `gen8` (R81): the test of bit 7 is on the value before the shift. -/
def round8 (poly c : BitVec 8) : BitVec 8 := (c <<< 1) ^^^ (if c.getLsbD 7 then poly else 0)

/-- One round of `gen16` (R81). -/
def round16 (poly c : BitVec 16) : BitVec 16 := (c <<< 1) ^^^ (if c.getLsbD 15 then poly else 0)

/-- `n` rounds of `gen8`. -/
def rounds8 (poly : BitVec 8) : Nat → BitVec 8 → BitVec 8
  | 0, c => c
  | n + 1, c => rounds8 poly n (round8 poly c)

/-- `n` rounds of `gen16`. -/
def rounds16 (poly : BitVec 16) : Nat → BitVec 16 → BitVec 16
  | 0, c => c
  | n + 1, c => rounds16 poly n (round16 poly c)

/-- `table8[i]` of the table of polynomial `poly` (R81, TBL-WF). -/
def table8 (poly : BitVec 8) (i : Byte) : BitVec 8 := rounds8 poly 8 i

/-- `table16[i]` of the table of polynomial `poly` (R81, TBL-WF). -/
def table16 (poly : BitVec 16) (i : Byte) : BitVec 16 := rounds16 poly 8 (BitVec.ofNat 16 (i.toNat * 256))

/-! ### Updates (R83, R84, R88, R89) -/

/-- `update(crc, byte)` of CRC8 (R83). -/
def crc8Step (poly c : BitVec 8) (b : Byte) : BitVec 8 := table8 poly (b ^^^ c)

/-- `update(crc, byte)` of CRC16 (R88). -/
def crc16Step (poly c : BitVec 16) (b : Byte) : BitVec 16 :=
  table16 poly (b ^^^ BitVec.ofNat 8 (c.toNat / 256)) ^^^ (c <<< 8)

/-- The last two lines of R84's pseudocode: the remaining `n` <= 8 bits `v` < 2^n. -/
def crc8Tail (poly c : BitVec 8) (v n : Nat) : BitVec 8 :=
  let d := c ^^^ BitVec.ofNat 8 (v <<< (8 - n))
  table8 poly (d >>> (8 - n)) ^^^ (d <<< n)

/-- `update_v(crc, value, n_bits)` of CRC8 (R84), for `v` < 2^n and 1 <= n <= 16. -/
def crc8Bits (poly c : BitVec 8) (v n : Nat) : BitVec 8 :=
  if n > 8 then
    crc8Tail poly (table8 poly (c ^^^ BitVec.ofNat 8 (v >>> (n - 8)))) (v % 2 ^ (n - 8)) (n - 8)
  else crc8Tail poly c v n

/-- The last line of R89's pseudocode, `n` <= 8: the index is the top `n` bits of the checksum. -/
def crc16Tail (poly c : BitVec 16) (n : Nat) : BitVec 16 :=
  table16 poly (BitVec.ofNat 8 (c.toNat >>> (16 - n))) ^^^ (c <<< n)

/-- `update_v(crc, value, n_bits)` of CRC16 (R89), for `v` < 2^n and 1 <= n <= 16. -/
def crc16Bits (poly c : BitVec 16) (v n : Nat) : BitVec 16 :=
  let d := c ^^^ BitVec.ofNat 16 (v <<< (16 - n))
  if n > 8 then
    crc16Tail poly (table16 poly (BitVec.ofNat 8 (d.toNat >>> 8)) ^^^ (d <<< 8)) (n - 8)
  else crc16Tail poly d n

/-- `crc(data, len)` of CRC8 (R86). -/
def crc8Fold (poly : BitVec 8) (data : List Byte) : BitVec 8 := data.foldl (crc8Step poly) 0

/-- `crc(data, len)` of CRC16 (R91). -/
def crc16Fold (poly : BitVec 16) (data : List Byte) : BitVec 16 := data.foldl (crc16Step poly) 0

/-! ### The commands: no state is written (R80) -/

/-- CRC8_INIT (R82). -/
def execCrc8Init (s : State) : Host.Outcome State Fault Refusal := respond s 0

/-- CRC8_UPDATE (R83). -/
def execCrc8Update (x y : Word) (s : State) : Host.Outcome State Fault Refusal :=
  respond s ((crc8Step s.params.poly8 (crc8Operand y) (byteOperand x)).setWidth 32)

/-- CRC8_UPDATE_V (R84). -/
def execCrc8UpdateV (w : Byte) (x y : Word) (s : State) : Host.Outcome State Fault Refusal := complete s do
  needWidth w
  .ok (s, (crc8Bits s.params.poly8 (crc8Operand y) (valueOperand x w) w.toNat).setWidth 32)

/-- CRC8_FINISH (R85). -/
def execCrc8Finish (y : Word) (s : State) : Host.Outcome State Fault Refusal :=
  respond s ((crc8Operand y).setWidth 32)

/-- CRC8_BLOCK (R86). -/
def execCrc8Block (x : Word) (data : List Byte) (s : State) : Host.Outcome State Fault Refusal := complete s do
  needCount x.toNat
  .ok (s, (crc8Fold s.params.poly8 data).setWidth 32)

/-- CRC16_INIT (R87). -/
def execCrc16Init (s : State) : Host.Outcome State Fault Refusal := respond s 0

/-- CRC16_UPDATE (R88). -/
def execCrc16Update (x y : Word) (s : State) : Host.Outcome State Fault Refusal :=
  respond s ((crc16Step s.params.poly16 (crc16Operand y) (byteOperand x)).setWidth 32)

/-- CRC16_UPDATE_V (R89). -/
def execCrc16UpdateV (w : Byte) (x y : Word) (s : State) : Host.Outcome State Fault Refusal := complete s do
  needWidth w
  .ok (s, (crc16Bits s.params.poly16 (crc16Operand y) (valueOperand x w) w.toNat).setWidth 32)

/-- CRC16_FINISH (R90). -/
def execCrc16Finish (y : Word) (s : State) : Host.Outcome State Fault Refusal :=
  respond s ((crc16Operand y).setWidth 32)

/-- CRC16_BLOCK (R91). -/
def execCrc16Block (x : Word) (data : List Byte) (s : State) : Host.Outcome State Fault Refusal := complete s do
  needCount x.toNat
  .ok (s, (crc16Fold s.params.poly16 data).setWidth 32)

end Sys2Proof.Machine
end

