-- ==== Sys2Proof/Machine/Lifecycle.lean ====
section
/-! DEFINITION. Message lifecycle (41_msg_lifecycle.md R103 to R108). Checks stand in the order of the rule's
pseudocode. -/

namespace Sys2Proof.Machine

/-- An owned buffer of `cap` bytes in slot `h`: the new context `c` takes it with a draw number of its own, so its
bytes are unwritten and free (R103, R145; 20_memory.md R51). -/
def State.createOwned (s : State) (h cap : Nat) (c : Ctx) : State :=
  { s.putCtx h { c with own := .owned, cap := BitVec.ofNat 16 cap, store := [], bufId := s.fresh } with
    fresh := s.fresh + 1 }

/-- ALLOCATE (R103). -/
def execAllocate (x : Word) (s : State) : Host.Outcome State Fault Refusal := complete s do
  needCap x.toNat
  let h ← newContext s
  need (s.poolHolds (s.poolUsed + x.toNat + Config.msgMaxHdr)) .outOfMemory
  .ok (s.createOwned h x.toNat initCtx, BitVec.ofNat 32 h)

/-- WRAP (R104): the `y` bytes are the content. -/
def execWrap (x y : Word) (s : State) : Host.Outcome State Fault Refusal := complete s do
  needCap y.toNat
  needBase x.toNat y.toNat
  let h ← newContext s
  let c := { initCtx with own := .borrowed, cap := BitVec.ofNat 16 y.toNat, base := x }
  .ok (s.putCtx h (c.withWC (c.ps + 8 * y.toNat)), BitVec.ofNat 32 h)

/-- DUPLICATE (R105): the nine fields of the source; DETACHED, WORKING, `NONE`. -/
def execDuplicate (ha : Byte) (s : State) : Host.Outcome State Fault Refusal := complete s do
  let c ← needCtx s ha
  let h ← newContext s
  .ok (s.putCtx h { initCtx with
        src := c.src, dst := c.dst, code := c.code, hdrLen := c.hdrLen, dataOff := c.dataOff,
        dataEnd := c.dataEnd, dataEndOff := c.dataEndOff, dataPos := c.dataPos, dataPosOff := c.dataPosOff },
    BitVec.ofNat 32 h)

/-- ATTACH (R106). -/
def execAttach (ha : Byte) (x y : Word) (s : State) : Host.Outcome State Fault Refusal := complete s do
  let c ← needCtx s ha
  needCap y.toNat
  needBase x.toNat y.toNat
  need (c.own = .detached) .invalidBufferOwnership
  need (c.wc ≤ 8 * (c.dataOff.toNat + y.toNat)) .cursorOverflow
  .ok (s.mapCtx ha.toNat fun d => { d with own := .borrowed, cap := BitVec.ofNat 16 y.toNat, base := x }, 0)

/-- RELEASE (R107): the owned buffer, if any, ceases to exist; `next` is not followed, host memory not touched. -/
def execRelease (ha : Byte) (s : State) : Host.Outcome State Fault Refusal := complete s do
  let c ← needCtx s ha
  .ok (s.mapCtx ha.toNat fun d => { d with valid := false, store := [] }, if c.own = .owned then 1 else 0)

/-- GROW (R108): never shrinks; the new bytes are unwritten. -/
def execGrow (ha : Byte) (x : Word) (s : State) : Host.Outcome State Fault Refusal := complete s do
  let c ← needCtx s ha
  needCap x.toNat
  need (c.own = .owned) .invalidBufferOwnership
  if x.toNat ≤ c.cap.toNat then .ok (s, 0)
  else do
    need (s.poolHolds (s.poolUsed - c.cap.toNat + x.toNat)) .outOfMemory
    .ok (s.mapCtx ha.toNat fun d => { d with cap := BitVec.ofNat 16 x.toNat }, 0)

end Sys2Proof.Machine
end

