-- ==== Sys2Proof/Machine/Flags.lean ====
section
/-! DEFINITION. What the block has in place of flags (10_state.md R18): the status codes, the response word, and the
marker bit of EXTRACT_CHUNK. There are no condition codes. -/

namespace Sys2Proof.Machine

/-- The status codes (60_exceptions.md R210). -/
def Status.code : Status → Nat
  | .ok => 0
  | .outOfMemory => 1
  | .invalidBufferOwnership => 2
  | .cursorOverflow => 3
  | .corruptHeader => 4
  | .badOperand => 5
  | .illegalCommand => 6

/-- The 64 bits of a response (30_encoding.md R66): `S[63:56]` status, `S[55:32]` zero, `S[31:0]` value. -/
def Response.word (r : Response) : BitVec 64 := BitVec.ofNat 64 (r.status.code * 2 ^ 56 + r.value.toNat)

/-- The eight bytes of a response, most significant first (30_encoding.md R67). -/
def Response.bytes (r : Response) : List Byte :=
  (List.range 8).map fun k => BitVec.ofNat 8 (r.word.toNat / 256 ^ (7 - k))

/-- A final, short chunk (42_msg_send.md R125): `r` real bits on top of a chunk of `w` bits, zeros below, and the
marker bit `1 << w` above. -/
def shortChunk (w r bits : Nat) : Nat := 2 ^ w ||| (bits <<< (w - r))

end Sys2Proof.Machine
end

