-- ==== Sys2Proof/Machine/Send.lean ====
section
/-! DEFINITION. The sender and extraction side (42_msg_send.md R120 to R125). -/

namespace Sys2Proof.Machine

/-- Both cursors to the payload start (R120, 43_msg_receive.md R140; 90_conflicts.md C8). -/
def resetCursors (s : State) (ha : Byte) : Except Status (State × Word) := do
  let c ← needCtx s ha
  .ok (s.mapCtx ha.toNat fun d => (d.withWC c.ps).withRC c.ps, 0)

/-- START_SEND (R120). -/
def execStartSend (ha : Byte) (s : State) : Host.Outcome State Fault Refusal := complete s (resetCursors s ha)

/-- APPEND_BYTE (R121). -/
def execAppendByte (ha : Byte) (x : Word) (s : State) : Host.Outcome State Fault Refusal := complete s do
  let c ← needCtx s ha
  needStore c
  let t ← appendBits s ha.toNat c 8 (byteOperand x).toNat
  .ok (t, 0)

/-- APPEND_BYTES (R122): the bytes one after the other are one string of `8 * count` bits; all or nothing; the count
check first (90_conflicts.md C12). A decoded command carries
exactly `x` data bytes when `x` is at most 65535; the bytes it carries are the bytes appended (log 15). -/
def execAppendBytes (ha : Byte) (x : Word) (data : List Byte) (s : State) : Host.Outcome State Fault Refusal :=
  complete s do
    let c ← needCtx s ha
    needCount x.toNat
    needStore c
    let t ← appendBits s ha.toNat c (8 * data.length) (bytesString data)
    .ok (t, 0)

/-- START_EXTRACT (R123). -/
def execStartExtract (ha : Byte) (s : State) : Host.Outcome State Fault Refusal := complete s do
  let c ← needCtx s ha
  .ok (s.mapCtx ha.toNat fun d => d.withRC c.ps, 0)

/-- HAS_MORE (R124). -/
def execHasMore (ha : Byte) (s : State) : Host.Outcome State Fault Refusal := complete s do
  let c ← needCtx s ha
  .ok (s, if c.rc < c.wc then 1 else 0)

/-- EXTRACT_CHUNK (R125): a full chunk, or a short one with the marker and the read cursor at the write cursor. -/
def execExtractChunk (ha w : Byte) (s : State) : Host.Outcome State Fault Refusal := complete s do
  let c ← needCtx s ha
  needWidth w
  needStore c
  need (c.rc < c.wc) .cursorOverflow
  if w.toNat ≤ c.wc - c.rc then
    .ok (s.mapCtx ha.toNat fun d => d.withRC (c.rc + w.toNat),
      BitVec.ofNat 32 (s.getBits ha.toNat c.rc w.toNat))
  else
    .ok (s.mapCtx ha.toNat fun d => d.withRC c.wc,
      BitVec.ofNat 32 (shortChunk w.toNat (c.wc - c.rc) (s.getBits ha.toNat c.rc (c.wc - c.rc))))

end Sys2Proof.Machine
end

