-- ==== Sys2Proof/Machine/Receive.lean ====
section
/-! DEFINITION. The receiver and editing side (43_msg_receive.md R140 to R145, R158). -/

namespace Sys2Proof.Machine

/-- START_ADD (R140). -/
def execStartAdd (ha : Byte) (s : State) : Host.Outcome State Fault Refusal := complete s (resetCursors s ha)

/-- ADD_CHUNK (R141): always `w` bits; a marker bit left in the value is dropped. -/
def execAddChunk (ha w : Byte) (x : Word) (s : State) : Host.Outcome State Fault Refusal := complete s do
  let c ← needCtx s ha
  needWidth w
  needStore c
  let t ← appendBits s ha.toNat c w.toNat (valueOperand x w)
  .ok (t, 0)

/-- The bits ADD_FROM copies (R142): the next `n` unread bits of the source `d`; when the two windows share a host
byte the bits written are unspecified, a FREE VALUE (20_memory.md R53, U5; log 9). -/
def copiedBits (s : State) (hb : Nat) (c d : Ctx) (n : Nat) : Nat :=
  if windowsOverlap c d then (Config.freeBits s.fresh n).toNat else s.getBits hb d.rc n

/-- ADD_FROM (R142): every check before the first bit; the source's read cursor advances. The draw counter advances
when a draw was made. -/
def execAddFrom (ha hb : Byte) (x : Word) (s : State) : Host.Outcome State Fault Refusal := complete s do
  let c ← needCtx s ha
  let d ← needCtx s hb
  need (ha ≠ hb) .badOperand
  needCount x.toNat
  needStore c
  needStore d
  need (x.toNat ≤ d.wc - d.rc) .cursorOverflow
  let t ← appendBits s ha.toNat c x.toNat (copiedBits s hb.toNat c d x.toNat)
  .ok ({ t.mapCtx hb.toNat fun e => e.withRC (d.rc + x.toNat) with
         fresh := if windowsOverlap c d then s.fresh + 1 else s.fresh }, 0)

/-- DROP (R143): the write cursor goes back; no buffer byte changes. -/
def execDrop (ha w : Byte) (s : State) : Host.Outcome State Fault Refusal := complete s do
  let c ← needCtx s ha
  needWidth w
  needStore c
  need (c.rc + w.toNat ≤ c.wc) .cursorOverflow
  .ok (s.mapCtx ha.toNat fun d => d.withWC (c.wc - w.toNat),
    BitVec.ofNat 32 (s.getBits ha.toNat (c.wc - w.toNat) w.toNat))

/-- ALIGN (R144). -/
def execAlign (ha : Byte) (s : State) : Host.Outcome State Fault Refusal := complete s do
  let c ← needCtx s ha
  need (c.rc ≤ 8 * c.dataEnd.toNat) .cursorOverflow
  .ok (s.mapCtx ha.toNat fun d => { d with dataEndOff := 0 }, 0)

/-- The header bytes of a context, first byte first: `BUF[h][data_off - hdr_len .. data_off - 1]`
(20_memory.md R41). -/
def State.headerBytes (s : State) (h : Nat) (c : Ctx) : List Byte :=
  (List.range c.hdrLen.toNat).map fun k => s.bufRead h (c.dataOff.toNat - c.hdrLen.toNat + k)

/-- TRUNCATE_COPY (R145): a new owned context with the first `x` bits, the header bytes and the header fields; the
cleared bytes make the bits after the copy 0. -/
def execTruncateCopy (ha : Byte) (x : Word) (s : State) : Host.Outcome State Fault Refusal := complete s do
  let c ← needCtx s ha
  needStore c
  need (x.toNat ≤ c.wc - c.ps) .cursorOverflow
  let newcap := max 1 (ceil8 x.toNat)
  let h ← newContext s
  need (s.poolHolds (s.poolUsed + newcap + Config.msgMaxHdr)) .outOfMemory
  let e := { initCtx with src := c.src, dst := c.dst, code := c.code, hdrLen := c.hdrLen }
  let s1 := s.createOwned h newcap (e.withWC (e.ps + x.toNat))
  let s2 := s1.writeBytes h (Config.msgMaxHdr - c.hdrLen.toNat) (s.headerBytes ha.toNat c)
  let s3 := s2.writeBytes h Config.msgMaxHdr (List.replicate (ceil8 x.toNat) 0)
  .ok (s3.putBits h e.ps x.toNat (s.getBits ha.toNat c.ps x.toNat), BitVec.ofNat 32 h)

/-- FILL_CRC (R158): with `HAS_FILLCRC` = false every command with this opcode is illegal; its fields are not read. -/
def execFillCrc (_ha _hb _w : Byte) (_x : Word) (s : State) : Host.Outcome State Fault Refusal := illegalCommand s

end Sys2Proof.Machine
end

