-- ==== Sys2Proof/Machine/Header.lean ====
section
/-! DEFINITION. HeaderCodec (45_header_codec.md R190 to R197). A header is a bit string, most significant bit first,
held as the number of that string. -/

namespace Sys2Proof.Machine

/-! ### Encoding (R191, R192) -/

/-- Is an address negative, hence short (R191)? -/
def isShort (a : Byte) : Bool := a.msb

/-- The bits of `A(a)` (R192): 3 for a short address, 8 for a long one. -/
def addressWidth (a : Byte) : Nat := if isShort a then 3 else 8

/-- The string `A(a)` as a number (R192): flag 1 and `a + 4` in 2 bits, or flag 0 and `a` in 7 bits. -/
def addressBits (a : Byte) : Nat := if isShort a then 4 + (a.toNat + 4) % 4 else a.toNat % 128

/-- The code bits of the class of an address pair (R191), by the two flags. -/
def codeWidth (dstShort srcShort : Bool) : Nat :=
  match dstShort, srcShort with
  | true, true => 2
  | true, false => 5
  | false, true => 5
  | false, false => 8

/-- The header bytes of the class of an address pair (R191). -/
def headerLen (dst src : Byte) : Nat :=
  match isShort dst, isShort src with
  | true, true => 1
  | true, false => 2
  | false, true => 2
  | false, false => 3

/-- The header string `A(dst) ++ A(src) ++ code` (R192), as a number of `8 * headerLen` bits. -/
def headerString (dst src code : Byte) : Nat :=
  let cbits := codeWidth (isShort dst) (isShort src)
  (addressBits dst * 2 ^ addressWidth src + addressBits src) * 2 ^ cbits + code.toNat

/-- The `len` bytes of a string of `8 * len` bits, first byte on top (R193). -/
def stringBytes (len string : Nat) : List Byte :=
  (List.range len).map fun k => BitVec.ofNat 8 (string / 256 ^ (len - 1 - k))

/-- The header bytes of a triple (R192, R193). -/
def encodeHeader (dst src code : Byte) : List Byte := stringBytes (headerLen dst src) (headerString dst src code)

/-! ### Decoding (R194) -/

/-- `take(k)` (R194): the next `k` of the `n` bits left of `string`, and how many are left then. -/
def takeBits (string n k : Nat) : Except Status (Nat × Nat) :=
  if k > n then .error .corruptHeader else .ok (string / 2 ^ (n - k) % 2 ^ k, n - k)

/-- One address (R194): its flag (true for a short one), its value, and the bits left. -/
def takeAddress (string n : Nat) : Except Status (Bool × Byte × Nat) := do
  let (f, n1) ← takeBits string n 1
  if f = 1 then
    let (v, n2) ← takeBits string n1 2
    .ok (true, BitVec.ofNat 8 v - 4, n2)
  else
    let (v, n2) ← takeBits string n1 7
    .ok (false, BitVec.ofNat 8 v, n2)

/-- `dst`, `src`, `code` of header bytes, or CorruptHeader (R194). -/
def decodeHeader (bytes : List Byte) : Except Status (Byte × Byte × Byte) := do
  need (bytes.length ≠ 0) .corruptHeader
  let string := bytesString bytes
  let (df, d, n1) ← takeAddress string (8 * bytes.length)
  let (sf, s, n2) ← takeAddress string n1
  need (n2 = codeWidth df sf) .corruptHeader
  let (c, _) ← takeBits string n2 (codeWidth df sf)
  .ok (d, s, BitVec.ofNat 8 c)

/-- The length a header announces by its flag bits (R195); the host's function, not a command. -/
def announcedLen (b0 b1 : Byte) : Nat :=
  if b0.getLsbD 7 then (if b0.getLsbD 4 then 1 else 2) else (if b1.getLsbD 7 then 2 else 3)

/-! ### The commands -/

/-- HDR_ENCODE (R193). -/
def execHdrEncode (ha : Byte) (s : State) : Host.Outcome State Fault Refusal := complete s do
  let c ← needCtx s ha
  needStore c
  need (c.code.toNat < 2 ^ codeWidth (isShort c.dst) (isShort c.src)) .badOperand
  let len := headerLen c.dst c.src
  .ok ((s.writeBytes ha.toNat (c.dataOff.toNat - len) (encodeHeader c.dst c.src c.code)).mapCtx ha.toNat
        fun d => { d with hdrLen := BitVec.ofNat 2 len },
    BitVec.ofNat 32 len)

/-- HDR_DECODE (R194): `hdr_len` is an input; the three fields are written together or not at all. -/
def execHdrDecode (ha : Byte) (s : State) : Host.Outcome State Fault Refusal := complete s do
  let c ← needCtx s ha
  needStore c
  let (dst, src, code) ← decodeHeader (s.headerBytes ha.toNat c)
  .ok (s.mapCtx ha.toNat fun d => { d with dst := dst, src := src, code := code }, c.hdrLen.setWidth 32)

end Sys2Proof.Machine
end

