-- ==== Sys2Proof/Machine/Dispatch.lean ====
section
/-! DEFINITION. The meaning of every command, one arm per constructor. -/

namespace Sys2Proof.Machine

def exec (i : Instr) (s : State) : Host.Outcome State Fault Refusal :=
  match i with
  | .crc8Init => Sys2Proof.Machine.execCrc8Init s
  | .crc8Update x y => Sys2Proof.Machine.execCrc8Update x y s
  | .crc8UpdateV w x y => Sys2Proof.Machine.execCrc8UpdateV w x y s
  | .crc8Finish y => Sys2Proof.Machine.execCrc8Finish y s
  | .crc8Block x data => Sys2Proof.Machine.execCrc8Block x data s
  | .crc16Init => Sys2Proof.Machine.execCrc16Init s
  | .crc16Update x y => Sys2Proof.Machine.execCrc16Update x y s
  | .crc16UpdateV w x y => Sys2Proof.Machine.execCrc16UpdateV w x y s
  | .crc16Finish y => Sys2Proof.Machine.execCrc16Finish y s
  | .crc16Block x data => Sys2Proof.Machine.execCrc16Block x data s
  | .allocate x => Sys2Proof.Machine.execAllocate x s
  | .wrap x y => Sys2Proof.Machine.execWrap x y s
  | .duplicate ha => Sys2Proof.Machine.execDuplicate ha s
  | .release ha => Sys2Proof.Machine.execRelease ha s
  | .grow ha x => Sys2Proof.Machine.execGrow ha x s
  | .attach ha x y => Sys2Proof.Machine.execAttach ha x y s
  | .startSend ha => Sys2Proof.Machine.execStartSend ha s
  | .appendByte ha x => Sys2Proof.Machine.execAppendByte ha x s
  | .appendBytes ha x data => Sys2Proof.Machine.execAppendBytes ha x data s
  | .startExtract ha => Sys2Proof.Machine.execStartExtract ha s
  | .hasMore ha => Sys2Proof.Machine.execHasMore ha s
  | .extractChunk ha w => Sys2Proof.Machine.execExtractChunk ha w s
  | .startAdd ha => Sys2Proof.Machine.execStartAdd ha s
  | .addChunk ha w x => Sys2Proof.Machine.execAddChunk ha w x s
  | .addFrom ha hb x => Sys2Proof.Machine.execAddFrom ha hb x s
  | .drop ha w => Sys2Proof.Machine.execDrop ha w s
  | .align ha => Sys2Proof.Machine.execAlign ha s
  | .truncateCopy ha x => Sys2Proof.Machine.execTruncateCopy ha x s
  | .fillCrc ha hb w x => Sys2Proof.Machine.execFillCrc ha hb w x s
  | .start ha => Sys2Proof.Machine.execStart ha s
  | .length ha => Sys2Proof.Machine.execLength ha s
  | .bitLength ha => Sys2Proof.Machine.execBitLength ha s
  | .sentBits ha => Sys2Proof.Machine.execSentBits ha s
  | .getField ha hb => Sys2Proof.Machine.execGetField ha hb s
  | .setField ha hb x => Sys2Proof.Machine.execSetField ha hb x s
  | .hdrEncode ha => Sys2Proof.Machine.execHdrEncode ha s
  | .hdrDecode ha => Sys2Proof.Machine.execHdrDecode ha s

end Sys2Proof.Machine
end

