-- ==== Sys2Proof/WellFormed.lean ====
section
/-! DEFINITION. Well-formed commands: what a command word and the data bytes after it can say (30_encoding.md R65). -/

namespace Sys2Proof

/-- The number of data bytes that follow a command whose count operand is `x`: `x` of them, and none when `x` is
above 65535 (R65, R214). -/
def dataCount (x : Word) : Nat := if x.toNat ≤ Config.countMax then x.toNat else 0

/-- A command is well formed when it carries as many data bytes as its count operand announces (R65). Every other
operand may hold any value: an operand out of range is a legal command that answers BadOperand (R64). -/
def Instr.wellFormed : Instr → Bool
  | .crc8Block x data => data.length == dataCount x
  | .crc16Block x data => data.length == dataCount x
  | .appendBytes _ x data => data.length == dataCount x
  | .crc8Init | .crc8Update _ _ | .crc8UpdateV _ _ _ | .crc8Finish _ | .crc16Init | .crc16Update _ _
  | .crc16UpdateV _ _ _ | .crc16Finish _ | .allocate _ | .wrap _ _ | .duplicate _ | .release _ | .grow _ _
  | .attach _ _ _ | .startSend _ | .appendByte _ _ | .startExtract _ | .hasMore _ | .extractChunk _ _
  | .startAdd _ | .addChunk _ _ _ | .addFrom _ _ _ | .drop _ _ | .align _ | .truncateCopy _ _
  | .fillCrc _ _ _ _ | .start _ | .length _ | .bitLength _ | .sentBits _ | .getField _ _ | .setField _ _ _
  | .hdrEncode _ | .hdrDecode _ => true

end Sys2Proof
end

