-- ==== Sys2Proof/Decode.lean ====
section
/-! DEFINITION. The decoder, from the bytes of the command port to a command, total on any bytes and rejecting by
name, and the encoder (30_encoding.md R60 to R67). -/

namespace Sys2Proof

/-- The opcodes of R63, one per row of spec/opcode_table.json. -/
inductive Opcode where
  | crc8Init | crc8Update | crc8UpdateV | crc8Finish | crc8Block
  | crc16Init | crc16Update | crc16UpdateV | crc16Finish | crc16Block
  | allocate | wrap | duplicate | release | grow | attach
  | startSend | appendByte | appendBytes | startExtract | hasMore | extractChunk
  | startAdd | addChunk | addFrom | drop | align | truncateCopy | fillCrc
  | start | length | bitLength | sentBits | getField | setField
  | hdrEncode | hdrDecode
deriving DecidableEq, Repr

/-- The opcode numbers of R63 (`op` = C[95:88]). -/
def Opcode.code : Opcode → Nat
  | .crc8Init => 0x00 | .crc8Update => 0x01 | .crc8UpdateV => 0x02 | .crc8Finish => 0x03 | .crc8Block => 0x04
  | .crc16Init => 0x08 | .crc16Update => 0x09 | .crc16UpdateV => 0x0A | .crc16Finish => 0x0B | .crc16Block => 0x0C
  | .allocate => 0x10 | .wrap => 0x11 | .duplicate => 0x12 | .release => 0x13 | .grow => 0x14 | .attach => 0x15
  | .startSend => 0x20 | .appendByte => 0x21 | .appendBytes => 0x22 | .startExtract => 0x23 | .hasMore => 0x24
  | .extractChunk => 0x25
  | .startAdd => 0x30 | .addChunk => 0x31 | .addFrom => 0x32 | .drop => 0x33 | .align => 0x34
  | .truncateCopy => 0x35 | .fillCrc => 0x36
  | .start => 0x40 | .length => 0x41 | .bitLength => 0x42 | .sentBits => 0x43 | .getField => 0x44
  | .setField => 0x45
  | .hdrEncode => 0x50 | .hdrDecode => 0x51

/-- Every opcode, in the order of R63. -/
def allOpcodes : List Opcode :=
  [.crc8Init, .crc8Update, .crc8UpdateV, .crc8Finish, .crc8Block,
   .crc16Init, .crc16Update, .crc16UpdateV, .crc16Finish, .crc16Block,
   .allocate, .wrap, .duplicate, .release, .grow, .attach,
   .startSend, .appendByte, .appendBytes, .startExtract, .hasMore, .extractChunk,
   .startAdd, .addChunk, .addFrom, .drop, .align, .truncateCopy, .fillCrc,
   .start, .length, .bitLength, .sentBits, .getField, .setField,
   .hdrEncode, .hdrDecode]

/-- The opcode an `op` field names, none for an illegal one (R64). -/
def opcodeOf (op : Byte) : Option Opcode := allOpcodes.find? fun o => o.code == op.toNat

/-- The fields of the 96-bit command word (R60, R61). -/
structure Fields where
  op : Byte
  ha : Byte
  hb : Byte
  w : Byte
  x : Word
  y : Word
deriving DecidableEq, Repr

/-- A 32-bit word from its four bytes, most significant first (R67). -/
def wordOf (b0 b1 b2 b3 : Byte) : Word :=
  BitVec.ofNat 32 (b0.toNat * 16777216 + b1.toNat * 65536 + b2.toNat * 256 + b3.toNat)

/-- The four bytes of a 32-bit word, most significant first (R67). -/
def wordBytes (v : Word) : List Byte :=
  [BitVec.ofNat 8 (v.toNat / 16777216), BitVec.ofNat 8 (v.toNat / 65536), BitVec.ofNat 8 (v.toNat / 256),
   BitVec.ofNat 8 v.toNat]

/-- The command word at the front of a byte string, and the bytes after it (R60, R67); none when fewer than twelve
bytes are there. -/
def splitWord : List Byte → Option (Fields × List Byte)
  | op :: ha :: hb :: w :: x0 :: x1 :: x2 :: x3 :: y0 :: y1 :: y2 :: y3 :: rest =>
    some (⟨op, ha, hb, w, wordOf x0 x1 x2 x3, wordOf y0 y1 y2 y3⟩, rest)
  | _ => none

/-- Why a byte string is not a command. -/
inductive DecodeError where
  /-- The string ends before the command does (R60, R65). -/
  | incomplete
  /-- A whole command word is there and its `op` is not in R63 (R64). -/
  | illegalOpcode (op : Byte)
deriving DecidableEq, Repr

/-- The data bytes of a command whose count operand is `x`, and the bytes after them (R65). -/
def takeData (x : Word) (rest : List Byte) : Except DecodeError (List Byte × List Byte) :=
  if rest.length < dataCount x then .error .incomplete
  else .ok (rest.take (dataCount x), rest.drop (dataCount x))

/-- The command of an opcode, from the fields its row of R63 uses; the fields it does not use are ignored (R61). -/
def decodeBody (f : Fields) (rest : List Byte) : Opcode → Except DecodeError (Instr × List Byte)
  | .crc8Init => .ok (.crc8Init, rest)
  | .crc8Update => .ok (.crc8Update f.x f.y, rest)
  | .crc8UpdateV => .ok (.crc8UpdateV f.w f.x f.y, rest)
  | .crc8Finish => .ok (.crc8Finish f.y, rest)
  | .crc8Block => (takeData f.x rest).map fun p => (.crc8Block f.x p.1, p.2)
  | .crc16Init => .ok (.crc16Init, rest)
  | .crc16Update => .ok (.crc16Update f.x f.y, rest)
  | .crc16UpdateV => .ok (.crc16UpdateV f.w f.x f.y, rest)
  | .crc16Finish => .ok (.crc16Finish f.y, rest)
  | .crc16Block => (takeData f.x rest).map fun p => (.crc16Block f.x p.1, p.2)
  | .allocate => .ok (.allocate f.x, rest)
  | .wrap => .ok (.wrap f.x f.y, rest)
  | .duplicate => .ok (.duplicate f.ha, rest)
  | .release => .ok (.release f.ha, rest)
  | .grow => .ok (.grow f.ha f.x, rest)
  | .attach => .ok (.attach f.ha f.x f.y, rest)
  | .startSend => .ok (.startSend f.ha, rest)
  | .appendByte => .ok (.appendByte f.ha f.x, rest)
  | .appendBytes => (takeData f.x rest).map fun p => (.appendBytes f.ha f.x p.1, p.2)
  | .startExtract => .ok (.startExtract f.ha, rest)
  | .hasMore => .ok (.hasMore f.ha, rest)
  | .extractChunk => .ok (.extractChunk f.ha f.w, rest)
  | .startAdd => .ok (.startAdd f.ha, rest)
  | .addChunk => .ok (.addChunk f.ha f.w f.x, rest)
  | .addFrom => .ok (.addFrom f.ha f.hb f.x, rest)
  | .drop => .ok (.drop f.ha f.w, rest)
  | .align => .ok (.align f.ha, rest)
  | .truncateCopy => .ok (.truncateCopy f.ha f.x, rest)
  | .fillCrc => .ok (.fillCrc f.ha f.hb f.w f.x, rest)
  | .start => .ok (.start f.ha, rest)
  | .length => .ok (.length f.ha, rest)
  | .bitLength => .ok (.bitLength f.ha, rest)
  | .sentBits => .ok (.sentBits f.ha, rest)
  | .getField => .ok (.getField f.ha f.hb, rest)
  | .setField => .ok (.setField f.ha f.hb f.x, rest)
  | .hdrEncode => .ok (.hdrEncode f.ha, rest)
  | .hdrDecode => .ok (.hdrDecode f.ha, rest)

/-- The command at the front of a byte string and the bytes after it (R60 to R65, R67). -/
def decode (bytes : List Byte) : Except DecodeError (Instr × List Byte) :=
  match splitWord bytes with
  | none => .error .incomplete
  | some (f, rest) =>
    match opcodeOf f.op with
    | none => .error (.illegalOpcode f.op)
    | some o => decodeBody f rest o

/-- The opcode of a command (R63). -/
def Instr.opcode : Instr → Opcode
  | .crc8Init => .crc8Init
  | .crc8Update _ _ => .crc8Update
  | .crc8UpdateV _ _ _ => .crc8UpdateV
  | .crc8Finish _ => .crc8Finish
  | .crc8Block _ _ => .crc8Block
  | .crc16Init => .crc16Init
  | .crc16Update _ _ => .crc16Update
  | .crc16UpdateV _ _ _ => .crc16UpdateV
  | .crc16Finish _ => .crc16Finish
  | .crc16Block _ _ => .crc16Block
  | .allocate _ => .allocate
  | .wrap _ _ => .wrap
  | .duplicate _ => .duplicate
  | .release _ => .release
  | .grow _ _ => .grow
  | .attach _ _ _ => .attach
  | .startSend _ => .startSend
  | .appendByte _ _ => .appendByte
  | .appendBytes _ _ _ => .appendBytes
  | .startExtract _ => .startExtract
  | .hasMore _ => .hasMore
  | .extractChunk _ _ => .extractChunk
  | .startAdd _ => .startAdd
  | .addChunk _ _ _ => .addChunk
  | .addFrom _ _ _ => .addFrom
  | .drop _ _ => .drop
  | .align _ => .align
  | .truncateCopy _ _ => .truncateCopy
  | .fillCrc _ _ _ _ => .fillCrc
  | .start _ => .start
  | .length _ => .length
  | .bitLength _ => .bitLength
  | .sentBits _ => .sentBits
  | .getField _ _ => .getField
  | .setField _ _ _ => .setField
  | .hdrEncode _ => .hdrEncode
  | .hdrDecode _ => .hdrDecode

/-- The fields of a command's word; a field the command does not use is 0, as the assembler writes it (R61). -/
def Instr.fields (i : Instr) : Fields :=
  let op := BitVec.ofNat 8 i.opcode.code
  match i with
  | .crc8Init => ⟨op, 0, 0, 0, 0, 0⟩
  | .crc8Update x y => ⟨op, 0, 0, 0, x, y⟩
  | .crc8UpdateV w x y => ⟨op, 0, 0, w, x, y⟩
  | .crc8Finish y => ⟨op, 0, 0, 0, 0, y⟩
  | .crc8Block x _ => ⟨op, 0, 0, 0, x, 0⟩
  | .crc16Init => ⟨op, 0, 0, 0, 0, 0⟩
  | .crc16Update x y => ⟨op, 0, 0, 0, x, y⟩
  | .crc16UpdateV w x y => ⟨op, 0, 0, w, x, y⟩
  | .crc16Finish y => ⟨op, 0, 0, 0, 0, y⟩
  | .crc16Block x _ => ⟨op, 0, 0, 0, x, 0⟩
  | .allocate x => ⟨op, 0, 0, 0, x, 0⟩
  | .wrap x y => ⟨op, 0, 0, 0, x, y⟩
  | .duplicate ha => ⟨op, ha, 0, 0, 0, 0⟩
  | .release ha => ⟨op, ha, 0, 0, 0, 0⟩
  | .grow ha x => ⟨op, ha, 0, 0, x, 0⟩
  | .attach ha x y => ⟨op, ha, 0, 0, x, y⟩
  | .startSend ha => ⟨op, ha, 0, 0, 0, 0⟩
  | .appendByte ha x => ⟨op, ha, 0, 0, x, 0⟩
  | .appendBytes ha x _ => ⟨op, ha, 0, 0, x, 0⟩
  | .startExtract ha => ⟨op, ha, 0, 0, 0, 0⟩
  | .hasMore ha => ⟨op, ha, 0, 0, 0, 0⟩
  | .extractChunk ha w => ⟨op, ha, 0, w, 0, 0⟩
  | .startAdd ha => ⟨op, ha, 0, 0, 0, 0⟩
  | .addChunk ha w x => ⟨op, ha, 0, w, x, 0⟩
  | .addFrom ha hb x => ⟨op, ha, hb, 0, x, 0⟩
  | .drop ha w => ⟨op, ha, 0, w, 0, 0⟩
  | .align ha => ⟨op, ha, 0, 0, 0, 0⟩
  | .truncateCopy ha x => ⟨op, ha, 0, 0, x, 0⟩
  | .fillCrc ha hb w x => ⟨op, ha, hb, w, x, 0⟩
  | .start ha => ⟨op, ha, 0, 0, 0, 0⟩
  | .length ha => ⟨op, ha, 0, 0, 0, 0⟩
  | .bitLength ha => ⟨op, ha, 0, 0, 0, 0⟩
  | .sentBits ha => ⟨op, ha, 0, 0, 0, 0⟩
  | .getField ha hb => ⟨op, ha, hb, 0, 0, 0⟩
  | .setField ha hb x => ⟨op, ha, hb, 0, x, 0⟩
  | .hdrEncode ha => ⟨op, ha, 0, 0, 0, 0⟩
  | .hdrDecode ha => ⟨op, ha, 0, 0, 0, 0⟩

/-- The twelve bytes of a command word, most significant first (R60, R67). -/
def fieldBytes (f : Fields) : List Byte := f.op :: f.ha :: f.hb :: f.w :: (wordBytes f.x ++ wordBytes f.y)

/-- The bytes of a command on the command port: its word, then its data bytes (R65, R67). -/
def encode (i : Instr) : List Byte := fieldBytes i.fields ++ i.data

/-- The twelve bytes of the number `C[95:0]`, as spec/opcode_table.json numbers its bits (R60; log 16). -/
def tableWordBytes (c : Nat) : List Byte :=
  (List.range 12).map fun k => BitVec.ofNat 8 (c / 256 ^ (11 - k))

/-- The bytes of the command whose low `nbits` table bits are those of `w` and whose every other bit, the data bytes
included, is 0 (R65; log 16): as many zero data bytes as the command takes. -/
def tableBytes (nbits w : Nat) : List Byte :=
  let word := tableWordBytes (w % 2 ^ nbits)
  match splitWord word with
  | none => word
  | some (f, _) =>
    match opcodeOf f.op with
    | some .crc8Block | some .crc16Block | some .appendBytes => word ++ List.replicate (dataCount f.x) 0
    | _ => word

/-- The command the decoder reads from a row of the opcode table whose bits are `w`. -/
def decodeTableWord (nbits w : Nat) : Option Instr :=
  match decode (tableBytes nbits w) with
  | .ok (i, _) => some i
  | .error _ => none

end Sys2Proof
end

