-- ==== Sys2Proof/Machine/HostPort.lean ====
section
/-! DEFINITION. The host's side: the bytes at the front of the inbox, HostRead and HostWrite (20_memory.md R52),
writes of host memory (70_reset_and_hazards.md R234), and reset (R230). -/

namespace Sys2Proof.Machine

/-- The run of command bytes at the front of the inbox (30_encoding.md R67). -/
def leadingBytes : List HostEvent → List Byte
  | .byte b :: rest => b :: leadingBytes rest
  | _ => []

/-- The first access after the command bytes at the front of the inbox, and the events after it. -/
def firstAccess : List HostEvent → Option (HostAccess × List HostEvent)
  | [] => none
  | .byte _ :: rest => firstAccess rest
  | .access a :: rest => some (a, rest)

/-- The state after the block has taken the first `n` events. -/
def State.consume (s : State) (n : Nat) : State := { s with inbox := s.inbox.drop n }

/-- Does byte `k` of the buffer of handle `h` exist: a valid context with storage, `k` in 0..`cap`+2 (R41)? -/
def State.bufByteExists (s : State) (h k : Nat) : Bool :=
  match s.ctx? h with
  | some c => c.own ≠ .detached ∧ k < c.cap.toNat + Config.msgMaxHdr
  | none => false

/-- `HostRead(h, k)` (R52): the byte goes to the host; nothing else changes. -/
def hostBufRead (h : Byte) (k : Nat) (s : State) : Host.Outcome State Fault Refusal :=
  if s.bufByteExists h.toNat k then .next { s with hostData := some (s.bufRead h.toNat k) }
  else .fault .hostPortOutsideBuffer

/-- `HostWrite(h, k, v)` (R52): that byte only; no cursor moves. -/
def hostBufWrite (h : Byte) (k : Nat) (v : Byte) (s : State) : Host.Outcome State Fault Refusal :=
  if s.bufByteExists h.toNat k then .next (s.bufWrite h.toNat k v)
  else .fault .hostPortOutsideBuffer

/-- The host writes a byte of its own memory (R234). -/
def hostMemWrite (a : BitVec 32) (v : Byte) (s : State) : Host.Outcome State Fault Refusal :=
  .next (s.locWrite (.host a.toNat) v)

/-- A reset (R230): contexts and owned buffers are lost, host memory and the parameters stay. Draws already made are
not made again (log 12). -/
def hostReset (s : State) : Host.Outcome State Fault Refusal :=
  .next { s with ctxs := List.replicate s.ctxs.length Ctx.blank, resp := none, hostData := none }

/-- The host's access `a` when the bytes `sent` of a command that is not all there yet stand before it in the inbox and
`rest` after it. The command has not begun, so the access stands between two commands (20_memory.md R48, R52): it takes
effect now, and the bytes sent stay for their command (log 5). A reset loses them (log 12). -/
def hostAccess (sent : List Byte) (a : HostAccess) (rest : List HostEvent) (s : State) :
    Host.Outcome State Fault Refusal :=
  match a with
  | .bufRead h k => hostBufRead h k { s with inbox := sent.map HostEvent.byte ++ rest }
  | .bufWrite h k v => hostBufWrite h k v { s with inbox := sent.map HostEvent.byte ++ rest }
  | .memWrite a v => hostMemWrite a v { s with inbox := sent.map HostEvent.byte ++ rest }
  | .reset => hostReset { s with inbox := rest }

end Sys2Proof.Machine
end

