-- ==== Sys2Proof/Machine/Step.lean ====
section
/-! DEFINITION. One step: the block takes the whole command whose bytes stand at the front of the inbox, or the host's
next access where no whole command stands there, or waits (10_state.md R10, R12; log 3, log 4, log 5). -/

namespace Sys2Proof.Machine

/-- One step of the machine. -/
def step (s : State) : Host.Outcome State Fault Refusal :=
  match decode (leadingBytes s.inbox) with
  | .ok (i, _) => exec i (s.consume i.size)
  | .error (.illegalOpcode _) => illegalCommand (s.consume 12)
  | .error .incomplete =>
    match firstAccess s.inbox with
    | some (a, rest) => hostAccess (leadingBytes s.inbox) a rest s
    | none => .next s

/-- `s` with the command whose table bits are `w` (every other bit 0) sent on the command port, ahead of whatever
else the host has sent: the next step takes exactly it. -/
def State.withFetchWord (s : State) (nbits w : Nat) : State :=
  { s with inbox := (tableBytes nbits w).map HostEvent.byte ++ s.inbox }

end Sys2Proof.Machine
end

