-- ==== Sys2Proof/Safety.lean ====
section
/-! DEFINITION. What claims say: the invariant of the machine (10_state.md R13, R14, R15, R21), and what a command
leaves unchanged. -/

namespace Sys2Proof.Machine

/-- The storage half of the invariants of a valid context: `cap`, `base` and the cells of the owned buffer agree with
the ownership tag (10_state.md R13, R15; 20_memory.md R41, R47). -/
abbrev Ctx.storageWf (c : Ctx) : Prop :=
  Memory.wf c.store ∧
  (c.own = .detached → c.cap = 0 ∧ c.store = []) ∧
  (c.own ≠ .detached → 1 ≤ c.cap.toNat ∧ c.cap.toNat ≤ Config.capMax ∧ c.wc ≤ c.lim) ∧
  (c.own = .owned → ∀ x ∈ c.store, x.1 < c.cap.toNat + Config.msgMaxHdr) ∧
  (c.own = .borrowed →
    c.store = [] ∧ Config.msgMaxHdr ≤ c.base.toNat ∧ c.base.toNat + c.cap.toNat ≤ Config.hostSpace) ∧
  (c.own ≠ .borrowed → c.base = 0)

/-- The invariants of a valid context on a block with `n` contexts: the cursors in order, the fields in their legal
ranges (10_state.md R13, R14), and the storage. -/
abbrev Ctx.wf (n : Nat) (c : Ctx) : Prop :=
  c.dataOff.toNat = Config.msgMaxHdr ∧
  c.hdrLen.toNat ≤ c.dataOff.toNat ∧
  c.ps ≤ c.rc ∧ c.rc ≤ c.wc ∧
  addressInRange c.src.toInt ∧ addressInRange c.dst.toInt ∧
  (c.next.toNat < n ∨ c.next = Config.noHandle) ∧
  c.storageWf

/-- The invariant every step keeps: 1 to 255 contexts, every valid one well formed (R11, R14), the pool not
exceeded (R21), host memory in its canonical form and inside its address space (20_memory.md R40). -/
abbrev State.Inv (s : State) : Prop :=
  1 ≤ s.ctxs.length ∧ s.ctxs.length ≤ 255 ∧
  (∀ c ∈ s.ctxs, c.valid = true → c.wf s.ctxs.length) ∧
  s.poolHolds s.poolUsed = true ∧
  Memory.wf s.host ∧ ∀ x ∈ s.host, x.1 < Config.hostSpace

/-- Everything outside the contexts and the response is the same: host memory, the parameters, the host's side and
the draw counter. -/
abbrev sameOutside (s t : State) : Prop :=
  t.host = s.host ∧ t.params = s.params ∧ t.inbox = s.inbox ∧ t.hostData = s.hostData ∧ t.fresh = s.fresh

/-- Every slot but that of handle `h` is the same, and there are as many. -/
abbrev sameOtherSlots (s t : State) (h : Nat) : Prop :=
  t.ctxs.length = s.ctxs.length ∧ ∀ j, j ≠ h → t.ctxs[j]? = s.ctxs[j]?

/-- Every byte, of host memory and of every buffer, reads as before, but for the bytes `lo` to `hi - 1` of `BUF[h]`. -/
abbrev sameBytesBut (s t : State) (h lo hi : Nat) : Prop :=
  ∀ l : Loc, (∀ k, lo ≤ k → k < hi → l ≠ s.bufLoc h k) → t.locRead l = s.locRead l

/-! ### Answers -/

/-- `s` after a command that fails with `st` (00_scope.md R8, 60_exceptions.md R214). -/
abbrev raised (s : State) (st : Status) : State := { s with resp := some ⟨st, 0⟩ }

/-- `s` after a command that answers OK with `v` and changes nothing else (R8). -/
abbrev answered (s : State) (v : Word) : State := { s with resp := some ⟨.ok, v⟩ }

/-! ### Making room (41_msg_lifecycle.md R101, R102; 10_state.md R21) -/

/-- A context as `init_ctx` leaves it, field by field (R101); the last two fields are the model's own. -/
abbrev newCtx : Ctx :=
  { valid := true, src := 0, dst := 0, code := 0, dataOff := 3, hdrLen := 0, dataEnd := 3, dataEndOff := 0,
    dataPos := 3, dataPosOff := 0, result := .working, next := 0xFF, own := .detached, cap := 0, base := 0,
    store := [], bufId := 0 }

/-- `h` is the lowest-numbered context with `valid` = 0 (R101). -/
abbrev lowestFree (s : State) (h : Nat) : Prop :=
  (∃ c, s.ctxs[h]? = some c ∧ c.valid = false) ∧ ∀ j c, j < h → s.ctxs[j]? = some c → c.valid = true

/-- `n` bytes in use do not exceed `POOL_BYTES` (R21). -/
abbrev poolAllows (s : State) (n : Nat) : Prop := ∀ limit, s.params.poolBytes = some limit → n ≤ limit

/-- The least capacity that holds the content and `n` more bits (R102). -/
abbrev neededCap (c : Ctx) (n : Nat) : Nat := ceil8 (c.wc + n - c.ps)

/-- There is room for `n` more bits, or the buffer is owned and can grow (R102). -/
abbrev roomFor (s : State) (c : Ctx) (n : Nat) : Prop :=
  c.wc + n ≤ c.lim ∨
  (c.own = .owned ∧ neededCap c n ≤ 65532 ∧ poolAllows s (s.poolUsed - c.cap.toNat + neededCap c n))

/-- The status when there is no room (R102): the pool is asked last. -/
def roomStatus (c : Ctx) (n : Nat) : Status :=
  if c.own = .owned ∧ neededCap c n ≤ 65532 then .outOfMemory else .cursorOverflow

/-- The capacity after making room (R102). -/
def capAfter (c : Ctx) (n : Nat) : Nat := if c.wc + n ≤ c.lim then c.cap.toNat else neededCap c n

/-- What an append of `n` bits to context `c` of handle `h` does to that context and to memory (20_memory.md R46,
41_msg_lifecycle.md R102): the write cursor advances by `n`, `cap` is as `capAfter` says, no other field changes; bit
`i` of the appended bits is `bit i`; every other bit of the buffer, every other byte of memory, the parameters and
the host's side are as before. -/
abbrev appended (s t : State) (h : Nat) (c : Ctx) (n : Nat) (bit : Nat → Bool) : Prop :=
  (∃ d, t.ctxs[h]? = some d ∧ d.wc = c.wc + n ∧ d.cap.toNat = capAfter c n ∧ (c.own ≠ .owned → d.store = c.store) ∧
    d = { c with cap := d.cap, dataEnd := d.dataEnd, dataEndOff := d.dataEndOff, store := d.store }) ∧
  (∀ i, i < n → t.bufBit h (c.wc + i) = bit i) ∧
  (∀ q, q < c.wc ∨ c.wc + n ≤ q → t.bufBit h q = s.bufBit h q) ∧
  sameBytesBut s t h (c.wc / 8) (ceil8 (c.wc + n)) ∧
  (c.own ≠ .borrowed → t.host = s.host) ∧
  t.ctxs.length = s.ctxs.length ∧ t.params = s.params ∧ t.inbox = s.inbox ∧ t.hostData = s.hostData

/-! ### Header rows (45_header_codec.md R191, R192) -/

/-- Is the address pair of a class whose destination, source is negative (R191)? The header bytes of the class. -/
def classLen (d s : Int) : Nat := if d < 0 then (if s < 0 then 1 else 2) else (if s < 0 then 2 else 3)

/-- The number of codes of the class (R191). -/
def classCodes (d s : Int) : Nat := if d < 0 then (if s < 0 then 4 else 32) else (if s < 0 then 32 else 256)

/-- The header bytes of a triple, byte by byte as the table of R192 gives them. -/
def headerRow (d s : Int) (c : Nat) : List Nat :=
  if d < 0 then
    if s < 0 then [128 + 32 * (d + 4).toNat + 16 + 4 * (s + 4).toNat + c]
    else [128 + 32 * (d + 4).toNat + s.toNat / 8, s.toNat % 8 * 32 + c]
  else
    if s < 0 then [d.toNat, 128 + 32 * (s + 4).toNat + c]
    else [d.toNat, s.toNat, c]

/-! ### CRC by single bits (40_crc_engine.md R84 corner case n = 1, R92) -/

/-- One bit into the CRC8 register. -/
def bitStep8 (poly c : BitVec 8) (b : Bool) : BitVec 8 := (c <<< 1) ^^^ (if c.getLsbD 7 ^^ b then poly else 0)

/-- One bit into the CRC16 register. -/
def bitStep16 (poly c : BitVec 16) (b : Bool) : BitVec 16 := (c <<< 1) ^^^ (if c.getLsbD 15 ^^ b then poly else 0)

/-- The low `n` bits of a number, most significant first (20_memory.md R44). -/
def bitsOf (v n : Nat) : List Bool := (List.range n).map fun i => v.testBit (n - 1 - i)

/-! ### Runs of commands -/

/-- The values `n` EXTRACT_CHUNK commands of width `w`, one after the other, answer, and the state after the last; none
unless every one of them answers OK (42_msg_send.md R126). -/
def extractRun (ha w : Byte) : Nat → State → Option (List Word × State)
  | 0, s => some ([], s)
  | n + 1, s =>
    match exec (.extractChunk ha w) s with
    | .next t =>
      match t.resp, extractRun ha w n t with
      | some ⟨.ok, v⟩, some (vs, u) => some (v :: vs, u)
      | _, _ => none
    | _ => none

/-- The state after adding chunks of width `w` one after the other; none unless every ADD_CHUNK answers OK
(43_msg_receive.md R159). -/
def addRun (ha w : Byte) : List Word → State → Option State
  | [], s => some s
  | x :: xs, s =>
    match exec (.addChunk ha w x) s with
    | .next t => if t.resp = some ⟨.ok, 0⟩ then addRun ha w xs t else none
    | _ => none

/-- Address `a` lies in the window of a BORROWED context that the command names (20_memory.md R43). -/
def inNamedWindow (s : State) (hs : List Byte) (a : Nat) : Prop :=
  ∃ h ∈ hs, ∃ c, s.ctx? h.toNat = some c ∧ c.own = .borrowed ∧
    c.base.toNat - 3 ≤ a ∧ a < c.base.toNat + c.cap.toNat

/-- The contexts a command names by handle (30_encoding.md R61, R63). -/
def handlesOf : Instr → List Byte
  | .duplicate ha | .release ha | .grow ha _ | .attach ha _ _ | .startSend ha | .appendByte ha _
  | .appendBytes ha _ _ | .startExtract ha | .hasMore ha | .extractChunk ha _ | .startAdd ha | .addChunk ha _ _
  | .drop ha _ | .align ha | .truncateCopy ha _ | .start ha | .length ha | .bitLength ha | .sentBits ha
  | .getField ha _ | .setField ha _ _ | .hdrEncode ha | .hdrDecode ha => [ha]
  | .addFrom ha hb _ => [ha, hb]
  | .crc8Init | .crc8Update _ _ | .crc8UpdateV _ _ _ | .crc8Finish _ | .crc8Block _ _ | .crc16Init
  | .crc16Update _ _ | .crc16UpdateV _ _ _ | .crc16Finish _ | .crc16Block _ _ | .allocate _ | .wrap _ _
  | .fillCrc _ _ _ _ => []

/-! ### The fields a command uses (30_encoding.md R61, R63) -/

/-- The operand fields of the command word, by name. -/
inductive FieldName where
  | ha | hb | w | x | y
deriving DecidableEq, Repr

/-- The value of a field. -/
def fieldValue (f : Fields) : FieldName → Nat
  | .ha => f.ha.toNat
  | .hb => f.hb.toNat
  | .w => f.w.toNat
  | .x => f.x.toNat
  | .y => f.y.toNat

/-- The column "uses" of R63, row by row. -/
def usedFields : Opcode → List FieldName
  | .crc8Init | .crc16Init => []
  | .crc8Update | .crc16Update => [.y, .x]
  | .crc8UpdateV | .crc16UpdateV => [.y, .x, .w]
  | .crc8Finish | .crc16Finish => [.y]
  | .crc8Block | .crc16Block => [.x]
  | .allocate => [.x]
  | .wrap => [.x, .y]
  | .duplicate | .release => [.ha]
  | .grow => [.ha, .x]
  | .attach => [.ha, .x, .y]
  | .startSend => [.ha]
  | .appendByte => [.ha, .x]
  | .appendBytes => [.ha, .x]
  | .startExtract | .hasMore => [.ha]
  | .extractChunk => [.ha, .w]
  | .startAdd => [.ha]
  | .addChunk => [.ha, .x, .w]
  | .addFrom => [.ha, .hb, .x]
  | .drop => [.ha, .w]
  | .align => [.ha]
  | .truncateCopy => [.ha, .x]
  | .fillCrc => [.ha, .w, .hb, .x]
  | .start | .length | .bitLength | .sentBits => [.ha]
  | .getField => [.ha, .hb]
  | .setField => [.ha, .hb, .x]
  | .hdrEncode | .hdrDecode => [.ha]

end Sys2Proof.Machine
end

