-- ==== Sys2Proof/Certificates/Slice0/Obligations.lean ====
section
/-! DEFINITION. The statements for the provers. `raised s st` is `s` after a command that fails with status `st`,
`answered s v` is `s` after one that answers OK with `v` and changes nothing else. -/

open Sys2Proof Sys2Proof.Machine

/-! ### CrcEngine (40_crc_engine.md) -/

/-- R82, R85, R87, R90: INIT answers 0 and FINISH is the identity on the checksum's width; no state is written. -/
def Obligations.CrcInitAndFinishAnswer : Prop :=
  ∀ (s : State) (y : Word),
    exec .crc8Init s = .next (answered s 0) ∧
    exec .crc16Init s = .next (answered s 0) ∧
    exec (.crc8Finish y) s = .next (answered s (BitVec.ofNat 32 (y.toNat % 256))) ∧
    exec (.crc16Finish y) s = .next (answered s (BitVec.ofNat 32 (y.toNat % 65536)))

/-- R83, R88: `update` is one lookup in the table of the machine's polynomial; bits of the operands above their
widths are ignored; no state is written. -/
def Obligations.CrcUpdateLooksUpTheTable : Prop :=
  ∀ (s : State) (x y : Word),
    exec (.crc8Update x y) s =
      .next (answered s ((table8 s.params.poly8 (BitVec.ofNat 8 x.toNat ^^^ BitVec.ofNat 8 y.toNat)).setWidth 32)) ∧
    exec (.crc16Update x y) s =
      .next (answered s ((table16 s.params.poly16 (BitVec.ofNat 8 x.toNat ^^^ BitVec.ofNat 8 (y.toNat / 256)) ^^^
        BitVec.ofNat 16 (y.toNat * 256)).setWidth 32))

/-- R81: each table is the one its polynomial generates, entry 0 is 0, entry 1 is the polynomial, and the table is
linear; for every polynomial. -/
def Obligations.CrcTablesAreThePolynomialsTables : Prop :=
  (∀ (p : BitVec 8) (i j : Byte),
    table8 p i = (fun c : BitVec 8 => if c.getLsbD 7 then (c <<< 1) ^^^ p else c <<< 1)^[8] i ∧
    table8 p 0 = 0 ∧ table8 p 1 = p ∧ table8 p (i ^^^ j) = table8 p i ^^^ table8 p j) ∧
  (∀ (p : BitVec 16) (i j : Byte),
    table16 p i = (fun c : BitVec 16 => if c.getLsbD 15 then (c <<< 1) ^^^ p else c <<< 1)^[8] (i.setWidth 16 <<< 8) ∧
    table16 p 0 = 0 ∧ table16 p 1 = p ∧ table16 p (i ^^^ j) = table16 p i ^^^ table16 p j)

/-- R84, R89, R81, R94: the UPDATE_V commands with a width in 1..16 feed the low `w` bits of `x`, most significant
first, one by one into the checksum; any other width is refused; no state is written. -/
def Obligations.CrcUpdateVFeedsTheBits : Prop :=
  ∀ (s : State) (w : Byte) (x y : Word),
    (1 ≤ w.toNat ∧ w.toNat ≤ 16 →
      exec (.crc8UpdateV w x y) s = .next (answered s
        (((bitsOf x.toNat w.toNat).foldl (bitStep8 s.params.poly8) (BitVec.ofNat 8 y.toNat)).setWidth 32)) ∧
      exec (.crc16UpdateV w x y) s = .next (answered s
        (((bitsOf x.toNat w.toNat).foldl (bitStep16 s.params.poly16) (BitVec.ofNat 16 y.toNat)).setWidth 32))) ∧
    (¬ (1 ≤ w.toNat ∧ w.toNat ≤ 16) →
      exec (.crc8UpdateV w x y) s = .next (raised s .badOperand) ∧
      exec (.crc16UpdateV w x y) s = .next (raised s .badOperand))

/-- R92, law 1: `update_v` of 8 bits is `update`, for the engine's two instances. -/
def Obligations.UpdateVOfEightBitsIsUpdate : Prop :=
  (∀ (p c : BitVec 8) (b : Byte), crc8Bits p c b.toNat 8 = crc8Step p c b) ∧
  (∀ (p c : BitVec 16) (b : Byte), crc16Bits p c b.toNat 8 = crc16Step p c b)

/-- R92, law 2: feeding `m` bits and then `n` bits is feeding the `m + n` bits at once, while there are at most 16,
for every polynomial and both instances. -/
def Obligations.UpdateVComposes : Prop :=
  ∀ m n u v : Nat, 1 ≤ m → 1 ≤ n → m + n ≤ 16 → u < 2 ^ m → v < 2 ^ n →
    (∀ p c : BitVec 8, crc8Bits p (crc8Bits p c u m) v n = crc8Bits p c (u * 2 ^ n + v) (m + n)) ∧
    (∀ p c : BitVec 16, crc16Bits p (crc16Bits p c u m) v n = crc16Bits p c (u * 2 ^ n + v) (m + n))

/-- R86, R91: the BLOCK commands fold `update` over the data bytes from 0; a count above 65535 is refused; no state is
written. -/
def Obligations.CrcBlockFoldsUpdate : Prop :=
  ∀ (s : State) (x : Word) (data : List Byte),
    (x.toNat ≤ 65535 → data.length = x.toNat →
      exec (.crc8Block x data) s = .next (answered s
        ((data.foldl (fun (c : BitVec 8) (b : Byte) => table8 s.params.poly8 (b ^^^ c)) 0).setWidth 32)) ∧
      exec (.crc16Block x data) s = .next (answered s
        ((data.foldl (fun (c : BitVec 16) (b : Byte) =>
          table16 s.params.poly16 (b ^^^ (c >>> 8).setWidth 8) ^^^ (c <<< 8)) 0).setWidth 32))) ∧
    (65535 < x.toNat →
      exec (.crc8Block x data) s = .next (raised s .badOperand) ∧
      exec (.crc16Block x data) s = .next (raised s .badOperand))

/-- The source's first testable property (95_test_vectors.md TP1, R92): cut the bits of a byte string into pieces of
widths 1..16 in any way; folding `update_v` over the pieces from 0 gives the checksum of the bytes. -/
def Obligations.CrcIsIndependentOfThePartition : Prop :=
  ∀ (data : List Byte) (pieces : List (Nat × Nat)),
    (∀ q ∈ pieces, 1 ≤ q.1 ∧ q.1 ≤ 16 ∧ q.2 < 2 ^ q.1) →
    pieces.flatMap (fun q => bitsOf q.2 q.1) = data.flatMap (fun b => bitsOf b.toNat 8) →
    (∀ p, pieces.foldl (fun c q => crc8Bits p c q.2 q.1) 0 = crc8Fold p data) ∧
    (∀ p, pieces.foldl (fun c q => crc16Bits p c q.2 q.1) 0 = crc16Fold p data)

/-- 95_test_vectors.md section 3.3: a checksum fed after its own data, high byte first, gives zero. -/
def Obligations.CrcFedAfterItsDataIsZero : Prop :=
  ∀ data : List Byte,
    (∀ p, crc8Fold p (data ++ [crc8Fold p data]) = 0) ∧
    (∀ p, crc16Fold p (data ++ [(crc16Fold p data >>> 8).setWidth 8, (crc16Fold p data).setWidth 8]) = 0)

/-! ### Message lifecycle (41_msg_lifecycle.md) -/

/-- R103, R101: ALLOCATE takes the lowest free context, fresh and OWNED with the capacity asked for, and answers its
handle; or BadOperand or OutOfMemory. Nothing is said of the bytes of the new buffer (`store`, `bufId`, `fresh`): they
are unspecified. -/
def Obligations.AllocateMakesAnOwnedContext : Prop :=
  ∀ (s : State) (x : Word),
    (¬ (1 ≤ x.toNat ∧ x.toNat ≤ 65532) → exec (.allocate x) s = .next (raised s .badOperand)) ∧
    (1 ≤ x.toNat → x.toNat ≤ 65532 →
      ((∀ c ∈ s.ctxs, c.valid = true) → exec (.allocate x) s = .next (raised s .outOfMemory)) ∧
      ∀ h, lowestFree s h →
        (¬ poolAllows s (s.poolUsed + x.toNat + 3) → exec (.allocate x) s = .next (raised s .outOfMemory)) ∧
        (poolAllows s (s.poolUsed + x.toNat + 3) →
          ∃ d f, exec (.allocate x) s = .next { s with
              ctxs := s.ctxs.set h d, fresh := f, resp := some ⟨.ok, BitVec.ofNat 32 h⟩ } ∧
            d = { newCtx with own := .owned, cap := BitVec.ofNat 16 x.toNat, store := d.store, bufId := d.bufId }))

/-- R104, R101: WRAP takes the lowest free context, fresh and BORROWED, its content the `y` bytes from `x`; no byte of
memory changes; or BadOperand or OutOfMemory. -/
def Obligations.WrapBorrowsAWindow : Prop :=
  ∀ (s : State) (x y : Word),
    (¬ (1 ≤ y.toNat ∧ y.toNat ≤ 65532 ∧ 3 ≤ x.toNat ∧ x.toNat + y.toNat ≤ 2 ^ 32) →
      exec (.wrap x y) s = .next (raised s .badOperand)) ∧
    (1 ≤ y.toNat → y.toNat ≤ 65532 → 3 ≤ x.toNat → x.toNat + y.toNat ≤ 2 ^ 32 →
      ((∀ c ∈ s.ctxs, c.valid = true) → exec (.wrap x y) s = .next (raised s .outOfMemory)) ∧
      ∀ h, lowestFree s h →
        ∃ d, exec (.wrap x y) s = .next { s with
            ctxs := s.ctxs.set h d, resp := some ⟨.ok, BitVec.ofNat 32 h⟩ } ∧
          d = { newCtx with
            own := .borrowed, cap := BitVec.ofNat 16 y.toNat, base := x, dataEnd := BitVec.ofNat 16 (3 + y.toNat),
            store := d.store, bufId := d.bufId })

/-- R105: DUPLICATE copies the nine fields into the lowest free context, DETACHED, WORKING and without a `next`; the
source and every byte stay; or BadOperand or OutOfMemory. -/
def Obligations.DuplicateCopiesTheFieldsOnly : Prop :=
  ∀ (s : State) (ha : Byte),
    (s.ctx? ha.toNat = none → exec (.duplicate ha) s = .next (raised s .badOperand)) ∧
    ∀ c, s.ctx? ha.toNat = some c →
      ((∀ d ∈ s.ctxs, d.valid = true) → exec (.duplicate ha) s = .next (raised s .outOfMemory)) ∧
      ∀ h, lowestFree s h →
        ∃ d, exec (.duplicate ha) s = .next { s with
            ctxs := s.ctxs.set h d, resp := some ⟨.ok, BitVec.ofNat 32 h⟩ } ∧
          d = { newCtx with
            src := c.src, dst := c.dst, code := c.code, hdrLen := c.hdrLen, dataOff := c.dataOff,
            dataEnd := c.dataEnd, dataEndOff := c.dataEndOff, dataPos := c.dataPos, dataPosOff := c.dataPosOff,
            store := d.store, bufId := d.bufId }

/-- R106: ATTACH gives a DETACHED context a window its write cursor fits in; its cursors and fields stay, and no byte
changes; or BadOperand, InvalidBufferOwnership, CursorOverflow, in this order. -/
def Obligations.AttachGivesStorage : Prop :=
  ∀ (s : State) (ha : Byte) (x y : Word),
    (s.ctx? ha.toNat = none → exec (.attach ha x y) s = .next (raised s .badOperand)) ∧
    ∀ c, s.ctx? ha.toNat = some c →
      exec (.attach ha x y) s =
        if ¬ (1 ≤ y.toNat ∧ y.toNat ≤ 65532 ∧ 3 ≤ x.toNat ∧ x.toNat + y.toNat ≤ 2 ^ 32) then
          .next (raised s .badOperand)
        else if c.own ≠ .detached then .next (raised s .invalidBufferOwnership)
        else if 8 * (c.dataOff.toNat + y.toNat) < c.wc then .next (raised s .cursorOverflow)
        else .next { s with
          ctxs := s.ctxs.set ha.toNat { c with own := .borrowed, cap := BitVec.ofNat 16 y.toNat, base := x },
          resp := some ⟨.ok, 0⟩ }

/-- R107: RELEASE makes a valid context invalid and answers 1 exactly when an owned buffer was freed, whose bytes the
pool gets back; `next` is not followed, and host memory and every other context stay. That the released slot keeps its
other fields is the model's choice (log 11). -/
def Obligations.ReleaseFreesTheContext : Prop :=
  ∀ (s : State) (ha : Byte),
    (s.ctx? ha.toNat = none → exec (.release ha) s = .next (raised s .badOperand)) ∧
    ∀ c, s.ctx? ha.toNat = some c →
      ∃ t m, exec (.release ha) s = .next t ∧
        t = { s with
          ctxs := s.ctxs.set ha.toNat { c with valid := false, store := m },
          resp := some ⟨.ok, if c.own = .owned then 1 else 0⟩ } ∧
        t.poolUsed + (if c.own = .owned then c.cap.toNat + 3 else 0) = s.poolUsed

/-- R108: GROW of an OWNED context sets `cap` when it is larger and the pool holds it, keeps every byte, both cursors
and every other field, and never shrinks; or BadOperand, InvalidBufferOwnership, OutOfMemory, in this order. -/
def Obligations.GrowKeepsBytesAndCursors : Prop :=
  ∀ (s : State) (ha : Byte) (x : Word),
    (s.ctx? ha.toNat = none → exec (.grow ha x) s = .next (raised s .badOperand)) ∧
    ∀ c, s.ctx? ha.toNat = some c →
      (¬ (1 ≤ x.toNat ∧ x.toNat ≤ 65532) → exec (.grow ha x) s = .next (raised s .badOperand)) ∧
      (1 ≤ x.toNat → x.toNat ≤ 65532 →
        (c.own ≠ .owned → exec (.grow ha x) s = .next (raised s .invalidBufferOwnership)) ∧
        (c.own = .owned →
          (x.toNat ≤ c.cap.toNat → exec (.grow ha x) s = .next (answered s 0)) ∧
          (c.cap.toNat < x.toNat →
            (¬ poolAllows s (s.poolUsed - c.cap.toNat + x.toNat) →
              exec (.grow ha x) s = .next (raised s .outOfMemory)) ∧
            (poolAllows s (s.poolUsed - c.cap.toNat + x.toNat) →
              exec (.grow ha x) s = .next { s with
                ctxs := s.ctxs.set ha.toNat { c with cap := BitVec.ofNat 16 x.toNat },
                resp := some ⟨.ok, 0⟩ }))))

/-! ### Sender and extraction side (42_msg_send.md) -/

/-- R120, R140, R123: START_SEND and START_ADD put both cursors at the payload start, START_EXTRACT the read cursor;
each changes nothing else. -/
def Obligations.StartCommandsResetTheCursors : Prop :=
  ∀ (s : State) (ha : Byte),
    (s.ctx? ha.toNat = none → ∀ i ∈ [Instr.startSend ha, .startAdd ha, .startExtract ha],
      exec i s = .next (raised s .badOperand)) ∧
    ∀ c, s.ctx? ha.toNat = some c →
      (∀ i ∈ [Instr.startSend ha, .startAdd ha], exec i s = .next { s with
        ctxs := s.ctxs.set ha.toNat
          { c with dataEnd := c.dataOff, dataEndOff := 0, dataPos := c.dataOff, dataPosOff := 0 },
        resp := some ⟨.ok, 0⟩ }) ∧
      exec (.startExtract ha) s = .next { s with
        ctxs := s.ctxs.set ha.toNat { c with dataPos := c.dataOff, dataPosOff := 0 }, resp := some ⟨.ok, 0⟩ }

/-- R124: HAS_MORE answers 1 exactly when the read cursor precedes the write cursor, bit by bit, and changes nothing. -/
def Obligations.HasMoreComparesTheCursors : Prop :=
  ∀ (s : State) (ha : Byte),
    (s.ctx? ha.toNat = none → exec (.hasMore ha) s = .next (raised s .badOperand)) ∧
    ∀ c, s.ctx? ha.toNat = some c →
      exec (.hasMore ha) s = .next (answered s
        (if c.dataPos.toNat < c.dataEnd.toNat ∨ (c.dataPos = c.dataEnd ∧ c.dataPosOff.toNat < c.dataEndOff.toNat)
         then 1 else 0))

/-- R121: APPEND_BYTE appends the 8 bits of the byte at the write cursor, whatever its alignment, growing an owned
buffer as needed. -/
def Obligations.AppendByteAppendsEightBits : Prop :=
  ∀ (s : State) (ha : Byte) (x : Word) (c : Ctx), s.Inv → s.ctx? ha.toNat = some c → c.own ≠ .detached →
    roomFor s c 8 →
    ∃ t, exec (.appendByte ha x) s = .next t ∧ t.resp = some ⟨.ok, 0⟩ ∧ t.fresh = s.fresh ∧
      sameOtherSlots s t ha.toNat ∧ appended s t ha.toNat c 8 fun i => x.getLsbD (7 - i)

/-- R122: APPEND_BYTES appends all its bytes, first byte first, at whatever alignment the write cursor has. -/
def Obligations.AppendBytesAppendsEveryByte : Prop :=
  ∀ (s : State) (ha : Byte) (x : Word) (data : List Byte) (c : Ctx), s.Inv → s.ctx? ha.toNat = some c →
    c.own ≠ .detached → x.toNat ≤ 65535 → data.length = x.toNat → roomFor s c (8 * data.length) →
    ∃ t, exec (.appendBytes ha x data) s = .next t ∧ t.resp = some ⟨.ok, 0⟩ ∧ t.fresh = s.fresh ∧
      sameOtherSlots s t ha.toNat ∧
      appended s t ha.toNat c (8 * data.length) fun i => (data.getD (i / 8) 0).getLsbD (7 - i % 8)

/-- R102, R121, R122, R141: an append with a width or a count out of range is BadOperand; without room an append is
CursorOverflow for a borrowed buffer and beyond `CAP_MAX`, and OutOfMemory when the pool does not hold the growth. None
of them changes anything. -/
def Obligations.AppendsWithoutRoomAreRefused : Prop :=
  ∀ (s : State) (ha w : Byte) (x : Word) (data : List Byte),
    (65535 < x.toNat → exec (.appendBytes ha x data) s = .next (raised s .badOperand)) ∧
    (¬ (1 ≤ w.toNat ∧ w.toNat ≤ 16) → exec (.addChunk ha w x) s = .next (raised s .badOperand)) ∧
    ∀ c, s.ctx? ha.toNat = some c → c.own ≠ .detached →
      (¬ roomFor s c 8 → exec (.appendByte ha x) s = .next (raised s (roomStatus c 8))) ∧
      (x.toNat ≤ 65535 → data.length = x.toNat → ¬ roomFor s c (8 * data.length) →
        exec (.appendBytes ha x data) s = .next (raised s (roomStatus c (8 * data.length)))) ∧
      (1 ≤ w.toNat → w.toNat ≤ 16 → ¬ roomFor s c w.toNat →
        exec (.addChunk ha w x) s = .next (raised s (roomStatus c w.toNat)))

/-- R125: EXTRACT_CHUNK answers the next `w` content bits, the first one most significant; on a short final chunk the
missing low bits are 0 and the marker bit `1 << w` is set; the read cursor never passes the write cursor; with
nothing unread it is CursorOverflow. No byte changes. -/
def Obligations.ExtractChunkReadsTheNextBits : Prop :=
  ∀ (s : State) (ha w : Byte), s.Inv →
    (s.ctx? ha.toNat = none → exec (.extractChunk ha w) s = .next (raised s .badOperand)) ∧
    ∀ c, s.ctx? ha.toNat = some c →
      if ¬ (1 ≤ w.toNat ∧ w.toNat ≤ 16) then exec (.extractChunk ha w) s = .next (raised s .badOperand)
      else if c.own = .detached then exec (.extractChunk ha w) s = .next (raised s .invalidBufferOwnership)
      else if c.wc = c.rc then exec (.extractChunk ha w) s = .next (raised s .cursorOverflow)
      else ∃ d v,
        exec (.extractChunk ha w) s =
          .next { s with ctxs := s.ctxs.set ha.toNat d, resp := some ⟨.ok, v⟩ } ∧
        d = { c with dataPos := d.dataPos, dataPosOff := d.dataPosOff } ∧
        d.rc = min (c.rc + w.toNat) c.wc ∧
        (∀ i, i < w.toNat → v.getLsbD (w.toNat - 1 - i) =
          (decide (c.rc + i < c.wc) && s.bufBit ha.toNat (c.rc + i))) ∧
        v.getLsbD w.toNat = decide (c.wc - c.rc < w.toNat) ∧
        ∀ i, w.toNat < i → v.getLsbD i = false

/-- The source's second testable property (95_test_vectors.md TP2, R126): append bytes to an empty message, start the
extraction, extract as many 8-bit chunks: the bytes come back, no marker is set, and nothing is left. -/
def Obligations.AppendedBytesAreExtractedAgain : Prop :=
  ∀ (s t u : State) (ha : Byte) (x : Word) (data : List Byte) (c : Ctx), s.Inv → s.ctx? ha.toNat = some c →
    c.wc = c.ps → x.toNat ≤ 65535 → data.length = x.toNat →
    exec (.appendBytes ha x data) s = .next t → t.resp = some ⟨.ok, 0⟩ →
    exec (.startExtract ha) t = .next u →
    ∃ v, extractRun ha 8 data.length u = some (data.map fun b => b.setWidth 32, v) ∧
      exec (.hasMore ha) v = .next (answered v 0)

/-! ### Receiver and editing side (43_msg_receive.md) -/

/-- R141: ADD_CHUNK appends exactly the low `w` bits of the value, bit `w-1` first; a marker bit is dropped. -/
def Obligations.AddChunkAppendsItsBits : Prop :=
  ∀ (s : State) (ha w : Byte) (x : Word) (c : Ctx), s.Inv → s.ctx? ha.toNat = some c → c.own ≠ .detached →
    1 ≤ w.toNat → w.toNat ≤ 16 → roomFor s c w.toNat →
    ∃ t, exec (.addChunk ha w x) s = .next t ∧ t.resp = some ⟨.ok, 0⟩ ∧ t.fresh = s.fresh ∧
      sameOtherSlots s t ha.toNat ∧ appended s t ha.toNat c w.toNat fun i => x.getLsbD (w.toNat - 1 - i)

/-- The source's third testable property (95_test_vectors.md TP3, R159): extract the whole content of a message in chunks
of `w` bits and add them, markers and all, to a message after START_ADD: its first bits are the content, the bits the
last chunk was filled with are 0, and there are no others. -/
def Obligations.ReassembledChunksAreTheContent : Prop :=
  ∀ (s t v u : State) (ha hb w : Byte) (c : Ctx) (chunks : List Word), s.Inv → s.ctx? ha.toNat = some c →
    c.rc = c.ps → 1 ≤ w.toNat → w.toNat ≤ 16 →
    extractRun ha w ((c.wc - c.ps + (w.toNat - 1)) / w.toNat) s = some (chunks, t) →
    exec (.startAdd hb) t = .next v → v.resp = some ⟨.ok, 0⟩ → addRun hb w chunks v = some u →
    ∃ d, u.ctx? hb.toNat = some d ∧ d.wc - d.ps = chunks.length * w.toNat ∧
      (∀ i, i < c.wc - c.ps → u.bufBit hb.toNat (d.ps + i) = s.bufBit ha.toNat (c.ps + i)) ∧
      ∀ i, c.wc - c.ps ≤ i → i < chunks.length * w.toNat → u.bufBit hb.toNat (d.ps + i) = false

/-- R142: ADD_FROM appends the next `x` unread bits of the source to the destination and advances both cursors; when
the two windows share a byte the bits written are unspecified (R53) and nothing is said of them, everything else is
as the rule says. -/
def Obligations.AddFromCopiesUnreadBits : Prop :=
  ∀ (s : State) (ha hb : Byte) (x : Word) (c d : Ctx), s.Inv → s.ctx? ha.toNat = some c →
    s.ctx? hb.toNat = some d → ha ≠ hb → x.toNat ≤ 65535 → c.own ≠ .detached → d.own ≠ .detached →
    x.toNat ≤ d.wc - d.rc → roomFor s c x.toNat →
    ∃ t, exec (.addFrom ha hb x) s = .next t ∧ t.resp = some ⟨.ok, 0⟩ ∧
      (∃ bit, appended s t ha.toNat c x.toNat bit ∧
        ((∀ j k, j < c.cap.toNat + 3 → k < d.cap.toNat + 3 → s.bufLoc ha.toNat j ≠ s.bufLoc hb.toNat k) →
          ∀ i, i < x.toNat → bit i = s.bufBit hb.toNat (d.rc + i))) ∧
      (∃ e, t.ctxs[hb.toNat]? = some e ∧ e.rc = d.rc + x.toNat ∧
        e = { d with dataPos := e.dataPos, dataPosOff := e.dataPosOff }) ∧
      ∀ j, j ≠ ha.toNat → j ≠ hb.toNat → t.ctxs[j]? = s.ctxs[j]?

/-- R142: when ADD_FROM is refused, with which status, in the order of its checks; nothing changes. -/
def Obligations.AddFromIsRefusedInOrder : Prop :=
  ∀ (s : State) (ha hb : Byte) (x : Word),
    (s.ctx? ha.toNat = none ∨ s.ctx? hb.toNat = none ∨ ha = hb ∨ 65535 < x.toNat →
      exec (.addFrom ha hb x) s = .next (raised s .badOperand)) ∧
    ∀ c d, s.ctx? ha.toNat = some c → s.ctx? hb.toNat = some d → ha ≠ hb → x.toNat ≤ 65535 →
      (c.own = .detached ∨ d.own = .detached →
        exec (.addFrom ha hb x) s = .next (raised s .invalidBufferOwnership)) ∧
      (c.own ≠ .detached → d.own ≠ .detached →
        (d.wc - d.rc < x.toNat → exec (.addFrom ha hb x) s = .next (raised s .cursorOverflow)) ∧
        (x.toNat ≤ d.wc - d.rc → ¬ roomFor s c x.toNat →
          exec (.addFrom ha hb x) s = .next (raised s (roomStatus c x.toNat))))

/-- R143: DROP takes the write cursor back by `w` bits and answers them, the earliest most significant; no byte
changes; it refuses to pass the read cursor. -/
def Obligations.DropRemovesTheLastBits : Prop :=
  ∀ (s : State) (ha w : Byte), s.Inv →
    (s.ctx? ha.toNat = none → exec (.drop ha w) s = .next (raised s .badOperand)) ∧
    ∀ c, s.ctx? ha.toNat = some c →
      if ¬ (1 ≤ w.toNat ∧ w.toNat ≤ 16) then exec (.drop ha w) s = .next (raised s .badOperand)
      else if c.own = .detached then exec (.drop ha w) s = .next (raised s .invalidBufferOwnership)
      else if c.wc < c.rc + w.toNat then exec (.drop ha w) s = .next (raised s .cursorOverflow)
      else ∃ d v,
        exec (.drop ha w) s = .next { s with ctxs := s.ctxs.set ha.toNat d, resp := some ⟨.ok, v⟩ } ∧
        d = { c with dataEnd := d.dataEnd, dataEndOff := d.dataEndOff } ∧
        d.wc = c.wc - w.toNat ∧
        (∀ i, i < w.toNat → v.getLsbD (w.toNat - 1 - i) = s.bufBit ha.toNat (c.wc - w.toNat + i)) ∧
        ∀ i, w.toNat ≤ i → v.getLsbD i = false

/-- The source's fifth testable property (95_test_vectors.md TP5, R143): adding the bits a DROP answered back restores
both cursors and every byte. -/
def Obligations.AddChunkUndoesDrop : Prop :=
  ∀ (s t : State) (ha w : Byte) (c : Ctx) (v : Word), s.Inv → s.ctx? ha.toNat = some c →
    exec (.drop ha w) s = .next t → t.resp = some ⟨.ok, v⟩ →
    ∃ u d, exec (.addChunk ha w v) t = .next u ∧ u.resp = some ⟨.ok, 0⟩ ∧
      u.ctxs[ha.toNat]? = some d ∧ d = { c with store := d.store } ∧
      sameOtherSlots s u ha.toNat ∧ ∀ l, u.locRead l = s.locRead l

/-- R144: ALIGN drops the bits of the partial last byte from the content and changes nothing else; it is CursorOverflow
when the read cursor stands among them. -/
def Obligations.AlignDropsThePartialByte : Prop :=
  ∀ (s : State) (ha : Byte),
    (s.ctx? ha.toNat = none → exec (.align ha) s = .next (raised s .badOperand)) ∧
    ∀ c, s.ctx? ha.toNat = some c →
      exec (.align ha) s =
        if 8 * c.dataEnd.toNat < c.rc then .next (raised s .cursorOverflow)
        else .next { s with ctxs := s.ctxs.set ha.toNat { c with dataEndOff := 0 }, resp := some ⟨.ok, 0⟩ }

/-- R145: TRUNCATE_COPY makes a new owned message of the first `x` content bits, the bits after them in the last byte
0, with the header fields and bytes of the original; the original and every other byte stay. -/
def Obligations.TruncateCopyCopiesThePrefix : Prop :=
  ∀ (s : State) (ha : Byte) (x : Word) (c : Ctx) (h : Nat), s.Inv → s.ctx? ha.toNat = some c →
    c.own ≠ .detached → x.toNat ≤ c.wc - c.ps → lowestFree s h →
    poolAllows s (s.poolUsed + max 1 (ceil8 x.toNat) + 3) →
    ∃ t m b, exec (.truncateCopy ha x) s = .next t ∧ t.resp = some ⟨.ok, BitVec.ofNat 32 h⟩ ∧
      t.ctxs = s.ctxs.set h { newCtx with
        src := c.src, dst := c.dst, code := c.code, hdrLen := c.hdrLen, own := .owned,
        cap := BitVec.ofNat 16 (max 1 (ceil8 x.toNat)),
        dataEnd := BitVec.ofNat 16 (3 + x.toNat / 8), dataEndOff := BitVec.ofNat 3 (x.toNat % 8),
        store := m, bufId := b } ∧
      (∀ i, i < x.toNat → t.bufBit h (24 + i) = s.bufBit ha.toNat (c.ps + i)) ∧
      (∀ i, x.toNat ≤ i → i < 8 * ceil8 x.toNat → t.bufBit h (24 + i) = false) ∧
      (∀ k, k < c.hdrLen.toNat →
        t.bufRead h (3 - c.hdrLen.toNat + k) = s.bufRead ha.toNat (c.dataOff.toNat - c.hdrLen.toNat + k)) ∧
      t.host = s.host ∧ t.params = s.params ∧ t.inbox = s.inbox ∧ t.hostData = s.hostData

/-- R145: when TRUNCATE_COPY is refused, with which status, in the order of its checks; nothing changes. -/
def Obligations.TruncateCopyIsRefusedInOrder : Prop :=
  ∀ (s : State) (ha : Byte) (x : Word),
    (s.ctx? ha.toNat = none → exec (.truncateCopy ha x) s = .next (raised s .badOperand)) ∧
    ∀ c, s.ctx? ha.toNat = some c →
      (c.own = .detached → exec (.truncateCopy ha x) s = .next (raised s .invalidBufferOwnership)) ∧
      (c.own ≠ .detached →
        (c.wc - c.ps < x.toNat → exec (.truncateCopy ha x) s = .next (raised s .cursorOverflow)) ∧
        (x.toNat ≤ c.wc - c.ps →
          ((∀ d ∈ s.ctxs, d.valid = true) → exec (.truncateCopy ha x) s = .next (raised s .outOfMemory)) ∧
          (¬ poolAllows s (s.poolUsed + max 1 (ceil8 x.toNat) + 3) →
            exec (.truncateCopy ha x) s = .next (raised s .outOfMemory))))

/-- R158: every command with opcode 0x36 answers IllegalCommand, whatever its fields, and changes nothing. -/
def Obligations.FillCrcIsIllegal : Prop :=
  ∀ (s : State) (ha hb w : Byte) (x : Word), exec (.fillCrc ha hb w x) s = .next (raised s .illegalCommand)

/-! ### Accessors and fields (44_msg_access.md) -/

/-- R170 to R173: the four accessors answer the byte index of the payload, the bytes of content with a partial byte
counted, the bits of content, and the bits extracted; nothing changes. -/
def Obligations.AccessorsAnswerTheCursors : Prop :=
  ∀ (s : State) (ha : Byte), s.Inv →
    (s.ctx? ha.toNat = none → ∀ i ∈ [Instr.start ha, Instr.length ha, Instr.bitLength ha, Instr.sentBits ha],
      exec i s = .next (raised s .badOperand)) ∧
    ∀ c, s.ctx? ha.toNat = some c →
      exec (.start ha) s = .next (answered s 3) ∧
      exec (.length ha) s = .next (answered s (BitVec.ofNat 32
        (c.dataEnd.toNat - c.dataOff.toNat + if 0 < c.dataEndOff.toNat then 1 else 0))) ∧
      exec (.bitLength ha) s = .next (answered s (BitVec.ofNat 32
        (8 * (c.dataEnd.toNat - c.dataOff.toNat) + c.dataEndOff.toNat))) ∧
      exec (.sentBits ha) s = .next (answered s (BitVec.ofNat 32
        (8 * (c.dataPos.toNat - c.dataOff.toNat) + c.dataPosOff.toNat)))

/-- R174: GET_FIELD answers each of the fifteen fields, the signed ones sign-extended, `data_max` as `cap` of an owned
buffer and 0 otherwise, `base` as 0 unless borrowed; nothing changes. -/
def Obligations.GetFieldAnswersEveryField : Prop :=
  ∀ (s : State) (ha hb : Byte),
    (s.ctx? ha.toNat = none → exec (.getField ha hb) s = .next (raised s .badOperand)) ∧
    ∀ c, s.ctx? ha.toNat = some c →
      (14 < hb.toNat → exec (.getField ha hb) s = .next (raised s .badOperand)) ∧
      (hb = 0 → exec (.getField ha hb) s = .next (answered s (BitVec.ofInt 32 c.src.toInt))) ∧
      (hb = 1 → exec (.getField ha hb) s = .next (answered s (BitVec.ofInt 32 c.dst.toInt))) ∧
      (hb = 2 → exec (.getField ha hb) s = .next (answered s (BitVec.ofNat 32 c.code.toNat))) ∧
      (hb = 3 → exec (.getField ha hb) s =
        .next (answered s (BitVec.ofNat 32 (if c.own = .owned then c.cap.toNat else 0)))) ∧
      (hb = 4 → exec (.getField ha hb) s = .next (answered s (BitVec.ofNat 32 c.dataOff.toNat))) ∧
      (hb = 5 → exec (.getField ha hb) s = .next (answered s (BitVec.ofNat 32 c.hdrLen.toNat))) ∧
      (hb = 6 → exec (.getField ha hb) s = .next (answered s (BitVec.ofNat 32 c.dataEnd.toNat))) ∧
      (hb = 7 → exec (.getField ha hb) s = .next (answered s (BitVec.ofNat 32 c.dataEndOff.toNat))) ∧
      (hb = 8 → exec (.getField ha hb) s = .next (answered s (BitVec.ofNat 32 c.dataPos.toNat))) ∧
      (hb = 9 → exec (.getField ha hb) s = .next (answered s (BitVec.ofNat 32 c.dataPosOff.toNat))) ∧
      (hb = 10 → exec (.getField ha hb) s = .next (answered s (match c.result with
        | .working => 0 | .free => 1 | .success => 2 | .missing => 3 | .error => 4 | .fatal => 5))) ∧
      (hb = 11 → exec (.getField ha hb) s = .next (answered s (BitVec.ofNat 32 c.next.toNat))) ∧
      (hb = 12 → exec (.getField ha hb) s = .next (answered s (match c.own with
        | .detached => 0 | .owned => 1 | .borrowed => 2))) ∧
      (hb = 13 → exec (.getField ha hb) s = .next (answered s (BitVec.ofNat 32 c.cap.toNat))) ∧
      (hb = 14 → exec (.getField ha hb) s = .next (answered s (if c.own = .borrowed then c.base else 0)))

/-- R175: SET_FIELD writes the one field when the value is in its range, `result` from any value to any other, and
nothing else; a read-only or absent field, or a value out of range, is BadOperand and changes nothing. -/
def Obligations.SetFieldWritesTheOneField : Prop :=
  ∀ (s : State) (ha : Byte) (x : Word), s.Inv →
    (s.ctx? ha.toNat = none → ∀ hb, exec (.setField ha hb x) s = .next (raised s .badOperand)) ∧
    (∀ hb : Byte, hb ∉ ([0, 1, 2, 5, 10, 11] : List Byte) ∨
        (hb.toNat < 2 ∧ (x.toInt < -4 ∨ 127 < x.toInt)) ∨
        (hb = 2 ∧ 255 < x.toNat) ∨ (hb = 5 ∧ 3 < x.toNat) ∨ (hb = 10 ∧ 5 < x.toNat) ∨
        (hb = 11 ∧ s.ctxs.length ≤ x.toNat ∧ x.toNat ≠ 255) →
      exec (.setField ha hb x) s = .next (raised s .badOperand)) ∧
    ∀ c, s.ctx? ha.toNat = some c →
      (-4 ≤ x.toInt → x.toInt ≤ 127 → ∃ v : Byte, v.toInt = x.toInt ∧
        exec (.setField ha 0 x) s =
          .next { s with ctxs := s.ctxs.set ha.toNat { c with src := v }, resp := some ⟨.ok, 0⟩ } ∧
        exec (.setField ha 1 x) s =
          .next { s with ctxs := s.ctxs.set ha.toNat { c with dst := v }, resp := some ⟨.ok, 0⟩ }) ∧
      (x.toNat ≤ 255 → exec (.setField ha 2 x) s =
        .next { s with ctxs := s.ctxs.set ha.toNat { c with code := x.setWidth 8 }, resp := some ⟨.ok, 0⟩ }) ∧
      (x.toNat ≤ 3 → exec (.setField ha 5 x) s =
        .next { s with ctxs := s.ctxs.set ha.toNat { c with hdrLen := x.setWidth 2 }, resp := some ⟨.ok, 0⟩ }) ∧
      (∀ r : ResultTag, x.toNat = r.code → exec (.setField ha 10 x) s =
        .next { s with ctxs := s.ctxs.set ha.toNat { c with result := r }, resp := some ⟨.ok, 0⟩ }) ∧
      (x.toNat < s.ctxs.length ∨ x.toNat = 255 → exec (.setField ha 11 x) s =
        .next { s with ctxs := s.ctxs.set ha.toNat { c with next := x.setWidth 8 }, resp := some ⟨.ok, 0⟩ })

/-! ### HeaderCodec (45_header_codec.md) -/

/-- R193, R192: HDR_ENCODE writes the header row of the triple directly before the payload, records and answers its
length, and changes no other byte or field; a code beyond its class is BadOperand. -/
def Obligations.HdrEncodeWritesTheHeaderRow : Prop :=
  ∀ (s : State) (ha : Byte), s.Inv →
    (s.ctx? ha.toNat = none → exec (.hdrEncode ha) s = .next (raised s .badOperand)) ∧
    ∀ c, s.ctx? ha.toNat = some c →
      (c.own = .detached → exec (.hdrEncode ha) s = .next (raised s .invalidBufferOwnership)) ∧
      (c.own ≠ .detached → classCodes c.dst.toInt c.src.toInt ≤ c.code.toNat →
        exec (.hdrEncode ha) s = .next (raised s .badOperand)) ∧
      (c.own ≠ .detached → c.code.toNat < classCodes c.dst.toInt c.src.toInt →
        ∃ t d, exec (.hdrEncode ha) s = .next t ∧
          t.resp = some ⟨.ok, BitVec.ofNat 32 (classLen c.dst.toInt c.src.toInt)⟩ ∧
          t.ctxs[ha.toNat]? = some d ∧ d.hdrLen.toNat = classLen c.dst.toInt c.src.toInt ∧
          d = { c with hdrLen := d.hdrLen, store := d.store } ∧
          (List.range (classLen c.dst.toInt c.src.toInt)).map
            (fun k => (t.bufRead ha.toNat (3 - classLen c.dst.toInt c.src.toInt + k)).toNat) =
            headerRow c.dst.toInt c.src.toInt c.code.toNat ∧
          sameBytesBut s t ha.toNat (3 - classLen c.dst.toInt c.src.toInt) 3 ∧
          sameOtherSlots s t ha.toNat ∧ (c.own ≠ .borrowed → t.host = s.host) ∧
          t.params = s.params ∧ t.inbox = s.inbox ∧ t.hostData = s.hostData ∧ t.fresh = s.fresh)

/-- R194, R192: HDR_DECODE of header bytes that are the row of a legal triple, with `hdr_len` its length, sets the
three fields to the triple and changes nothing else. -/
def Obligations.HdrDecodeReadsTheHeaderRow : Prop :=
  ∀ (s : State) (ha dst src code : Byte) (c : Ctx), s.Inv → s.ctx? ha.toNat = some c → c.own ≠ .detached →
    addressInRange dst.toInt → addressInRange src.toInt → code.toNat < classCodes dst.toInt src.toInt →
    c.hdrLen.toNat = classLen dst.toInt src.toInt →
    (List.range c.hdrLen.toNat).map (fun k => (s.bufRead ha.toNat (3 - c.hdrLen.toNat + k)).toNat) =
      headerRow dst.toInt src.toInt code.toNat →
    exec (.hdrDecode ha) s = .next { s with
      ctxs := s.ctxs.set ha.toNat { c with dst := dst, src := src, code := code },
      resp := some ⟨.ok, BitVec.ofNat 32 c.hdrLen.toNat⟩ }

/-- R194, R195: HDR_DECODE on a context with storage answers OK exactly when `hdr_len` is at least 1 and the flag bits
of the header bytes announce that length; otherwise it is CorruptHeader and changes nothing. -/
def Obligations.HdrDecodeChecksTheAnnouncedLength : Prop :=
  ∀ (s : State) (ha : Byte), s.Inv →
    (s.ctx? ha.toNat = none → exec (.hdrDecode ha) s = .next (raised s .badOperand)) ∧
    ∀ c, s.ctx? ha.toNat = some c →
      (c.own = .detached → exec (.hdrDecode ha) s = .next (raised s .invalidBufferOwnership)) ∧
      (c.own ≠ .detached →
        ((1 ≤ c.hdrLen.toNat ∧
            announcedLen (s.bufRead ha.toNat (3 - c.hdrLen.toNat)) (s.bufRead ha.toNat (3 - c.hdrLen.toNat + 1)) =
              c.hdrLen.toNat) →
          ∃ t, exec (.hdrDecode ha) s = .next t ∧ t.resp = some ⟨.ok, BitVec.ofNat 32 c.hdrLen.toNat⟩) ∧
        (¬ (1 ≤ c.hdrLen.toNat ∧
            announcedLen (s.bufRead ha.toNat (3 - c.hdrLen.toNat)) (s.bufRead ha.toNat (3 - c.hdrLen.toNat + 1)) =
              c.hdrLen.toNat) →
          exec (.hdrDecode ha) s = .next (raised s .corruptHeader)))

/-- R196: encode, then overwrite the three fields with anything, then decode: the triple comes back. The state decoded
in may differ in everything but the header bytes and `hdr_len`. -/
def Obligations.HeaderDecodeUndoesEncode : Prop :=
  ∀ (s t u : State) (ha : Byte) (c d e : Ctx) (len : Word), s.Inv → u.Inv → s.ctx? ha.toNat = some c →
    exec (.hdrEncode ha) s = .next t → t.resp = some ⟨.ok, len⟩ → t.ctx? ha.toNat = some d →
    u.ctx? ha.toNat = some e → e.own ≠ .detached → e.hdrLen = d.hdrLen →
    (∀ k, k < 3 → u.bufRead ha.toNat k = t.bufRead ha.toNat k) →
    exec (.hdrDecode ha) u = .next { u with
      ctxs := u.ctxs.set ha.toNat { e with dst := c.dst, src := c.src, code := c.code },
      resp := some ⟨.ok, len⟩ }

/-- R196, the converse: encode the fields a successful decode found: the same length, and every byte as it was. -/
def Obligations.HeaderEncodeUndoesDecode : Prop :=
  ∀ (s t : State) (ha : Byte) (len : Word), s.Inv → exec (.hdrDecode ha) s = .next t → t.resp = some ⟨.ok, len⟩ →
    ∃ u, exec (.hdrEncode ha) t = .next u ∧ u.resp = some ⟨.ok, len⟩ ∧ ∀ l, u.locRead l = t.locRead l

/-! ### Every command -/

/-- R214, R66, R215: a command that answers a non-OK status answers the value 0 and changes nothing else at all; the
next command does what it would have done had the failed one not been issued. -/
def Obligations.FailingCommandChangesNothing : Prop :=
  ∀ (i : Instr) (s t : State) (r : Response), exec i s = .next t → t.resp = some r → r.status ≠ .ok →
    t = raised s r.status ∧ ∀ j : Instr, exec j t = exec j s

/-- R66, R210: every command, whatever its operands and the state, ends in a next state with a response; none faults
or is refused. -/
def Obligations.EveryCommandAnswers : Prop :=
  ∀ (i : Instr) (s : State), ∃ t r, exec i s = .next t ∧ t.resp = some r

/-- R211, R100: a command that names a handle of no valid context answers BadOperand and changes nothing. -/
def Obligations.BadHandleIsBadOperand : Prop :=
  ∀ (i : Instr) (s : State) (h : Byte), h ∈ handlesOf i → s.ctx? h.toNat = none →
    exec i s = .next (raised s .badOperand)

/-- R100, R213, R237: on a DETACHED context every command that would touch buffer bytes, and GROW, is
InvalidBufferOwnership once its operand checks pass; ADD_FROM when either of its contexts is DETACHED. -/
def Obligations.DetachedContextHasNoBytes : Prop :=
  ∀ (s : State) (ha w : Byte) (x : Word) (data : List Byte) (c : Ctx), s.ctx? ha.toNat = some c →
    c.own = .detached →
    (∀ i ∈ [Instr.appendByte ha x, .truncateCopy ha x, .hdrEncode ha, .hdrDecode ha],
      exec i s = .next (raised s .invalidBufferOwnership)) ∧
    (x.toNat ≤ 65535 → exec (.appendBytes ha x data) s = .next (raised s .invalidBufferOwnership)) ∧
    (1 ≤ w.toNat → w.toNat ≤ 16 → ∀ i ∈ [Instr.extractChunk ha w, .addChunk ha w x, .drop ha w],
      exec i s = .next (raised s .invalidBufferOwnership)) ∧
    (1 ≤ x.toNat → x.toNat ≤ 65532 → exec (.grow ha x) s = .next (raised s .invalidBufferOwnership)) ∧
    ∀ (hb : Byte) (d : Ctx), s.ctx? hb.toNat = some d → ha ≠ hb → x.toNat ≤ 65535 →
      exec (.addFrom ha hb x) s = .next (raised s .invalidBufferOwnership) ∧
      exec (.addFrom hb ha x) s = .next (raised s .invalidBufferOwnership)

/-- R11, R42: a command changes no valid context, its fields and its owned buffer, but those it names by handle. -/
def Obligations.OnlyNamedContextsChange : Prop :=
  ∀ (i : Instr) (s t : State) (j : Nat) (c : Ctx), exec i s = .next t → s.ctx? j = some c →
    (∀ h ∈ handlesOf i, h.toNat ≠ j) → t.ctxs[j]? = s.ctxs[j]?

/-- R43: the block never touches a host byte outside the window of a BORROWED context that the command names. It does
not write one: such a byte is unchanged. It does not read one: with any other contents there, the response, the contexts
and the bytes inside those windows come out the same. -/
def Obligations.HostMemoryIsTouchedInWindowsOnly : Prop :=
  ∀ (i : Instr) (s : State) (m : Memory), s.Inv →
    (∀ a, inNamedWindow s (handlesOf i) a → memGet m a = memGet s.host a) →
    ∃ t u, exec i s = .next t ∧ exec i { s with host := m } = .next u ∧
      (∀ a, ¬ inNamedWindow s (handlesOf i) a → memGet t.host a = memGet s.host a ∧ memGet u.host a = memGet m a) ∧
      (∀ a, inNamedWindow s (handlesOf i) a → memGet u.host a = memGet t.host a) ∧
      u.resp = t.resp ∧ u.ctxs = t.ctxs ∧ u.fresh = t.fresh

/-- R176 items 1 and 2, R17: no command but SET_FIELD writes `result` or `next` of a context; a context a command
creates is WORKING and linked to none. -/
def Obligations.ResultAndNextAreTheHosts : Prop :=
  ∀ (i : Instr) (s t : State) (j : Nat), exec i s = .next t → (∀ ha hb x, i ≠ .setField ha hb x) →
    (∀ c d, s.ctx? j = some c → t.ctxs[j]? = some d → d.result = c.result ∧ d.next = c.next) ∧
    (∀ d, s.ctx? j = none → t.ctx? j = some d → d.result = .working ∧ d.next = 0xFF)

/-- R19: the parameters, the tables among them, and the number of contexts are the same after every step. -/
def Obligations.ParametersNeverChange : Prop :=
  ∀ s t : State, step s = .next t → t.params = s.params ∧ t.ctxs.length = s.ctxs.length

/-! ### The machine: invariant, reset, the host's ports -/

/-- R14, R21, R101: the invariant `State.Inv` (cursors in order, fields in range, storage as the ownership says, the
pool not exceeded, canonical memories) is kept by every step, from any state that has it. -/
def Obligations.StepKeepsTheInvariant : Prop := ∀ s t : State, s.Inv → step s = .next t → t.Inv

/-- The state after reset has the invariant, for every legal number of contexts and all parameters (R230, R5; the
fields of an invalid context are the model's choice, log 10, and no clause rests on them). -/
def Obligations.ResetHasTheInvariant : Prop :=
  State.reset.Inv ∧ ∀ (n : Nat) (p : Params), 1 ≤ n → n ≤ 255 → (State.resetWith n p).Inv

/-- R230: after reset no handle is valid, the pool is unused, the first context created gets handle 0 and every command
that names a handle is BadOperand. -/
def Obligations.AfterResetNoContextExists : Prop :=
  ∀ (n : Nat) (p : Params), 1 ≤ n → n ≤ 255 →
    (∀ h, (State.resetWith n p).ctx? h = none) ∧
    (State.resetWith n p).poolUsed = 0 ∧
    lowestFree (State.resetWith n p) 0 ∧
    ∀ i h, h ∈ handlesOf i →
      exec i (State.resetWith n p) = .next (raised (State.resetWith n p) .badOperand)

/-- R230: a reset at any time, also after the first bytes of a command, loses every context and owned buffer; host memory
and the parameters stay. That the bytes of a half-sent command are lost and what the host sends afterwards stays is the
model's (log 12, log 3). -/
def Obligations.ResetEventLosesTheContexts : Prop :=
  ∀ (s : State) (sent : List Byte) (rest : List HostEvent), decode sent = .error .incomplete →
    s.inbox = sent.map HostEvent.byte ++ .access .reset :: rest →
    ∃ t, step s = .next t ∧ t.inbox = rest ∧ (∀ h, t.ctx? h = none) ∧ t.poolUsed = 0 ∧
      t.ctxs.length = s.ctxs.length ∧ t.host = s.host ∧ t.params = s.params ∧ t.resp = none ∧ t.hostData = none

/-- R52: HostRead answers the byte and changes nothing; HostWrite changes that byte and no other, and no field of any
context. An access that comes before all bytes of a command are sent comes before the command, whose bytes stay (the
port: log 3, log 5). -/
def Obligations.HostPortsReachOneByte : Prop :=
  ∀ (s : State) (h v : Byte) (k : Nat) (c : Ctx) (sent : List Byte) (rest : List HostEvent),
    s.ctx? h.toNat = some c → c.own ≠ .detached → k < c.cap.toNat + 3 → decode sent = .error .incomplete →
    (s.inbox = sent.map HostEvent.byte ++ .access (.bufRead h k) :: rest →
      step s = .next { s with inbox := sent.map HostEvent.byte ++ rest, hostData := some (s.bufRead h.toNat k) }) ∧
    (s.inbox = sent.map HostEvent.byte ++ .access (.bufWrite h k v) :: rest →
      ∃ t d, step s = .next t ∧ t.inbox = sent.map HostEvent.byte ++ rest ∧ t.bufRead h.toNat k = v ∧
        sameBytesBut s t h.toNat k (k + 1) ∧ sameOtherSlots s t h.toNat ∧
        t.ctxs[h.toNat]? = some d ∧ d = { c with store := d.store } ∧
        t.resp = s.resp ∧ t.hostData = s.hostData ∧ t.params = s.params ∧ t.fresh = s.fresh)

/-- When the bytes at the front of the inbox decode to a command, the step is that command's `exec` on the state whose
inbox has lost the bytes of the command (R60, R65, R67; the inbox is the model's, log 3). -/
def Obligations.StepRunsTheDecodedCommand : Prop :=
  ∀ (s : State) (i : Instr) (rest : List Byte), decode (leadingBytes s.inbox) = .ok (i, rest) →
    step s = exec i { s with inbox := s.inbox.drop i.size }

/-- R64: a command word whose `op` is not in the opcode map answers IllegalCommand; the twelve bytes of the word are
taken, no data bytes, and nothing else changes. -/
def Obligations.IllegalOpcodeIsAnswered : Prop :=
  ∀ (s : State) (word : List Byte) (rest : List HostEvent), word.length = 12 →
    (word.headD 0).toNat ∉ [0x00, 0x01, 0x02, 0x03, 0x04, 0x08, 0x09, 0x0A, 0x0B, 0x0C, 0x10, 0x11, 0x12, 0x13, 0x14,
      0x15, 0x20, 0x21, 0x22, 0x23, 0x24, 0x25, 0x30, 0x31, 0x32, 0x33, 0x34, 0x35, 0x36, 0x40, 0x41, 0x42, 0x43,
      0x44, 0x45, 0x50, 0x51] →
    s.inbox = word.map HostEvent.byte ++ rest →
    step s = .next { s with inbox := rest, resp := some ⟨.illegalCommand, 0⟩ }

/-! ### Encoding (30_encoding.md) -/

/-- Decoding an encoded well-formed command, with anything after it, gives the command and what is after it: no bit of
any operand is dropped (R60 to R67). -/
def Obligations.DecodeUndoesEncode : Prop :=
  ∀ (i : Instr) (rest : List Byte), i.wellFormed = true → decode (encode i ++ rest) = .ok (i, rest)

/-- R65: what the decoder answers is a well-formed command, and it takes exactly the bytes of that command from the
front, their first being the opcode. -/
def Obligations.DecodedCommandsAreWellFormed : Prop :=
  ∀ (bytes : List Byte) (i : Instr) (rest : List Byte), decode bytes = .ok (i, rest) →
    i.wellFormed = true ∧ i.size ≤ bytes.length ∧ rest = bytes.drop i.size ∧
    bytes.head? = some (BitVec.ofNat 8 i.opcode.code)

/-- R61, R63, U9: a field a command does not use is ignored: of every opcode, two command words that agree on `op` and on
the fields its row uses decode alike, whatever follows them; and what ten words decode to, whatever their other
fields. -/
def Obligations.UnusedFieldsAreIgnored : Prop :=
  (∀ (f g : Fields) (rest : List Byte), f.op = g.op →
    (∀ o, opcodeOf f.op = some o → ∀ n ∈ usedFields o, fieldValue f n = fieldValue g n) →
    decode (fieldBytes f ++ rest) = decode (fieldBytes g ++ rest)) ∧
  ∀ (ha hb w : Byte) (x y : Word) (rest : List Byte),
    decode (fieldBytes ⟨0x00, ha, hb, w, x, y⟩ ++ rest) = .ok (.crc8Init, rest) ∧
    decode (fieldBytes ⟨0x09, ha, hb, w, x, y⟩ ++ rest) = .ok (.crc16Update x y, rest) ∧
    decode (fieldBytes ⟨0x0A, ha, hb, w, x, y⟩ ++ rest) = .ok (.crc16UpdateV w x y, rest) ∧
    decode (fieldBytes ⟨0x10, ha, hb, w, x, y⟩ ++ rest) = .ok (.allocate x, rest) ∧
    decode (fieldBytes ⟨0x13, ha, hb, w, x, y⟩ ++ rest) = .ok (.release ha, rest) ∧
    decode (fieldBytes ⟨0x25, ha, hb, w, x, y⟩ ++ rest) = .ok (.extractChunk ha w, rest) ∧
    decode (fieldBytes ⟨0x31, ha, hb, w, x, y⟩ ++ rest) = .ok (.addChunk ha w x, rest) ∧
    decode (fieldBytes ⟨0x32, ha, hb, w, x, y⟩ ++ rest) = .ok (.addFrom ha hb x, rest) ∧
    decode (fieldBytes ⟨0x44, ha, hb, w, x, y⟩ ++ rest) = .ok (.getField ha hb, rest) ∧
    decode (fieldBytes ⟨0x50, ha, hb, w, x, y⟩ ++ rest) = .ok (.hdrEncode ha, rest)

/-- Words written out from R60, R63 and R67 decode to the commands they stand for (95_test_vectors.md section 3.11). -/
def Obligations.WrittenOutWordsDecode : Prop :=
  decode [0x31, 0x01, 0x00, 0x03, 0x00, 0x00, 0x00, 0x05, 0x00, 0x00, 0x00, 0x00] = .ok (.addChunk 1 3 5, []) ∧
  decode [0x45, 0x00, 0x01, 0x00, 0xFF, 0xFF, 0xFF, 0xFC, 0x00, 0x00, 0x00, 0x00] =
    .ok (.setField 0 1 0xFFFFFFFC, []) ∧
  decode [0x22, 0x00, 0x00, 0x00, 0x00, 0x00, 0x00, 0x02, 0x00, 0x00, 0x00, 0x00, 0xA5, 0x3C, 0x50] =
    .ok (.appendBytes 0 2 [0xA5, 0x3C], [0x50]) ∧
  decode [0x11, 0x00, 0x00, 0x00, 0x00, 0x00, 0x01, 0x00, 0x00, 0x00, 0x00, 0x04] = .ok (.wrap 0x100 4, []) ∧
  decode [0x36, 0x00, 0x08, 0x03, 0x00, 0x00, 0x00, 0xED, 0x00, 0x00, 0x00, 0x00] = .ok (.fillCrc 0 8 3 0xED, []) ∧
  decode [0x05, 0x00, 0x00, 0x00, 0x00, 0x00, 0x00, 0x00, 0x00, 0x00, 0x00, 0x00] = .error (.illegalOpcode 0x05) ∧
  decode [0x50, 0x00, 0x00, 0x00, 0x00, 0x00, 0x00, 0x00, 0x00, 0x00, 0x00] = .error .incomplete

/-- R66, R67, R210: the response word has the status code on top, zeros below it, and the value in its low half; the
status codes are 0 to 6. -/
def Obligations.ResponseWordLayout : Prop :=
  (∀ r : Response, r.word.extractLsb' 56 8 = BitVec.ofNat 8 r.status.code ∧ r.word.extractLsb' 32 24 = 0 ∧
    r.word.extractLsb' 0 32 = r.value) ∧
  Status.ok.code = 0 ∧ Status.outOfMemory.code = 1 ∧ Status.invalidBufferOwnership.code = 2 ∧
  Status.cursorOverflow.code = 3 ∧ Status.corruptHeader.code = 4 ∧ Status.badOperand.code = 5 ∧
  Status.illegalCommand.code = 6
end

