-- ==== Sys2Proof/Laws/Memory.lean ====
section
/-! SUPPORT. Read after write, and the canonical form kept by every memory operation (20_memory.md R40 to R43). -/

namespace Sys2Proof.Machine

/-- A read after a write of the same byte gives the value written. -/
theorem memGet_memSet_same (m : Memory) (a : Nat) (v : Byte) : memGet (memSet m a v) a = some v := by
  induction m with
  | nil => simp [memSet, memGet]
  | cons x m ih =>
    obtain ⟨b, w⟩ := x
    simp only [memSet]
    split
    · simp [memGet]
    · split
      · simp [memGet]
      · rename_i h1 h2
        simp [memGet, h2, ih]

/-- A write leaves every other byte alone. -/
theorem memGet_memSet_other (m : Memory) {a b : Nat} (v : Byte) (h : b ≠ a) :
    memGet (memSet m a v) b = memGet m b := by
  induction m with
  | nil => simp [memSet, memGet, h]
  | cons x m ih =>
    obtain ⟨c, w⟩ := x
    simp only [memSet]
    split
    · simp [memGet, h]
    · split
      · rename_i h1 h2
        subst h2
        simp [memGet, h]
      · simp [memGet, ih]

/-- The cells after a write are the cell written and cells that were there. -/
theorem mem_memSet {m : Memory} {a : Nat} {v : Byte} {x : Host.Cell} (h : x ∈ memSet m a v) :
    x = (a, v) ∨ x ∈ m := by
  induction m with
  | nil => simpa [memSet] using h
  | cons y m ih =>
    obtain ⟨c, w⟩ := y
    simp only [memSet] at h
    split at h
    · simpa using h
    · split at h
      · rcases List.mem_cons.1 h with h | h
        · exact .inl h
        · exact .inr (List.mem_cons_of_mem _ h)
      · rcases List.mem_cons.1 h with h | h
        · exact .inr (by simp [h])
        · exact (ih h).imp id (List.mem_cons_of_mem _)

/-- A write keeps the canonical form. -/
theorem memSet_wf {m : Memory} (a : Nat) (v : Byte) (h : Memory.wf m) : Memory.wf (memSet m a v) := by
  induction m with
  | nil => simp [memSet]
  | cons y m ih =>
    obtain ⟨c, w⟩ := y
    have h' := List.pairwise_cons.1 h
    simp only [memSet]
    split
    · rename_i hlt
      refine List.pairwise_cons.2 ⟨fun x hx => ?_, h⟩
      rcases List.mem_cons.1 hx with rfl | hx
      · exact hlt
      · exact lt_trans hlt (h'.1 x hx)
    · split
      · rename_i heq
        subst heq
        exact List.pairwise_cons.2 ⟨h'.1, h'.2⟩
      · rename_i h1 h2
        refine List.pairwise_cons.2 ⟨fun x hx => ?_, ih h'.2⟩
        rcases mem_memSet hx with rfl | hx
        · exact lt_of_le_of_ne (Nat.le_of_not_lt h1) (Ne.symm h2)
        · exact h'.1 x hx

end Sys2Proof.Machine
end

