-- ==== Sys2Proof/Laws/State.lean ====
section
/-! SUPPORT. What each update of the state and of a context leaves in each field: one lemma per field per update, so
that no later proof unfolds a record update. -/

namespace Sys2Proof.Machine

/-! ### `State.mapCtx` -/

@[simp] theorem mapCtx_host (s : State) (h : Nat) (f : Ctx → Ctx) : (s.mapCtx h f).host = s.host := rfl
@[simp] theorem mapCtx_params (s : State) (h : Nat) (f : Ctx → Ctx) : (s.mapCtx h f).params = s.params := rfl
@[simp] theorem mapCtx_inbox (s : State) (h : Nat) (f : Ctx → Ctx) : (s.mapCtx h f).inbox = s.inbox := rfl
@[simp] theorem mapCtx_resp (s : State) (h : Nat) (f : Ctx → Ctx) : (s.mapCtx h f).resp = s.resp := rfl
@[simp] theorem mapCtx_hostData (s : State) (h : Nat) (f : Ctx → Ctx) : (s.mapCtx h f).hostData = s.hostData := rfl
@[simp] theorem mapCtx_fresh (s : State) (h : Nat) (f : Ctx → Ctx) : (s.mapCtx h f).fresh = s.fresh := rfl
@[simp] theorem mapCtx_ctxs (s : State) (h : Nat) (f : Ctx → Ctx) : (s.mapCtx h f).ctxs = s.ctxs.modify h f := rfl

/-! ### `State.putCtx` -/

@[simp] theorem putCtx_host (s : State) (h : Nat) (c : Ctx) : (s.putCtx h c).host = s.host := rfl
@[simp] theorem putCtx_params (s : State) (h : Nat) (c : Ctx) : (s.putCtx h c).params = s.params := rfl
@[simp] theorem putCtx_inbox (s : State) (h : Nat) (c : Ctx) : (s.putCtx h c).inbox = s.inbox := rfl
@[simp] theorem putCtx_resp (s : State) (h : Nat) (c : Ctx) : (s.putCtx h c).resp = s.resp := rfl
@[simp] theorem putCtx_hostData (s : State) (h : Nat) (c : Ctx) : (s.putCtx h c).hostData = s.hostData := rfl
@[simp] theorem putCtx_fresh (s : State) (h : Nat) (c : Ctx) : (s.putCtx h c).fresh = s.fresh := rfl
@[simp] theorem putCtx_ctxs (s : State) (h : Nat) (c : Ctx) : (s.putCtx h c).ctxs = s.ctxs.set h c := rfl

/-! ### `State.createOwned` -/

@[simp] theorem createOwned_host (s : State) (h n : Nat) (c : Ctx) : (s.createOwned h n c).host = s.host := rfl
@[simp] theorem createOwned_params (s : State) (h n : Nat) (c : Ctx) : (s.createOwned h n c).params = s.params := rfl
@[simp] theorem createOwned_inbox (s : State) (h n : Nat) (c : Ctx) : (s.createOwned h n c).inbox = s.inbox := rfl
@[simp] theorem createOwned_resp (s : State) (h n : Nat) (c : Ctx) : (s.createOwned h n c).resp = s.resp := rfl
@[simp] theorem createOwned_hostData (s : State) (h n : Nat) (c : Ctx) :
    (s.createOwned h n c).hostData = s.hostData := rfl
@[simp] theorem createOwned_fresh (s : State) (h n : Nat) (c : Ctx) :
    (s.createOwned h n c).fresh = s.fresh + 1 := rfl
@[simp] theorem createOwned_ctxs (s : State) (h n : Nat) (c : Ctx) : (s.createOwned h n c).ctxs =
    s.ctxs.set h { c with own := .owned, cap := BitVec.ofNat 16 n, store := [], bufId := s.fresh } := rfl

/-! ### `State.consume` -/

@[simp] theorem consume_ctxs (s : State) (n : Nat) : (s.consume n).ctxs = s.ctxs := rfl
@[simp] theorem consume_host (s : State) (n : Nat) : (s.consume n).host = s.host := rfl
@[simp] theorem consume_params (s : State) (n : Nat) : (s.consume n).params = s.params := rfl
@[simp] theorem consume_inbox (s : State) (n : Nat) : (s.consume n).inbox = s.inbox.drop n := rfl
@[simp] theorem consume_resp (s : State) (n : Nat) : (s.consume n).resp = s.resp := rfl
@[simp] theorem consume_hostData (s : State) (n : Nat) : (s.consume n).hostData = s.hostData := rfl
@[simp] theorem consume_fresh (s : State) (n : Nat) : (s.consume n).fresh = s.fresh := rfl

/-! ### `State.locWrite`: only the contexts' stores and host memory change -/

@[simp] theorem locWrite_params (s : State) (l : Loc) (v : Byte) : (s.locWrite l v).params = s.params := by
  cases l <;> rfl
@[simp] theorem locWrite_inbox (s : State) (l : Loc) (v : Byte) : (s.locWrite l v).inbox = s.inbox := by
  cases l <;> rfl
@[simp] theorem locWrite_resp (s : State) (l : Loc) (v : Byte) : (s.locWrite l v).resp = s.resp := by
  cases l <;> rfl
@[simp] theorem locWrite_hostData (s : State) (l : Loc) (v : Byte) : (s.locWrite l v).hostData = s.hostData := by
  cases l <;> rfl
@[simp] theorem locWrite_fresh (s : State) (l : Loc) (v : Byte) : (s.locWrite l v).fresh = s.fresh := by
  cases l <;> rfl

/-! ### Cursor moves of a context -/

@[simp] theorem withWC_valid (c : Ctx) (p : Nat) : (c.withWC p).valid = c.valid := rfl
@[simp] theorem withWC_src (c : Ctx) (p : Nat) : (c.withWC p).src = c.src := rfl
@[simp] theorem withWC_dst (c : Ctx) (p : Nat) : (c.withWC p).dst = c.dst := rfl
@[simp] theorem withWC_code (c : Ctx) (p : Nat) : (c.withWC p).code = c.code := rfl
@[simp] theorem withWC_dataOff (c : Ctx) (p : Nat) : (c.withWC p).dataOff = c.dataOff := rfl
@[simp] theorem withWC_hdrLen (c : Ctx) (p : Nat) : (c.withWC p).hdrLen = c.hdrLen := rfl
@[simp] theorem withWC_result (c : Ctx) (p : Nat) : (c.withWC p).result = c.result := rfl
@[simp] theorem withWC_next (c : Ctx) (p : Nat) : (c.withWC p).next = c.next := rfl
@[simp] theorem withWC_own (c : Ctx) (p : Nat) : (c.withWC p).own = c.own := rfl
@[simp] theorem withWC_cap (c : Ctx) (p : Nat) : (c.withWC p).cap = c.cap := rfl
@[simp] theorem withWC_base (c : Ctx) (p : Nat) : (c.withWC p).base = c.base := rfl
@[simp] theorem withWC_store (c : Ctx) (p : Nat) : (c.withWC p).store = c.store := rfl
@[simp] theorem withWC_bufId (c : Ctx) (p : Nat) : (c.withWC p).bufId = c.bufId := rfl
@[simp] theorem withWC_ps (c : Ctx) (p : Nat) : (c.withWC p).ps = c.ps := rfl
@[simp] theorem withWC_rc (c : Ctx) (p : Nat) : (c.withWC p).rc = c.rc := rfl
@[simp] theorem withWC_lim (c : Ctx) (p : Nat) : (c.withWC p).lim = c.lim := rfl

@[simp] theorem withRC_valid (c : Ctx) (p : Nat) : (c.withRC p).valid = c.valid := rfl
@[simp] theorem withRC_src (c : Ctx) (p : Nat) : (c.withRC p).src = c.src := rfl
@[simp] theorem withRC_dst (c : Ctx) (p : Nat) : (c.withRC p).dst = c.dst := rfl
@[simp] theorem withRC_code (c : Ctx) (p : Nat) : (c.withRC p).code = c.code := rfl
@[simp] theorem withRC_dataOff (c : Ctx) (p : Nat) : (c.withRC p).dataOff = c.dataOff := rfl
@[simp] theorem withRC_hdrLen (c : Ctx) (p : Nat) : (c.withRC p).hdrLen = c.hdrLen := rfl
@[simp] theorem withRC_result (c : Ctx) (p : Nat) : (c.withRC p).result = c.result := rfl
@[simp] theorem withRC_next (c : Ctx) (p : Nat) : (c.withRC p).next = c.next := rfl
@[simp] theorem withRC_own (c : Ctx) (p : Nat) : (c.withRC p).own = c.own := rfl
@[simp] theorem withRC_cap (c : Ctx) (p : Nat) : (c.withRC p).cap = c.cap := rfl
@[simp] theorem withRC_base (c : Ctx) (p : Nat) : (c.withRC p).base = c.base := rfl
@[simp] theorem withRC_store (c : Ctx) (p : Nat) : (c.withRC p).store = c.store := rfl
@[simp] theorem withRC_bufId (c : Ctx) (p : Nat) : (c.withRC p).bufId = c.bufId := rfl
@[simp] theorem withRC_ps (c : Ctx) (p : Nat) : (c.withRC p).ps = c.ps := rfl
@[simp] theorem withRC_wc (c : Ctx) (p : Nat) : (c.withRC p).wc = c.wc := rfl
@[simp] theorem withRC_lim (c : Ctx) (p : Nat) : (c.withRC p).lim = c.lim := rfl

/-- A write cursor that fits 16 bits of bytes reads back (00_scope.md R7). -/
theorem withWC_wc (c : Ctx) (p : Nat) (hp : p < 524288) : (c.withWC p).wc = p := by
  simp only [Ctx.wc, Ctx.withWC, BitVec.toNat_ofNat]
  omega

/-- A read cursor that fits 16 bits of bytes reads back (R7). -/
theorem withRC_rc (c : Ctx) (p : Nat) (hp : p < 524288) : (c.withRC p).rc = p := by
  simp only [Ctx.rc, Ctx.withRC, BitVec.toNat_ofNat]
  omega

/-! ### Slots -/

theorem slot_of_getElem? {s : State} {h : Nat} {c : Ctx} (hc : s.ctxs[h]? = some c) : s.slot h = c := by
  simp [State.slot, List.getD, hc]

/-- What a valid context is (10_state.md R11). -/
theorem ctx?_eq_some {s : State} {h : Nat} {c : Ctx} :
    s.ctx? h = some c ↔ s.ctxs[h]? = some c ∧ c.valid = true := by
  simp [State.ctx?, Option.filter_eq_some_iff]

theorem slot_of_ctx? {s : State} {h : Nat} {c : Ctx} (hc : s.ctx? h = some c) : s.slot h = c :=
  slot_of_getElem? (ctx?_eq_some.1 hc).1

theorem mapCtx_slot_same {s : State} {h : Nat} (f : Ctx → Ctx) (hh : h < s.ctxs.length) :
    (s.mapCtx h f).slot h = f (s.slot h) := by
  simp [State.slot, List.getD, hh]

theorem mapCtx_slot_other {s : State} {h j : Nat} (f : Ctx → Ctx) (hj : j ≠ h) :
    (s.mapCtx h f).slot j = s.slot j := by
  simp [State.slot, List.getD, Ne.symm hj]

end Sys2Proof.Machine
end

