-- ==== Sys2Proof/Laws/Ops.lean ====
section
/-! SUPPORT. What each shared operation can do, said once: answering, checking, finding and making contexts, making
room, and reading and writing bytes and bits. -/

namespace Sys2Proof.Machine

/-! ### Answering and checking -/

@[simp] theorem complete_ok (s t : State) (v : Word) : complete s (.ok (t, v)) = respond t v := rfl
@[simp] theorem complete_error (s : State) (st : Status) : complete s (.error st) = raise s st := rfl

@[simp] theorem bind_ok {α β : Type} (a : α) (f : α → Except Status β) : (Except.ok a >>= f) = f a := rfl
@[simp] theorem bind_error {α β : Type} (st : Status) (f : α → Except Status β) :
    ((Except.error st : Except Status α) >>= f) = .error st := rfl

/-- A sequence of two steps succeeds exactly when both do. -/
theorem bind_eq_ok {α β : Type} {m : Except Status α} {f : α → Except Status β} {b : β} :
    (m >>= f) = .ok b ↔ ∃ a, m = .ok a ∧ f a = .ok b := by
  cases m <;> simp

/-- A sequence of two steps fails exactly when the first does, or the second after it. -/
theorem bind_eq_error {α β : Type} {m : Except Status α} {f : α → Except Status β} {st : Status} :
    (m >>= f) = .error st ↔ m = .error st ∨ ∃ a, m = .ok a ∧ f a = .error st := by
  cases m <;> simp

/-- Everything the end of a command can do (00_scope.md R8, 60_exceptions.md R214). -/
theorem complete_cases {s t : State} {r : Except Status (State × Word)} (h : complete s r = .next t) :
    (∃ u v, r = .ok (u, v) ∧ t = { u with resp := some ⟨.ok, v⟩ }) ∨
    (∃ st, r = .error st ∧ t = { s with resp := some ⟨st, 0⟩ }) := by
  match r with
  | .ok (u, v) => exact .inl ⟨u, v, rfl, by simpa [respond] using h.symm⟩
  | .error st => exact .inr ⟨st, rfl, by simpa [raise] using h.symm⟩

/-- A command always answers. -/
theorem complete_next (s : State) (r : Except Status (State × Word)) :
    ∃ t q, complete s r = .next t ∧ t.resp = some q := by
  match r with
  | .ok (u, v) => exact ⟨_, _, rfl, rfl⟩
  | .error st => exact ⟨_, _, rfl, rfl⟩

@[simp] theorem need_eq_ok {p : Prop} [Decidable p] {st : Status} {u : Unit} : need p st = .ok u ↔ p := by
  unfold need; split <;> simp_all

@[simp] theorem need_eq_error {p : Prop} [Decidable p] {st st' : Status} :
    need p st = .error st' ↔ ¬ p ∧ st = st' := by
  unfold need; split <;> simp_all

theorem need_pos {p : Prop} [Decidable p] {st : Status} (h : p) : need p st = .ok () := if_pos h
theorem need_neg {p : Prop} [Decidable p] {st : Status} (h : ¬ p) : need p st = .error st := if_neg h

@[simp] theorem needCtx_eq_ok {s : State} {h : Byte} {c : Ctx} : needCtx s h = .ok c ↔ s.ctx? h.toNat = some c := by
  unfold needCtx; split <;> simp_all

@[simp] theorem needCtx_eq_error {s : State} {h : Byte} {st : Status} :
    needCtx s h = .error st ↔ s.ctx? h.toNat = none ∧ st = .badOperand := by
  unfold needCtx
  cases s.ctx? h.toNat <;> simp [eq_comm]

/-- The handle a create command takes: the lowest-numbered invalid context (41_msg_lifecycle.md R101). -/
theorem newContext_eq_ok {s : State} {h : Nat} : newContext s = .ok h ↔
    (∃ c, s.ctxs[h]? = some c ∧ c.valid = false) ∧ ∀ j c, j < h → s.ctxs[j]? = some c → c.valid = true := by
  have key : newContext s = .ok h ↔ s.ctxs.findIdx? (fun c => !c.valid) = some h := by
    unfold newContext
    cases s.ctxs.findIdx? (fun c => !c.valid) <;> simp
  rw [key, List.findIdx?_eq_some_iff_getElem]
  constructor
  · rintro ⟨hh, hv, hlt⟩
    refine ⟨⟨_, List.getElem?_eq_getElem hh, by simpa using hv⟩, fun j c hj hc => ?_⟩
    have := hlt j hj
    rw [List.getElem?_eq_getElem (lt_trans hj hh)] at hc
    simp_all
  · rintro ⟨⟨c, hc, hv⟩, hlt⟩
    obtain ⟨hh, rfl⟩ := List.getElem?_eq_some_iff.1 hc
    exact ⟨hh, by simpa using hv, fun j hj => by
      simpa using hlt j _ hj (List.getElem?_eq_getElem (lt_trans hj hh))⟩

/-- There is no free context exactly when every context is valid (R101). -/
theorem newContext_eq_error {s : State} {st : Status} : newContext s = .error st ↔
    (∀ c ∈ s.ctxs, c.valid = true) ∧ st = .outOfMemory := by
  have key : newContext s = .error st ↔ s.ctxs.findIdx? (fun c => !c.valid) = none ∧ st = .outOfMemory := by
    unfold newContext
    cases s.ctxs.findIdx? (fun c => !c.valid) <;> simp [eq_comm]
  rw [key, List.findIdx?_eq_none_iff]
  simp

/-- Everything `ensure_room` can do when it succeeds (R102): the room is there, or an owned buffer grows to exactly
the capacity needed. -/
theorem ensureRoom_eq_ok {s t : State} {h : Nat} {c : Ctx} {n : Nat} (hr : ensureRoom s h c n = .ok t) :
    (c.wc + n ≤ c.lim ∧ t = s) ∨
    (c.lim < c.wc + n ∧ c.own = .owned ∧ ceil8 (c.wc + n - c.ps) ≤ Config.capMax ∧
      s.poolHolds (s.poolUsed - c.cap.toNat + ceil8 (c.wc + n - c.ps)) = true ∧
      t = s.mapCtx h fun d => { d with cap := BitVec.ofNat 16 (ceil8 (c.wc + n - c.ps)) }) := by
  unfold ensureRoom at hr
  split at hr
  · exact .inl ⟨‹_›, by simpa using hr.symm⟩
  · split at hr
    · cases hr
    · split at hr
      · cases hr
      · split at hr
        · cases hr
        · refine .inr ⟨by omega, by simp_all, by omega, by simp_all, by simpa using hr.symm⟩

/-- `ensure_room` fails with CursorOverflow or OutOfMemory only (R102). -/
theorem ensureRoom_eq_error {s : State} {h : Nat} {c : Ctx} {n : Nat} {st : Status}
    (hr : ensureRoom s h c n = .error st) : st = .cursorOverflow ∨ st = .outOfMemory := by
  unfold ensureRoom at hr
  split at hr
  · cases hr
  · split at hr
    · exact .inl (by simpa using hr.symm)
    · split at hr
      · exact .inl (by simpa using hr.symm)
      · split at hr
        · exact .inr (by simpa using hr.symm)
        · cases hr

/-- An append makes room, writes, and advances the write cursor. -/
theorem appendBits_eq_ok {s t : State} {h : Nat} {c : Ctx} {n v : Nat} :
    appendBits s h c n v = .ok t ↔ ∃ s1, ensureRoom s h c n = .ok s1 ∧
      t = (s1.putBits h c.wc n v).mapCtx h fun d => d.withWC (c.wc + n) := by
  unfold appendBits
  rw [bind_eq_ok]
  simp [eq_comm]

/-! ### Bytes -/

theorem locWrite_slot (s : State) (l : Loc) (v : Byte) (j : Nat) :
    ∃ m, (s.locWrite l v).slot j = { s.slot j with store := m } := by
  cases l with
  | host a => exact ⟨(s.slot j).store, rfl⟩
  | own h k =>
    by_cases hj : j = h
    · subst hj
      by_cases hh : j < s.ctxs.length
      · exact ⟨_, mapCtx_slot_same _ hh⟩
      · refine ⟨(s.slot j).store, ?_⟩
        simp [State.locWrite, State.slot, List.getD, Nat.le_of_not_lt hh]
    · exact ⟨(s.slot j).store, mapCtx_slot_other _ hj⟩

@[simp] theorem locWrite_length (s : State) (l : Loc) (v : Byte) : (s.locWrite l v).ctxs.length = s.ctxs.length := by
  cases l <;> simp [State.locWrite]

/-- A write of a byte moves no buffer. -/
@[simp] theorem locWrite_bufLoc (s : State) (l : Loc) (v : Byte) (h k : Nat) :
    (s.locWrite l v).bufLoc h k = s.bufLoc h k := by
  obtain ⟨m, hm⟩ := locWrite_slot s l v h
  simp [State.bufLoc, hm]

/-- A place that exists: an owned byte needs a slot. -/
def Loc.inSlots (n : Nat) : Loc → Prop
  | .own h _ => h < n
  | .host _ => True

/-- A read after a write of the same place gives the value written. -/
theorem locRead_locWrite_same (s : State) (l : Loc) (v : Byte) (hl : l.inSlots s.ctxs.length) :
    (s.locWrite l v).locRead l = v := by
  cases l with
  | host a => simp [State.locWrite, State.locRead, memGet_memSet_same]
  | own h k =>
    simp [State.locWrite, State.locRead, mapCtx_slot_same _ (show h < s.ctxs.length from hl), memGet_memSet_same]

/-- A write leaves every other place alone. -/
theorem locRead_locWrite_other (s : State) {l l' : Loc} (v : Byte) (hne : l' ≠ l) :
    (s.locWrite l v).locRead l' = s.locRead l' := by
  cases l with
  | host a =>
    cases l' with
    | own h k => rfl
    | host b => simp [State.locWrite, State.locRead, memGet_memSet_other _ v (show b ≠ a by simpa using hne)]
  | own h k =>
    cases l' with
    | host b => rfl
    | own j i =>
      by_cases hj : j = h
      · subst hj
        have hi : i ≠ k := by simpa using hne
        by_cases hh : j < s.ctxs.length
        · simp [State.locWrite, State.locRead, mapCtx_slot_same _ hh, memGet_memSet_other _ v hi]
        · simp [State.locWrite, State.locRead, State.slot, List.getD, Nat.le_of_not_lt hh]
      · simp [State.locWrite, State.locRead, mapCtx_slot_other _ hj]

theorem bufLoc_inSlots (s : State) {h : Nat} (k : Nat) (hh : h < s.ctxs.length) :
    (s.bufLoc h k).inSlots s.ctxs.length := by
  unfold State.bufLoc; split <;> simp [Loc.inSlots, hh]

/-- Two bytes of one buffer lie at different places. -/
theorem bufLoc_injective (s : State) (h : Nat) {j k : Nat} (hjk : s.bufLoc h j = s.bufLoc h k) : j = k := by
  unfold State.bufLoc at hjk
  split at hjk
  · have := Loc.host.inj hjk; omega
  · exact (Loc.own.inj hjk).2

@[simp] theorem bufWrite_bufLoc (s : State) (h k : Nat) (v : Byte) (j i : Nat) :
    (s.bufWrite h k v).bufLoc j i = s.bufLoc j i := locWrite_bufLoc ..

@[simp] theorem bufWrite_length (s : State) (h k : Nat) (v : Byte) :
    (s.bufWrite h k v).ctxs.length = s.ctxs.length := locWrite_length ..

/-- `MemRead` after `MemWrite` (00_scope.md R7). -/
theorem bufRead_bufWrite (s : State) {h : Nat} (k j : Nat) (v : Byte) (hh : h < s.ctxs.length) :
    (s.bufWrite h k v).bufRead h j = if j = k then v else s.bufRead h j := by
  unfold State.bufRead
  rw [bufWrite_bufLoc]
  split
  · subst_vars
    exact locRead_locWrite_same _ _ _ (bufLoc_inSlots _ _ hh)
  · exact locRead_locWrite_other _ _ fun hc => ‹¬ _› (bufLoc_injective _ _ hc)

/-! ### Writes into one buffer

`Writes h P s t`: `t` is `s` after writes of bytes `BUF[h][k]` with `P k`. Every operation that stores bits or bytes
is one of these, and what such writes can and cannot change is said here once. -/

inductive Writes (h : Nat) (P : Nat → Prop) : State → State → Prop
  | refl (s : State) : Writes h P s s
  | step {s t : State} (k : Nat) (v : Byte) : Writes h P s t → P k → Writes h P s (t.bufWrite h k v)

theorem Writes.mono {h : Nat} {P Q : Nat → Prop} {s t : State} (hw : Writes h P s t) (hpq : ∀ k, P k → Q k) :
    Writes h Q s t := by
  induction hw with
  | refl => exact .refl _
  | step k v _ hk ih => exact .step k v ih (hpq k hk)

theorem Writes.trans {h : Nat} {P : Nat → Prop} {s t u : State} (h1 : Writes h P s t) (h2 : Writes h P t u) :
    Writes h P s u := by
  induction h2 with
  | refl => exact h1
  | step k v _ hk ih => exact .step k v ih hk

theorem Writes.params {h : Nat} {P : Nat → Prop} {s t : State} (hw : Writes h P s t) : t.params = s.params := by
  induction hw with
  | refl => rfl
  | step k v _ _ ih => simpa [State.bufWrite] using ih

theorem Writes.inbox {h : Nat} {P : Nat → Prop} {s t : State} (hw : Writes h P s t) : t.inbox = s.inbox := by
  induction hw with
  | refl => rfl
  | step k v _ _ ih => simpa [State.bufWrite] using ih

theorem Writes.resp {h : Nat} {P : Nat → Prop} {s t : State} (hw : Writes h P s t) : t.resp = s.resp := by
  induction hw with
  | refl => rfl
  | step k v _ _ ih => simpa [State.bufWrite] using ih

theorem Writes.hostData {h : Nat} {P : Nat → Prop} {s t : State} (hw : Writes h P s t) :
    t.hostData = s.hostData := by
  induction hw with
  | refl => rfl
  | step k v _ _ ih => simpa [State.bufWrite] using ih

theorem Writes.fresh {h : Nat} {P : Nat → Prop} {s t : State} (hw : Writes h P s t) : t.fresh = s.fresh := by
  induction hw with
  | refl => rfl
  | step k v _ _ ih => simpa [State.bufWrite] using ih

theorem Writes.length {h : Nat} {P : Nat → Prop} {s t : State} (hw : Writes h P s t) :
    t.ctxs.length = s.ctxs.length := by
  induction hw with
  | refl => rfl
  | step k v _ _ ih => simpa using ih

/-- Only the written bytes of the context itself can change: no field, no other context. -/
theorem Writes.slot {h : Nat} {P : Nat → Prop} {s t : State} (hw : Writes h P s t) :
    ∃ m, t.slot h = { s.slot h with store := m } := by
  induction hw with
  | refl => exact ⟨_, rfl⟩
  | @step t k v _ _ ih =>
    obtain ⟨m, hm⟩ := ih
    obtain ⟨m', hm'⟩ := locWrite_slot t (t.bufLoc h k) v h
    exact ⟨m', by rw [State.bufWrite, hm', hm]⟩

theorem Writes.bufLoc {h : Nat} {P : Nat → Prop} {s t : State} (hw : Writes h P s t) (k : Nat) :
    t.bufLoc h k = s.bufLoc h k := by
  obtain ⟨m, hm⟩ := hw.slot
  simp [State.bufLoc, hm]

theorem Writes.other {h : Nat} {P : Nat → Prop} {s t : State} (hw : Writes h P s t) {j : Nat} (hj : j ≠ h) :
    t.ctxs[j]? = s.ctxs[j]? := by
  induction hw with
  | refl => rfl
  | @step t k v _ _ ih =>
    rw [← ih]
    unfold State.bufWrite State.bufLoc
    split
    · rfl
    · simp [State.locWrite, Ne.symm hj]

theorem Writes.self {h : Nat} {P : Nat → Prop} {s t : State} (hw : Writes h P s t) {c : Ctx}
    (hc : s.ctxs[h]? = some c) : ∃ m, t.ctxs[h]? = some { c with store := m } := by
  obtain ⟨m, hm⟩ := hw.slot
  have hh : h < t.ctxs.length := by rw [hw.length]; exact (List.getElem?_eq_some_iff.1 hc).1
  refine ⟨m, ?_⟩
  rw [List.getElem?_eq_getElem hh]
  rw [slot_of_getElem? hc, slot_of_getElem? (List.getElem?_eq_getElem hh)] at hm
  simp [hm]

/-- An owned buffer's bytes are not host memory (20_memory.md R42). -/
theorem Writes.host_of_not_borrowed {h : Nat} {P : Nat → Prop} {s t : State} (hw : Writes h P s t)
    (ho : (s.slot h).own ≠ .borrowed) : t.host = s.host := by
  induction hw with
  | refl => rfl
  | @step t k v hw _ ih =>
    have : (t.slot h).own ≠ .borrowed := by
      obtain ⟨m, hm⟩ := hw.slot
      simpa [hm] using ho
    simp [State.bufWrite, State.bufLoc, this, State.locWrite, ih]

/-- A borrowed buffer's bytes are host memory only (20_memory.md R43). -/
theorem Writes.ctxs_of_borrowed {h : Nat} {P : Nat → Prop} {s t : State} (hw : Writes h P s t)
    (ho : (s.slot h).own = .borrowed) : t.ctxs = s.ctxs := by
  induction hw with
  | refl => rfl
  | @step t k v hw _ ih =>
    have : (t.slot h).own = .borrowed := by
      obtain ⟨m, hm⟩ := hw.slot
      simpa [hm] using ho
    simp [State.bufWrite, State.bufLoc, this, State.locWrite, ih]

/-- Every byte outside those written reads as before. -/
theorem Writes.locRead {h : Nat} {P : Nat → Prop} {s t : State} (hw : Writes h P s t) (l : Loc)
    (hl : ∀ k, P k → l ≠ s.bufLoc h k) : t.locRead l = s.locRead l := by
  induction hw with
  | refl => rfl
  | @step t k v hw hk ih =>
    rw [State.bufWrite, hw.bufLoc, locRead_locWrite_other _ _ (hl k hk), ih]

theorem putBit_writes (s : State) (h q : Nat) (b : Bool) : Writes h (fun k => k = q / 8) s (s.putBit h q b) :=
  .step _ _ (.refl s) rfl

/-- `putbits` writes the bytes its positions lie in (20_memory.md R46). -/
theorem putBits_writes (s : State) (h p n v : Nat) :
    Writes h (fun k => p / 8 ≤ k ∧ 8 * k < p + n) s (s.putBits h p n v) := by
  induction n generalizing v with
  | zero => exact .refl s
  | succ n ih =>
    have h1 := (ih (v / 2)).mono (Q := fun k => p / 8 ≤ k ∧ 8 * k < p + (n + 1)) fun k hk => ⟨hk.1, by omega⟩
    have h2 := (putBit_writes (s.putBits h p n (v / 2)) h (p + n) (v % 2 = 1)).mono
      (Q := fun k => p / 8 ≤ k ∧ 8 * k < p + (n + 1)) fun k hk => by subst hk; constructor <;> omega
    rw [State.putBits]
    exact h1.trans h2

theorem writeBytes_writes (s : State) (h k : Nat) (data : List Byte) :
    Writes h (fun j => k ≤ j ∧ j < k + data.length) s (s.writeBytes h k data) := by
  induction data generalizing s k with
  | nil => exact .refl s
  | cons v vs ih =>
    refine ((Writes.step k v (.refl s) rfl : Writes h (fun j => j = k) _ _).mono fun j hj => ?_).trans
      ((ih _ (k + 1)).mono fun j hj => ?_)
    · simp only [List.length_cons]; omega
    · have := hj; simp only [List.length_cons]; omega

/-! ### Bits -/

/-- A read-modify-write of one bit changes that bit of its byte and no other (20_memory.md R46). -/
theorem setBitOf_getLsbD (v : Byte) (q r : Nat) (b : Bool) :
    (setBitOf v q b).getLsbD (7 - r % 8) = if r % 8 = q % 8 then b else v.getLsbD (7 - r % 8) := by
  have hq : q % 8 < 8 := Nat.mod_lt _ (by decide)
  have hr : r % 8 < 8 := Nat.mod_lt _ (by decide)
  unfold setBitOf
  generalize hq' : q % 8 = i at *
  generalize hr' : r % 8 = j at *
  interval_cases i <;> interval_cases j <;> cases b <;> simp

theorem bufBit_putBit (s : State) {h : Nat} (q r : Nat) (b : Bool) (hh : h < s.ctxs.length) :
    (s.putBit h q b).bufBit h r = if r = q then b else s.bufBit h r := by
  unfold State.putBit State.bufBit
  rw [bufRead_bufWrite _ _ _ _ hh]
  by_cases hd : r / 8 = q / 8
  · rw [if_pos hd, setBitOf_getLsbD]
    by_cases hm : r % 8 = q % 8
    · rw [if_pos hm, if_pos (by omega)]
    · rw [if_neg hm, if_neg (by rintro rfl; exact hm rfl), hd]
  · rw [if_neg hd, if_neg (by rintro rfl; exact hd rfl)]

@[simp] theorem putBits_length (s : State) (h p n v : Nat) :
    (s.putBits h p n v).ctxs.length = s.ctxs.length := (putBits_writes s h p n v).length

/-- What `putbits` does, bit by bit (R46): bit `n-1-i` of `v` at position `p + i`, and no other bit changes. -/
theorem bufBit_putBits (s : State) {h : Nat} (p n v q : Nat) (hh : h < s.ctxs.length) :
    (s.putBits h p n v).bufBit h q =
      if p ≤ q ∧ q < p + n then v.testBit (n - 1 - (q - p)) else s.bufBit h q := by
  induction n generalizing v with
  | zero => rw [if_neg (by omega)]; rfl
  | succ n ih =>
    rw [State.putBits, bufBit_putBit _ _ _ _ (by simpa using hh), ih]
    by_cases hq : q = p + n
    · subst hq
      rw [if_pos rfl, if_pos ⟨by omega, by omega⟩]
      simp [Nat.testBit_zero]
    · rw [if_neg hq]
      by_cases hr : p ≤ q ∧ q < p + n
      · rw [if_pos hr, if_pos ⟨hr.1, by omega⟩]
        rw [show n + 1 - 1 - (q - p) = (n - 1 - (q - p)) + 1 by omega, Nat.testBit_succ]
      · rw [if_neg hr, if_neg (by omega)]

/-- `getbits` is below 2^n. -/
theorem getBits_lt (s : State) (h p n : Nat) : s.getBits h p n < 2 ^ n := by
  induction n with
  | zero => simp [State.getBits]
  | succ n ih =>
    have : (s.bufBit h (p + n)).toNat ≤ 1 := Bool.toNat_le _
    simp only [State.getBits, pow_succ]; omega

/-- What `getbits` reads, bit by bit (R45). -/
theorem getBits_testBit (s : State) (h p n i : Nat) :
    (s.getBits h p n).testBit i = (decide (i < n) && s.bufBit h (p + (n - 1 - i))) := by
  induction n generalizing i with
  | zero => simp [State.getBits]
  | succ n ih =>
    cases i with
    | zero =>
      simp only [State.getBits, Nat.testBit_zero]
      cases hb : s.bufBit h (p + n) <;> simp [hb]
    | succ i =>
      have h2 : (s.getBits h p (n + 1)) / 2 = s.getBits h p n := by
        have : (s.bufBit h (p + n)).toNat ≤ 1 := Bool.toNat_le _
        simp only [State.getBits]; omega
      rw [Nat.testBit_succ, h2, ih]
      rw [show n + 1 - 1 - (i + 1) = n - 1 - i by omega]
      simp

/-- `getbits` depends on the bits it reads only. -/
theorem getBits_congr {s t : State} {h j p q n : Nat} (hb : ∀ i, i < n → s.bufBit h (p + i) = t.bufBit j (q + i)) :
    s.getBits h p n = t.getBits j q n := by
  induction n with
  | zero => rfl
  | succ n ih => simp only [State.getBits, ih fun i hi => hb i (by omega), hb n (by omega)]

end Sys2Proof.Machine
end

