-- ==== Sys2Proof/Laws/HostPort.lean ====
section
/-! SUPPORT. What a step does with the inbox, said once, and everything a host's access can do. -/

namespace Sys2Proof.Machine

@[simp] theorem leadingBytes_bytes (sent : List Byte) : leadingBytes (sent.map HostEvent.byte) = sent := by
  induction sent with
  | nil => rfl
  | cons b bs ih => simp [leadingBytes, ih]

@[simp] theorem leadingBytes_access (sent : List Byte) (a : HostAccess) (rest : List HostEvent) :
    leadingBytes (sent.map HostEvent.byte ++ .access a :: rest) = sent := by
  induction sent with
  | nil => rfl
  | cons b bs ih => simp [leadingBytes, ih]

@[simp] theorem firstAccess_access (sent : List Byte) (a : HostAccess) (rest : List HostEvent) :
    firstAccess (sent.map HostEvent.byte ++ .access a :: rest) = some (a, rest) := by
  induction sent with
  | nil => rfl
  | cons b bs ih => simp [firstAccess, ih]

@[simp] theorem firstAccess_bytes (sent : List Byte) : firstAccess (sent.map HostEvent.byte) = none := by
  induction sent with
  | nil => rfl
  | cons b bs ih => simp [firstAccess, ih]

/-- The host's access takes its turn when the bytes before it are no whole command (log 5). -/
theorem step_access {s : State} {sent : List Byte} {a : HostAccess} {rest : List HostEvent}
    (hd : decode sent = .error .incomplete) (hs : s.inbox = sent.map HostEvent.byte ++ .access a :: rest) :
    step s = hostAccess sent a rest s := by
  simp [step, hs, hd]

/-- The block waits when the bytes sent are no whole command and nothing follows them (log 4). -/
theorem step_wait {s : State} {sent : List Byte} (hd : decode sent = .error .incomplete)
    (hs : s.inbox = sent.map HostEvent.byte) : step s = .next s := by
  simp [step, hs, hd]

/-- Everything a host's access can do when it gives a next state: one byte read, one byte of a buffer or of host memory
written, or a reset (20_memory.md R52, 70_reset_and_hazards.md R230, R234). -/
theorem hostAccess_cases {s t : State} {sent : List Byte} {a : HostAccess} {rest : List HostEvent}
    (h : hostAccess sent a rest s = .next t) :
    (∃ j k, s.bufByteExists j k = true ∧
      t = { s with inbox := sent.map HostEvent.byte ++ rest, hostData := some (s.bufRead j k) }) ∨
    (∃ j k v, s.bufByteExists j k = true ∧
      t = ({ s with inbox := sent.map HostEvent.byte ++ rest } : State).bufWrite j k v) ∨
    (∃ (b : BitVec 32) (v : Byte),
      t = ({ s with inbox := sent.map HostEvent.byte ++ rest } : State).locWrite (.host b.toNat) v) ∨
    t = { s with
      inbox := rest, ctxs := List.replicate s.ctxs.length Ctx.blank, resp := none, hostData := none } := by
  cases a with
  | bufRead j k =>
    simp only [hostAccess, hostBufRead] at h
    split at h
    · next he => exact .inl ⟨j.toNat, k, he, (Host.Outcome.next.inj h).symm⟩
    · cases h
  | bufWrite j k v =>
    simp only [hostAccess, hostBufWrite] at h
    split at h
    · next he => exact .inr (.inl ⟨j.toNat, k, v, he, by simpa using h.symm⟩)
    · cases h
  | memWrite b v => exact .inr (.inr (.inl ⟨b, v, by simpa [hostAccess, hostMemWrite] using h.symm⟩))
  | reset => exact .inr (.inr (.inr (by simpa [hostAccess, hostReset] using h.symm)))

end Sys2Proof.Machine
end

