-- ==== Sys2Proof/Laws/Operands.lean ====
section
/-! SUPPORT. The checks of R100 as they are cited: each answers OK when its condition holds, and its status when not. -/

namespace Sys2Proof.Machine

theorem needCtx_some {s : State} {h : Byte} {c : Ctx} (hc : s.ctx? h.toNat = some c) : needCtx s h = .ok c := by
  simp [needCtx, hc]

theorem needCtx_none {s : State} {h : Byte} (hc : s.ctx? h.toNat = none) : needCtx s h = .error .badOperand := by
  simp [needCtx, hc]

theorem needStore_pos {c : Ctx} (h : c.own ≠ .detached) : needStore c = .ok () := need_pos h
theorem needStore_neg {c : Ctx} (h : c.own = .detached) : needStore c = .error .invalidBufferOwnership :=
  need_neg (not_not.2 h)

theorem needWidth_pos {w : Byte} (h : 1 ≤ w.toNat ∧ w.toNat ≤ 16) : needWidth w = .ok () := need_pos h
theorem needWidth_neg {w : Byte} (h : ¬ (1 ≤ w.toNat ∧ w.toNat ≤ 16)) : needWidth w = .error .badOperand := need_neg h

theorem needCap_pos {n : Nat} (h : 1 ≤ n ∧ n ≤ 65532) : needCap n = .ok () := need_pos h
theorem needCap_neg {n : Nat} (h : ¬ (1 ≤ n ∧ n ≤ 65532)) : needCap n = .error .badOperand := need_neg h

theorem needBase_pos {a n : Nat} (h : 3 ≤ a ∧ a + n ≤ 2 ^ 32) : needBase a n = .ok () :=
  need_pos (by simpa [Config.msgMaxHdr, Config.hostSpace] using h)
theorem needBase_neg {a n : Nat} (h : ¬ (3 ≤ a ∧ a + n ≤ 2 ^ 32)) : needBase a n = .error .badOperand :=
  need_neg (by simpa [Config.msgMaxHdr, Config.hostSpace] using h)

theorem needCount_pos {n : Nat} (h : n ≤ 65535) : needCount n = .ok () := need_pos h
theorem needCount_neg {n : Nat} (h : ¬ n ≤ 65535) : needCount n = .error .badOperand := need_neg h

/-- Changing the slot of a valid handle is putting the changed context there. -/
theorem mapCtx_of_ctx? {s : State} {h : Nat} {c : Ctx} (f : Ctx → Ctx) (hc : s.ctx? h = some c) :
    s.mapCtx h f = s.putCtx h (f c) := by
  have hs := (ctx?_eq_some.1 hc).1
  unfold State.mapCtx State.putCtx
  congr 1
  apply List.ext_getElem?
  intro i
  simp only [List.getElem?_modify, List.getElem?_set]
  by_cases hi : h = i
  · subst hi
    obtain ⟨hh, rfl⟩ := List.getElem?_eq_some_iff.1 hs
    simp [hh]
  · simp [hi]

end Sys2Proof.Machine
end

