-- ==== Sys2Proof/Laws/PerInstr.lean ====
section
/-! SUPPORT. Statements for all instructions, made per instruction: the encoder writes as many bytes as the command
takes on the port (30_encoding.md R60, R65). -/

namespace Sys2Proof.Laws.EncodeSize

/-- The encoding of `i` has `i.size` bytes. -/
def Statement (i : Instr) : Prop := (encode i).length = i.size

/-- A word and its data bytes: the shape every encoding has. -/
theorem of_shape (i : Instr) : Statement i := by
  simp [Statement, encode, fieldBytes, wordBytes, Instr.size]
  omega

theorem crc8Init : Statement (.crc8Init) := of_shape _
theorem crc8Update (x : Word) (y : Word) : Statement (.crc8Update x y) := of_shape _
theorem crc8UpdateV (w : Byte) (x : Word) (y : Word) : Statement (.crc8UpdateV w x y) := of_shape _
theorem crc8Finish (y : Word) : Statement (.crc8Finish y) := of_shape _
theorem crc8Block (x : Word) (data : List Byte) : Statement (.crc8Block x data) := of_shape _
theorem crc16Init : Statement (.crc16Init) := of_shape _
theorem crc16Update (x : Word) (y : Word) : Statement (.crc16Update x y) := of_shape _
theorem crc16UpdateV (w : Byte) (x : Word) (y : Word) : Statement (.crc16UpdateV w x y) := of_shape _
theorem crc16Finish (y : Word) : Statement (.crc16Finish y) := of_shape _
theorem crc16Block (x : Word) (data : List Byte) : Statement (.crc16Block x data) := of_shape _
theorem allocate (x : Word) : Statement (.allocate x) := of_shape _
theorem wrap (x : Word) (y : Word) : Statement (.wrap x y) := of_shape _
theorem duplicate (ha : Byte) : Statement (.duplicate ha) := of_shape _
theorem release (ha : Byte) : Statement (.release ha) := of_shape _
theorem grow (ha : Byte) (x : Word) : Statement (.grow ha x) := of_shape _
theorem attach (ha : Byte) (x : Word) (y : Word) : Statement (.attach ha x y) := of_shape _
theorem startSend (ha : Byte) : Statement (.startSend ha) := of_shape _
theorem appendByte (ha : Byte) (x : Word) : Statement (.appendByte ha x) := of_shape _
theorem appendBytes (ha : Byte) (x : Word) (data : List Byte) : Statement (.appendBytes ha x data) := of_shape _
theorem startExtract (ha : Byte) : Statement (.startExtract ha) := of_shape _
theorem hasMore (ha : Byte) : Statement (.hasMore ha) := of_shape _
theorem extractChunk (ha : Byte) (w : Byte) : Statement (.extractChunk ha w) := of_shape _
theorem startAdd (ha : Byte) : Statement (.startAdd ha) := of_shape _
theorem addChunk (ha : Byte) (w : Byte) (x : Word) : Statement (.addChunk ha w x) := of_shape _
theorem addFrom (ha : Byte) (hb : Byte) (x : Word) : Statement (.addFrom ha hb x) := of_shape _
theorem drop (ha : Byte) (w : Byte) : Statement (.drop ha w) := of_shape _
theorem align (ha : Byte) : Statement (.align ha) := of_shape _
theorem truncateCopy (ha : Byte) (x : Word) : Statement (.truncateCopy ha x) := of_shape _
theorem fillCrc (ha : Byte) (hb : Byte) (w : Byte) (x : Word) : Statement (.fillCrc ha hb w x) := of_shape _
theorem start (ha : Byte) : Statement (.start ha) := of_shape _
theorem length (ha : Byte) : Statement (.length ha) := of_shape _
theorem bitLength (ha : Byte) : Statement (.bitLength ha) := of_shape _
theorem sentBits (ha : Byte) : Statement (.sentBits ha) := of_shape _
theorem getField (ha : Byte) (hb : Byte) : Statement (.getField ha hb) := of_shape _
theorem setField (ha : Byte) (hb : Byte) (x : Word) : Statement (.setField ha hb x) := of_shape _
theorem hdrEncode (ha : Byte) : Statement (.hdrEncode ha) := of_shape _
theorem hdrDecode (ha : Byte) : Statement (.hdrDecode ha) := of_shape _

end Sys2Proof.Laws.EncodeSize
end

