-- ==== Sys2Proof/Laws/Safety.lean ====
section
/-! SUPPORT. The words of the claims in terms of the operations: the pool, the lowest free context, room. -/

namespace Sys2Proof.Machine

theorem poolHolds_iff_poolAllows (s : State) (n : Nat) : s.poolHolds n = true ↔ poolAllows s n := by
  unfold State.poolHolds poolAllows
  cases s.params.poolBytes <;> simp

theorem newContext_eq_ok_iff_lowestFree (s : State) (h : Nat) : newContext s = .ok h ↔ lowestFree s h :=
  newContext_eq_ok

theorem roomFor_iff (s : State) (c : Ctx) (n : Nat) : roomFor s c n ↔
    c.wc + n ≤ c.lim ∨ (c.own = .owned ∧ neededCap c n ≤ 65532 ∧
      s.poolHolds (s.poolUsed - c.cap.toNat + neededCap c n) = true) := by
  rw [roomFor, poolHolds_iff_poolAllows]

end Sys2Proof.Machine
end

