-- ==== Sys2Proof/Tests/Slice0.lean ====
section
/-! SUPPORT. Small tests, their expected results taken from the spec (95_test_vectors.md unless another file is named),
and for every statement with hypotheses a witness that meets them. The CRC polynomials here are the illustrative ones
of 95_test_vectors.md section 2. -/

namespace Sys2Proof.Tests
open Sys2Proof Sys2Proof.Machine

/-! ### Ill-formed commands are refused (30_encoding.md R65) -/

theorem test_illFormed_crc8Block : (Instr.crc8Block 2 [0xA5]).wellFormed = false := by decide
theorem test_illFormed_crc16Block : (Instr.crc16Block 0x10000 [0xA5]).wellFormed = false := by decide
theorem test_illFormed_appendBytes : (Instr.appendBytes 0 1 [0xA5, 0x3C]).wellFormed = false := by decide
theorem test_wellFormed_count_too_large : (Instr.appendBytes 0 0x10000 []).wellFormed = true := by decide

/-! ### Decoding words written out from R60, R61, R63, R65, R67 -/

theorem test_decode_crc8Init :
    decode [0x00, 0x00, 0x00, 0x00, 0x00, 0x00, 0x00, 0x00, 0x00, 0x00, 0x00, 0x00] = .ok (.crc8Init, []) := by decide
theorem test_decode_crc8Update :
    decode [0x01, 0x00, 0x00, 0x00, 0x00, 0x00, 0x00, 0x31, 0x00, 0x00, 0x00, 0x00] =
      .ok (.crc8Update 0x31 0, []) := by decide
theorem test_decode_crc8UpdateV :
    decode [0x02, 0x00, 0x00, 0x0B, 0x00, 0x00, 0x05, 0xA5, 0x00, 0x00, 0x00, 0x12] =
      .ok (.crc8UpdateV 11 0x5A5 0x12, []) := by decide
theorem test_decode_crc8Finish :
    decode [0x03, 0x00, 0x00, 0x00, 0x00, 0x00, 0x00, 0x00, 0x00, 0x00, 0x01, 0xAB] =
      .ok (.crc8Finish 0x1AB, []) := by decide
theorem test_decode_crc8Block :
    decode [0x04, 0x00, 0x00, 0x00, 0x00, 0x00, 0x00, 0x02, 0x00, 0x00, 0x00, 0x00, 0xA5, 0x3C] =
      .ok (.crc8Block 2 [0xA5, 0x3C], []) := by decide
theorem test_decode_crc16Init :
    decode [0x08, 0x00, 0x00, 0x00, 0x00, 0x00, 0x00, 0x00, 0x00, 0x00, 0x00, 0x00] =
      .ok (.crc16Init, []) := by decide
theorem test_decode_crc16Update :
    decode [0x09, 0x00, 0x00, 0x00, 0x00, 0x00, 0x00, 0x32, 0x00, 0x00, 0x26, 0x72] =
      .ok (.crc16Update 0x32 0x2672, []) := by decide
theorem test_decode_crc16UpdateV :
    decode [0x0A, 0x00, 0x00, 0x09, 0x00, 0x00, 0x01, 0xFF, 0x00, 0x00, 0x12, 0x34] =
      .ok (.crc16UpdateV 9 0x1FF 0x1234, []) := by decide
theorem test_decode_crc16Finish :
    decode [0x0B, 0x00, 0x00, 0x00, 0x00, 0x00, 0x00, 0x00, 0x00, 0x01, 0xAB, 0xCD] =
      .ok (.crc16Finish 0x1ABCD, []) := by decide
theorem test_decode_crc16Block :
    decode [0x0C, 0x00, 0x00, 0x00, 0x00, 0x00, 0x00, 0x02, 0x00, 0x00, 0x00, 0x00, 0xA5, 0x3C] =
      .ok (.crc16Block 2 [0xA5, 0x3C], []) := by decide
theorem test_decode_allocate :
    decode [0x10, 0x00, 0x00, 0x00, 0x00, 0x00, 0x00, 0x0A, 0x00, 0x00, 0x00, 0x00] =
      .ok (.allocate 10, []) := by decide
theorem test_decode_wrap :
    decode [0x11, 0x00, 0x00, 0x00, 0xFF, 0xFF, 0xFF, 0xFE, 0x00, 0x00, 0x00, 0x02] =
      .ok (.wrap 0xFFFFFFFE 2, []) := by decide
theorem test_decode_duplicate :
    decode [0x12, 0x01, 0x00, 0x00, 0x00, 0x00, 0x00, 0x00, 0x00, 0x00, 0x00, 0x00] =
      .ok (.duplicate 1, []) := by decide
theorem test_decode_release :
    decode [0x13, 0x03, 0x00, 0x00, 0x00, 0x00, 0x00, 0x00, 0x00, 0x00, 0x00, 0x00] =
      .ok (.release 3, []) := by decide
theorem test_decode_grow :
    decode [0x14, 0x01, 0x00, 0x00, 0x00, 0x00, 0x00, 0x04, 0x00, 0x00, 0x00, 0x00] = .ok (.grow 1 4, []) := by decide
theorem test_decode_attach :
    decode [0x15, 0x01, 0x00, 0x00, 0x00, 0x00, 0x03, 0x00, 0x00, 0x00, 0x00, 0x01] =
      .ok (.attach 1 0x300 1, []) := by decide
theorem test_decode_startSend :
    decode [0x20, 0x02, 0x00, 0x00, 0x00, 0x00, 0x00, 0x00, 0x00, 0x00, 0x00, 0x00] =
      .ok (.startSend 2, []) := by decide
theorem test_decode_appendByte :
    decode [0x21, 0x00, 0x00, 0x00, 0x00, 0x00, 0x01, 0xFF, 0x00, 0x00, 0x00, 0x00] =
      .ok (.appendByte 0 0x1FF, []) := by decide
theorem test_decode_appendBytes :
    decode [0x22, 0x00, 0x00, 0x00, 0x00, 0x00, 0x00, 0x03, 0x00, 0x00, 0x00, 0x00, 0x12, 0x34, 0x56] =
      .ok (.appendBytes 0 3 [0x12, 0x34, 0x56], []) := by decide
theorem test_decode_startExtract :
    decode [0x23, 0x01, 0x00, 0x00, 0x00, 0x00, 0x00, 0x00, 0x00, 0x00, 0x00, 0x00] =
      .ok (.startExtract 1, []) := by decide
theorem test_decode_hasMore :
    decode [0x24, 0x01, 0x00, 0x00, 0x00, 0x00, 0x00, 0x00, 0x00, 0x00, 0x00, 0x00] =
      .ok (.hasMore 1, []) := by decide
theorem test_decode_extractChunk :
    decode [0x25, 0x01, 0x00, 0x10, 0x00, 0x00, 0x00, 0x00, 0x00, 0x00, 0x00, 0x00] =
      .ok (.extractChunk 1 16, []) := by decide
theorem test_decode_startAdd :
    decode [0x30, 0x01, 0x00, 0x00, 0x00, 0x00, 0x00, 0x00, 0x00, 0x00, 0x00, 0x00] =
      .ok (.startAdd 1, []) := by decide
theorem test_decode_addChunk :
    decode [0x31, 0x00, 0x00, 0x0D, 0x00, 0x00, 0x1A, 0xBC, 0x00, 0x00, 0x00, 0x00] =
      .ok (.addChunk 0 13 0x1ABC, []) := by decide
theorem test_decode_addFrom :
    decode [0x32, 0x01, 0x02, 0x00, 0x00, 0x00, 0x00, 0x0C, 0x00, 0x00, 0x00, 0x00] =
      .ok (.addFrom 1 2 12, []) := by decide
theorem test_decode_drop :
    decode [0x33, 0x00, 0x00, 0x06, 0x00, 0x00, 0x00, 0x00, 0x00, 0x00, 0x00, 0x00] = .ok (.drop 0 6, []) := by decide
theorem test_decode_align :
    decode [0x34, 0x02, 0x00, 0x00, 0x00, 0x00, 0x00, 0x00, 0x00, 0x00, 0x00, 0x00] = .ok (.align 2, []) := by decide
theorem test_decode_truncateCopy :
    decode [0x35, 0x01, 0x00, 0x00, 0x00, 0x00, 0x00, 0x09, 0x00, 0x00, 0x00, 0x00] =
      .ok (.truncateCopy 1 9, []) := by decide
theorem test_decode_fillCrc :
    decode [0x36, 0x00, 0x08, 0x03, 0x00, 0x00, 0x00, 0xED, 0x00, 0x00, 0x00, 0x00] =
      .ok (.fillCrc 0 8 3 0xED, []) := by decide
theorem test_decode_start :
    decode [0x40, 0x01, 0x00, 0x00, 0x00, 0x00, 0x00, 0x00, 0x00, 0x00, 0x00, 0x00] = .ok (.start 1, []) := by decide
theorem test_decode_length :
    decode [0x41, 0x01, 0x00, 0x00, 0x00, 0x00, 0x00, 0x00, 0x00, 0x00, 0x00, 0x00] = .ok (.length 1, []) := by decide
theorem test_decode_bitLength :
    decode [0x42, 0x01, 0x00, 0x00, 0x00, 0x00, 0x00, 0x00, 0x00, 0x00, 0x00, 0x00] =
      .ok (.bitLength 1, []) := by decide
theorem test_decode_sentBits :
    decode [0x43, 0x01, 0x00, 0x00, 0x00, 0x00, 0x00, 0x00, 0x00, 0x00, 0x00, 0x00] =
      .ok (.sentBits 1, []) := by decide
theorem test_decode_getField :
    decode [0x44, 0x01, 0x0C, 0x00, 0x00, 0x00, 0x00, 0x00, 0x00, 0x00, 0x00, 0x00] =
      .ok (.getField 1 12, []) := by decide
theorem test_decode_setField :
    decode [0x45, 0x00, 0x01, 0x00, 0xFF, 0xFF, 0xFF, 0xFC, 0x00, 0x00, 0x00, 0x00] =
      .ok (.setField 0 1 0xFFFFFFFC, []) := by decide
theorem test_decode_hdrEncode :
    decode [0x50, 0x02, 0x00, 0x00, 0x00, 0x00, 0x00, 0x00, 0x00, 0x00, 0x00, 0x00] =
      .ok (.hdrEncode 2, []) := by decide
theorem test_decode_hdrDecode :
    decode [0x51, 0x02, 0x00, 0x00, 0x00, 0x00, 0x00, 0x00, 0x00, 0x00, 0x00, 0x00] =
      .ok (.hdrDecode 2, []) := by decide

/-- Bytes after the command stay (section 3.11), and unused fields are ignored (R61). -/
theorem test_decode_leaves_the_rest :
    decode [0x24, 0x01, 0xFF, 0xFF, 0xFF, 0xFF, 0xFF, 0xFF, 0xFF, 0xFF, 0xFF, 0xFF, 0x25] =
      .ok (.hasMore 1, [0x25]) := by decide
/-- R64: 0x05 is not in the opcode map. -/
theorem test_decode_illegal :
    decode [0x05, 0, 0, 0, 0, 0, 0, 0, 0, 0, 0, 0] = .error (.illegalOpcode 0x05) := by decide
theorem test_decode_short_word : decode [0x50, 0, 0, 0, 0, 0, 0, 0, 0, 0, 0] = .error .incomplete := by decide
theorem test_decode_short_data :
    decode [0x22, 0, 0, 0, 0, 0, 0, 2, 0, 0, 0, 0, 0xA5] = .error .incomplete := by decide
theorem test_decode_count_too_large :
    decode [0x04, 0, 0, 0, 0, 1, 0, 0, 0, 0, 0, 0, 0xA5] = .ok (.crc8Block 0x10000 [], [0xA5]) := by decide
theorem test_decodeTableWord_addChunk :
    decodeTableWord 96 0x310100030000000500000000 = some (.addChunk 1 3 5) := by decide
theorem test_decodeTableWord_appendBytes :
    decodeTableWord 96 0x220000000000000200000000 = some (.appendBytes 0 2 [0, 0]) := by decide
theorem test_encode_setField :
    encode (.setField 0 1 0xFFFFFFFC) = [0x45, 0, 1, 0, 0xFF, 0xFF, 0xFF, 0xFC, 0, 0, 0, 0] := by decide

/-! ### Small states -/

/-- The illustrative polynomials, and a pool of 20 bytes. -/
def illus : Params := { poolBytes := some 20, poly8 := 0x07, poly16 := 0x1021 }

/-- A state with these contexts; the bytes at 0x100 to 0x103 of host memory are 12 34 56 78. -/
def mk (cs : List Ctx) : State :=
  { State.resetWith 0 illus with
    ctxs := cs, host := [(0x100, 0x12), (0x101, 0x34), (0x102, 0x56), (0x103, 0x78)], fresh := 2 }

/-- An owned message of 20 bits, A5 3C B (program P1), dst 0, src -4, code 5. -/
def owned20 : Ctx :=
  { newCtx with
    own := .owned, cap := 4, dataEnd := 5, dataEndOff := 4, store := [(3, 0xA5), (4, 0x3C), (5, 0xB0)],
    src := -4, dst := 0, code := 5 }

/-- A borrowed message of the 32 bits 12 34 56 78, 3 of them extracted. -/
def lent32 : Ctx := { newCtx with own := .borrowed, cap := 4, base := 0x100, dataEnd := 7, dataPosOff := 3 }

/-- A detached copy of `owned20`. -/
def copy20 : Ctx := { newCtx with dataEnd := 5, dataEndOff := 4, src := -4, dst := 0, code := 5 }

/-- Handle 0 is owned, 1 borrowed, 2 detached, 3 free. -/
def four : State := mk [owned20, lent32, copy20, Ctx.blank]

/-- The same with no free context. -/
def full : State := mk [owned20, lent32, copy20]

theorem test_four_inv : four.Inv := by decide
theorem test_full_inv : full.Inv := by decide

/-- What a command answers. -/
def answer : Host.Outcome State Fault Refusal → Option (Status × Nat)
  | .next t => t.resp.map fun r => (r.status, r.value.toNat)
  | _ => none

/-- The state after a command. -/
def after : Host.Outcome State Fault Refusal → State
  | .next t => t
  | _ => four

/-- The write and read cursors of a handle, each as (byte, bit). -/
def cursors (s : State) (h : Nat) : (Nat × Nat) × (Nat × Nat) :=
  (((s.slot h).dataEnd.toNat, (s.slot h).dataEndOff.toNat), ((s.slot h).dataPos.toNat, (s.slot h).dataPosOff.toNat))

/-! ### One step of each command -/

-- sections 3.1, 3.2
theorem test_crc8Init : answer (exec .crc8Init four) = some (.ok, 0) := by decide
theorem test_crc8Update : answer (exec (.crc8Update 0x131 0xF00) four) = some (.ok, 0x97) := by decide
theorem test_crc8UpdateV : answer (exec (.crc8UpdateV 9 0xFFFFFFFF 0x12) four) = some (.ok, 0x1A) := by decide
theorem test_crc8UpdateV_refuses : answer (exec (.crc8UpdateV 17 1 0) four) = some (.badOperand, 0) := by decide
theorem test_crc8Finish : answer (exec (.crc8Finish 0x1AB) four) = some (.ok, 0xAB) := by decide
theorem test_crc8Block :
    answer (exec (.crc8Block 9 [0x31, 0x32, 0x33, 0x34, 0x35, 0x36, 0x37, 0x38, 0x39]) four) =
      some (.ok, 0xF4) := by decide +kernel
theorem test_crc8Block_refuses : answer (exec (.crc8Block 0x10000 []) four) = some (.badOperand, 0) := by decide
theorem test_crc16Init : answer (exec .crc16Init four) = some (.ok, 0) := by decide
theorem test_crc16Update : answer (exec (.crc16Update 0x32 0x2672) four) = some (.ok, 0x20B5) := by decide
theorem test_crc16UpdateV : answer (exec (.crc16UpdateV 11 0x5A5 0) four) = some (.ok, 0x1ABA) := by decide
theorem test_crc16UpdateV_refuses : answer (exec (.crc16UpdateV 0 1 0) four) = some (.badOperand, 0) := by decide
theorem test_crc16Finish : answer (exec (.crc16Finish 0x1ABCD) four) = some (.ok, 0xABCD) := by decide
theorem test_crc16Block :
    answer (exec (.crc16Block 9 [0x31, 0x32, 0x33, 0x34, 0x35, 0x36, 0x37, 0x38, 0x39]) four) =
      some (.ok, 0x31C3) := by decide +kernel

-- section 3.5, with 7 of the 20 pool bytes in use
theorem test_allocate : answer (exec (.allocate 10) four) = some (.ok, 3) := by decide
theorem test_allocate_pool : answer (exec (.allocate 11) four) = some (.outOfMemory, 0) := by decide
theorem test_wrap_to_the_top :
    answer (exec (.wrap 0xFFFFFFFE 2) four) = some (.ok, 3) ∧
    cursors (after (exec (.wrap 0xFFFFFFFE 2) four)) 3 = ((5, 0), (3, 0)) := by decide
theorem test_wrap_beyond : answer (exec (.wrap 0xFFFFFFFF 2) four) = some (.badOperand, 0) := by decide
theorem test_duplicate :
    answer (exec (.duplicate 0) four) = some (.ok, 3) ∧
    (after (exec (.duplicate 0) four)).slot 3 = copy20 := by decide
theorem test_duplicate_full : answer (exec (.duplicate 0) full) = some (.outOfMemory, 0) := by decide
theorem test_release_owned : answer (exec (.release 0) four) = some (.ok, 1) := by decide
theorem test_release_borrowed : answer (exec (.release 1) four) = some (.ok, 0) := by decide
theorem test_grow :
    answer (exec (.grow 0 17) four) = some (.ok, 0) ∧
    ((after (exec (.grow 0 17) four)).slot 0).cap = 17 := by decide
theorem test_grow_borrowed : answer (exec (.grow 1 8) four) = some (.invalidBufferOwnership, 0) := by decide
theorem test_attach :
    answer (exec (.attach 2 0x300 3) four) = some (.ok, 0) ∧
    ((after (exec (.attach 2 0x300 3) four)).slot 2).base = 0x300 := by decide
theorem test_attach_too_short : answer (exec (.attach 2 0x300 2) four) = some (.cursorOverflow, 0) := by decide

-- section 3.6
theorem test_startSend :
    answer (exec (.startSend 1) four) = some (.ok, 0) ∧
    cursors (after (exec (.startSend 1) four)) 1 = ((3, 0), (3, 0)) := by decide
/-- Row 21: 0xFF at bit offset 3 over 12 34: B2 becomes BF, 34 becomes F4. -/
theorem test_appendByte :
    let s := mk [{ owned20 with dataEnd := 3, dataEndOff := 3, store := [(3, 0xB2), (4, 0x34)] }]
    let t := after (exec (.appendByte 0 0x1FF) s)
    t.bufRead 0 3 = 0xBF ∧ t.bufRead 0 4 = 0xF4 ∧ cursors t 0 = ((4, 3), (3, 0)) := by decide
/-- Row 26: 01 02 03 04 at bit offset 3 grow the buffer to 6 bytes. -/
theorem test_appendBytes :
    let s := mk [{ owned20 with
      dataEnd := 4, dataEndOff := 3, store := [(3, 0xBF), (4, 0xF4), (5, 0x56), (6, 0), (7, 0)] }]
    let t := after (exec (.appendBytes 0 4 [0x01, 0x02, 0x03, 0x04]) s)
    [4, 5, 6, 7].map (t.bufRead 0) = [0xE0, 0x20, 0x40, 0x60] ∧ (t.slot 0).cap = 6 ∧
      cursors t 0 = ((8, 3), (3, 0)) := by decide +kernel
theorem test_appendBytes_borrowed_full :
    answer (exec (.appendBytes 1 1 [0]) four) = some (.cursorOverflow, 0) := by decide
theorem test_startExtract :
    cursors (after (exec (.startExtract 1) four)) 1 = ((7, 0), (3, 0)) := by decide
theorem test_hasMore : answer (exec (.hasMore 1) four) = some (.ok, 1) := by decide
/-- Row 6, over the host's bytes 12 34 56 from bit offset 1. -/
theorem test_extractChunk :
    let s := mk [{ lent32 with dataPosOff := 1 }]
    answer (exec (.extractChunk 0 16) s) = some (.ok, 0x2468) ∧
    cursors (after (exec (.extractChunk 0 16) s)) 0 = ((7, 0), (5, 1)) := by decide
/-- Program P1: the last of the seven chunks of 20 bits by 3, marker 8 and `110`. -/
theorem test_extractChunk_marker :
    let s := mk [{ owned20 with dataPos := 5, dataPosOff := 2 }]
    answer (exec (.extractChunk 0 3) s) = some (.ok, 0xE) ∧
    cursors (after (exec (.extractChunk 0 3) s)) 0 = ((5, 4), (5, 4)) := by decide

-- section 3.7
theorem test_startAdd : cursors (after (exec (.startAdd 1) four)) 1 = ((3, 0), (3, 0)) := by decide
/-- Section 3.6 row 20: `101` over 12 gives B2. -/
theorem test_addChunk :
    let t := after (exec (.addChunk 1 3 0xD) (mk [owned20, { lent32 with dataEnd := 3, dataPosOff := 0 }]))
    t.bufRead 1 3 = 0xB2 ∧ memGet t.host 0x100 = some 0xB2 ∧ cursors t 1 = ((3, 3), (3, 0)) := by decide
/-- Rows 3 to 6 of the ADD_FROM table: 12 bits 0x234 after `101`. -/
theorem test_addFrom :
    let s := mk [{ lent32 with dataPosOff := 4 },
      { owned20 with cap := 1, dataEnd := 3, dataEndOff := 3, store := [(3, 0xA0), (4, 0x00)] }]
    let t := after (exec (.addFrom 1 0 12) s)
    [3, 4].map (t.bufRead 1) = [0xA4, 0x68] ∧ (t.slot 1).cap = 2 ∧
      cursors t 1 = ((4, 7), (3, 0)) ∧ cursors t 0 = ((7, 0), (5, 0)) := by decide
theorem test_addFrom_same : answer (exec (.addFrom 1 1 1) four) = some (.badOperand, 0) := by decide
/-- Row 14: the bits `11100` of D5 E0 after 13 bits. -/
theorem test_drop :
    let s := mk [{ owned20 with dataEnd := 4, dataEndOff := 5, dataPos := 4, store := [(3, 0xD5), (4, 0xE0)] }]
    answer (exec (.drop 0 5) s) = some (.ok, 0x1C) ∧ answer (exec (.drop 0 6) s) = some (.cursorOverflow, 0) ∧
    cursors (after (exec (.drop 0 5) s)) 0 = ((4, 0), (4, 0)) := by decide
/-- Row 19: 13 bits become 8 (TP4). -/
theorem test_align :
    cursors (after (exec (.align 0) (mk [{ owned20 with dataEnd := 4, dataEndOff := 5 }]))) 0 =
      ((4, 0), (3, 0)) := by decide
/-- Row 17. -/
theorem test_align_below_reader :
    answer (exec (.align 0) (mk [{ owned20 with dataEnd := 4, dataEndOff := 5, dataPos := 4, dataPosOff := 2 }])) =
      some (.cursorOverflow, 0) := by decide
/-- Row 9: 9 of the bits A5 3C B. -/
theorem test_truncateCopy :
    let t := after (exec (.truncateCopy 0 9) four)
    [3, 4].map (t.bufRead 3) = [0xA5, 0x00] ∧ (t.slot 3).cap = 2 ∧ cursors t 3 = ((4, 1), (3, 0)) := by decide
theorem test_truncateCopy_too_long :
    answer (exec (.truncateCopy 0 21) four) = some (.cursorOverflow, 0) := by decide
theorem test_fillCrc : answer (exec (.fillCrc 0 8 3 0xED) four) = some (.illegalCommand, 0) := by decide

-- section 3.8
theorem test_start : answer (exec (.start 0) four) = some (.ok, 3) := by decide
theorem test_length : answer (exec (.length 0) four) = some (.ok, 3) := by decide
theorem test_bitLength : answer (exec (.bitLength 0) four) = some (.ok, 20) := by decide
theorem test_sentBits : answer (exec (.sentBits 1) four) = some (.ok, 3) := by decide
theorem test_getField : answer (exec (.getField 0 0) four) = some (.ok, 0xFFFFFFFC) := by decide
theorem test_getField_absent : answer (exec (.getField 0 15) four) = some (.badOperand, 0) := by decide
theorem test_setField : ((after (exec (.setField 0 1 0xFFFFFFFC) four)).slot 0).dst = -4 := by decide
theorem test_setField_refuses :
    answer (exec (.setField 0 0 0xFFFFFFFB) four) = some (.badOperand, 0) ∧
    answer (exec (.setField 0 6 3) four) = some (.badOperand, 0) := by decide

-- section 3.9 and 45_header_codec.md R192
/-- dst 0, src -4, code 5 is of class CS: bytes 00 85. -/
theorem test_hdrEncode :
    let t := after (exec (.hdrEncode 0) four)
    [1, 2].map (t.bufRead 0) = [0x00, 0x85] ∧ (t.slot 0).hdrLen = 2 := by decide
/-- Byte F9 is dst -1, src -2, code 1. -/
theorem test_hdrDecode :
    let t := after (exec (.hdrDecode 0) (mk [{ owned20 with hdrLen := 1, store := [(2, 0xF9)] }]))
    ((t.slot 0).dst, (t.slot 0).src, (t.slot 0).code) = (-1, -2, 1) := by decide
theorem test_hdrDecode_no_header : answer (exec (.hdrDecode 0) four) = some (.corruptHeader, 0) := by decide

/-! ### Steps -/

/-- The word placed by `withFetchWord` is the next command the step runs. -/
theorem test_withFetchWord :
    answer (step (four.withFetchWord 96 0x250100030000000000000000)) = some (.ok, 0x4) := by decide
theorem test_step_illegal :
    answer (step (four.withFetchWord 96 0x370000000000000000000000)) = some (.illegalCommand, 0) := by decide
/-- An empty inbox: the block waits. -/
theorem test_step_waits : (after (step full)).inbox = [] ∧ after (step full) = full := by decide
/-- R52: the host reads the payload byte 3C of handle 0. -/
theorem test_hostRead :
    (after (step { four with inbox := [.access (.bufRead 0 4)] })).hostData = some 0x3C := by decide
/-- R230: after a reset no context is valid, and host memory stays. -/
theorem test_reset_event :
    let t := after (step { four with inbox := [.access .reset] })
    t.ctxs = List.replicate 4 Ctx.blank ∧ t.host = four.host := by decide
/-- R230: a reset after the first bytes of a command; what the host sends next is a command of its own. -/
theorem test_reset_inside_command :
    let t := after (step { four with inbox := [.byte 0x22, .byte 0, .access .reset, .byte 0x10] })
    t.ctxs = List.replicate 4 Ctx.blank ∧ t.inbox = [.byte 0x10] := by decide
/-- R52: the host reads between the bytes of a command, which then goes on. -/
theorem test_hostRead_inside_command :
    let t := after (step { four with inbox := [.byte 0x22, .access (.bufRead 1 3), .byte 0] })
    t.hostData = some 0x12 ∧ t.inbox = [.byte 0x22, .byte 0] := by decide
theorem test_reset_memory_wf : Memory.wf State.reset.host ∧ ∀ c ∈ State.reset.ctxs, Memory.wf c.store := by decide

/-! ### Witnesses: for each statement with hypotheses, states and operands that meet them, clause by clause -/

/-- An owned context of 17 of the 20 pool bytes; a free context is left. -/
def big : State := mk [{ owned20 with cap := 14 }, Ctx.blank]

/-- An owned context of 16 pool bytes, empty but for the free bytes. -/
def big13 : State := mk [{ owned20 with cap := 13 }, Ctx.blank]

/-- A full owned context of 20 content bits in 3 bytes and 4 more bits. -/
def brim : State := mk [{ owned20 with cap := 3, dataEnd := 6, dataEndOff := 0 }]

/-- `lent32` wholly extracted. -/
def read32 : Ctx := { lent32 with dataPos := 7, dataPosOff := 0 }

/-- `owned20` with 12 bits extracted. -/
def part20 : Ctx := { owned20 with dataPos := 4, dataPosOff := 4 }

/-- `owned20` with header bytes of one, two and three bytes (45_header_codec.md R192, R196). -/
def header1 : Ctx := { owned20 with hdrLen := 1, store := [(2, 0xF9)] }
def header2 : Ctx := { owned20 with hdrLen := 2, store := [(1, 0x00), (2, 0x85)] }
def header3 : Ctx := { owned20 with hdrLen := 3, store := [(0, 0x7F), (1, 0x7F), (2, 0xFF)] }

theorem next_after {o : Host.Outcome State Fault Refusal} (h : (answer o).isSome = true) : o = .next (after o) := by
  cases o <;> first | rfl | exact absurd h Bool.false_ne_true

theorem four_lowestFree : lowestFree four 3 := (newContext_eq_ok_iff_lowestFree four 3).1 (by decide)

theorem witness_CrcUpdateVFeedsTheBits :
    (1 ≤ (1 : Byte).toNat ∧ (1 : Byte).toNat ≤ 16) ∧ (1 ≤ (16 : Byte).toNat ∧ (16 : Byte).toNat ≤ 16) ∧
    ¬ (1 ≤ (0 : Byte).toNat ∧ (0 : Byte).toNat ≤ 16) ∧ ¬ (1 ≤ (17 : Byte).toNat ∧ (17 : Byte).toNat ≤ 16) := by decide

theorem witness_UpdateVComposes : 1 ≤ 1 ∧ 1 ≤ 15 ∧ 1 + 15 ≤ 16 ∧ 1 < 2 ^ 1 ∧ 32767 < 2 ^ 15 := by decide

theorem witness_CrcBlockFoldsUpdate :
    ((65535 : Word).toNat ≤ 65535 ∧ (List.replicate 65535 (0 : Byte)).length = (65535 : Word).toNat) ∧
    65535 < (65536 : Word).toNat := ⟨⟨by decide, List.length_replicate⟩, by decide⟩

/-- Section 3.3: widths 5 and 11 of the 16 bits A5 3C. -/
theorem witness_CrcIsIndependentOfThePartition :
    (∀ q ∈ [((5, 0x14) : Nat × Nat), (11, 0x53C)], 1 ≤ q.1 ∧ q.1 ≤ 16 ∧ q.2 < 2 ^ q.1) ∧
    [((5, 0x14) : Nat × Nat), (11, 0x53C)].flatMap (fun q => bitsOf q.2 q.1) =
      ([0xA5, 0x3C] : List Byte).flatMap (fun b => bitsOf b.toNat 8) := by decide

theorem witness_AllocateMakesAnOwnedContext :
    (¬ (1 ≤ (0 : Word).toNat ∧ (0 : Word).toNat ≤ 65532) ∧ ¬ (1 ≤ (65533 : Word).toNat ∧ (65533 : Word).toNat ≤ 65532)) ∧
    (1 ≤ (1 : Word).toNat ∧ (65532 : Word).toNat ≤ 65532) ∧ (∀ c ∈ full.ctxs, c.valid = true) ∧ lowestFree four 3 ∧
    ¬ poolAllows four (four.poolUsed + (11 : Word).toNat + 3) ∧
    poolAllows four (four.poolUsed + (10 : Word).toNat + 3) :=
  ⟨by decide, by decide, by decide, four_lowestFree, mt (poolHolds_iff_poolAllows _ _).2 (by decide),
    (poolHolds_iff_poolAllows _ _).1 (by decide)⟩

theorem witness_WrapBorrowsAWindow :
    ¬ (3 ≤ (2 : Word).toNat) ∧ ¬ ((0xFFFFFFFF : Word).toNat + (2 : Word).toNat ≤ 2 ^ 32) ∧
    (1 ≤ (2 : Word).toNat ∧ (65532 : Word).toNat ≤ 65532 ∧ 3 ≤ (3 : Word).toNat ∧
      (0xFFFFFFFE : Word).toNat + (2 : Word).toNat ≤ 2 ^ 32) ∧
    (∀ c ∈ full.ctxs, c.valid = true) ∧ lowestFree four 3 :=
  ⟨by decide, by decide, by decide, by decide, four_lowestFree⟩

theorem witness_DuplicateCopiesTheFieldsOnly :
    four.ctx? (3 : Byte).toNat = none ∧ four.ctx? (255 : Byte).toNat = none ∧ four.ctx? (0 : Byte).toNat = some owned20 ∧
    (∀ d ∈ full.ctxs, d.valid = true) ∧ full.ctx? (0 : Byte).toNat = some owned20 ∧ lowestFree four 3 :=
  ⟨by decide, by decide, by decide, by decide, by decide, four_lowestFree⟩

/-- The window of 3 bytes is the least the write cursor of handle 2 fits in. -/
theorem witness_AttachGivesStorage :
    four.ctx? (3 : Byte).toNat = none ∧ four.ctx? (2 : Byte).toNat = some copy20 ∧ copy20.own = .detached ∧
    four.ctx? (1 : Byte).toNat = some lent32 ∧ lent32.own ≠ .detached ∧
    (3 ≤ (3 : Word).toNat ∧ (3 : Word).toNat + (3 : Word).toNat ≤ 2 ^ 32) ∧
    8 * (copy20.dataOff.toNat + (2 : Word).toNat) < copy20.wc ∧
    ¬ 8 * (copy20.dataOff.toNat + (3 : Word).toNat) < copy20.wc := by decide

theorem witness_ReleaseFreesTheContext :
    four.ctx? (3 : Byte).toNat = none ∧ (four.ctx? (0 : Byte).toNat = some owned20 ∧ owned20.own = .owned) ∧
    four.ctx? (1 : Byte).toNat = some lent32 ∧ lent32.own ≠ .owned := by decide

theorem witness_GrowKeepsBytesAndCursors :
    four.ctx? (3 : Byte).toNat = none ∧ four.ctx? (1 : Byte).toNat = some lent32 ∧ lent32.own ≠ .owned ∧
    four.ctx? (0 : Byte).toNat = some owned20 ∧ owned20.own = .owned ∧
    (¬ (1 ≤ (0 : Word).toNat ∧ (0 : Word).toNat ≤ 65532) ∧ ¬ (1 ≤ (65533 : Word).toNat ∧ (65533 : Word).toNat ≤ 65532)) ∧
    (1 ≤ (4 : Word).toNat ∧ (4 : Word).toNat ≤ 65532 ∧ (4 : Word).toNat ≤ owned20.cap.toNat) ∧
    owned20.cap.toNat < (5 : Word).toNat ∧
    ¬ poolAllows four (four.poolUsed - owned20.cap.toNat + (18 : Word).toNat) ∧
    poolAllows four (four.poolUsed - owned20.cap.toNat + (17 : Word).toNat) :=
  ⟨by decide, by decide, by decide, by decide, by decide, by decide, by decide, by decide,
    mt (poolHolds_iff_poolAllows _ _).2 (by decide), (poolHolds_iff_poolAllows _ _).1 (by decide)⟩

/-- For every statement whose hypotheses are that a handle names no context, or that it names the context `c`, and the
invariant: both, for each kind of ownership. -/
theorem witness_handles :
    four.Inv ∧ four.ctx? (3 : Byte).toNat = none ∧ four.ctx? (4 : Byte).toNat = none ∧
    four.ctx? (0 : Byte).toNat = some owned20 ∧ four.ctx? (1 : Byte).toNat = some lent32 ∧
    four.ctx? (2 : Byte).toNat = some copy20 ∧
    owned20.own = .owned ∧ lent32.own = .borrowed ∧ copy20.own = .detached := by decide

theorem witness_StartCommandsResetTheCursors :
    four.ctx? (3 : Byte).toNat = none ∧ four.ctx? (2 : Byte).toNat = some copy20 := by decide

theorem witness_HasMoreComparesTheCursors :
    four.ctx? (3 : Byte).toNat = none ∧ (four.ctx? (1 : Byte).toNat = some lent32 ∧ lent32.rc < lent32.wc) ∧
    (mk [read32]).ctx? (0 : Byte).toNat =
      some read32 := by decide

/-- Room as it is, and room by growth from a full buffer. -/
theorem witness_AppendByteAppendsEightBits :
    (four.Inv ∧ four.ctx? (0 : Byte).toNat = some owned20 ∧ owned20.own ≠ .detached ∧ roomFor four owned20 8) ∧
    brim.Inv ∧ brim.ctx? (0 : Byte).toNat = some { owned20 with cap := 3, dataEnd := 6, dataEndOff := 0 } ∧
    roomFor brim { owned20 with cap := 3, dataEnd := 6, dataEndOff := 0 } 8 :=
  ⟨⟨by decide, by decide, by decide, (roomFor_iff _ _ _).2 (by decide)⟩, by decide, by decide,
    (roomFor_iff _ _ _).2 (by decide)⟩

/-- No bytes, and as many as the pool lets the buffer grow for. -/
theorem witness_AppendBytesAppendsEveryByte :
    four.Inv ∧ four.ctx? (0 : Byte).toNat = some owned20 ∧ owned20.own ≠ .detached ∧
    ((0 : Word).toNat ≤ 65535 ∧ ([] : List Byte).length = (0 : Word).toNat ∧ roomFor four owned20 (8 * ([] : List Byte).length)) ∧
    ((14 : Word).toNat ≤ 65535 ∧ (List.replicate 14 (0xA5 : Byte)).length = (14 : Word).toNat ∧
      roomFor four owned20 (8 * (List.replicate 14 (0xA5 : Byte)).length)) :=
  ⟨by decide, by decide, by decide, ⟨by decide, by decide, (roomFor_iff _ _ _).2 (by decide)⟩, by decide, by decide,
    (roomFor_iff _ _ _).2 (by decide)⟩

theorem witness_AppendsWithoutRoomAreRefused :
    (65535 < (65536 : Word).toNat ∧ ¬ (1 ≤ (0 : Byte).toNat ∧ (0 : Byte).toNat ≤ 16) ∧
      ¬ (1 ≤ (17 : Byte).toNat ∧ (17 : Byte).toNat ≤ 16)) ∧
    four.ctx? (1 : Byte).toNat = some lent32 ∧ lent32.own ≠ .detached ∧ ¬ roomFor four lent32 8 ∧
    ((1 : Word).toNat ≤ 65535 ∧ ([0] : List Byte).length = (1 : Word).toNat ∧ ¬ roomFor four lent32 (8 * ([0] : List Byte).length)) ∧
    (1 ≤ (1 : Byte).toNat ∧ (1 : Byte).toNat ≤ 16 ∧ ¬ roomFor four lent32 (1 : Byte).toNat) ∧
    four.ctx? (0 : Byte).toNat = some owned20 ∧ (15 : Word).toNat ≤ 65535 ∧
    (List.replicate 15 (0 : Byte)).length = (15 : Word).toNat ∧
    ¬ roomFor four owned20 (8 * (List.replicate 15 (0 : Byte)).length) :=
  ⟨by decide, by decide, by decide, mt (roomFor_iff _ _ _).1 (by decide),
    ⟨by decide, by decide, mt (roomFor_iff _ _ _).1 (by decide)⟩,
    ⟨by decide, by decide, mt (roomFor_iff _ _ _).1 (by decide)⟩, by decide, by decide, by decide,
    mt (roomFor_iff _ _ _).1 (by decide)⟩

/-- Width out of range, no storage, nothing unread, a full chunk and a short one. -/
theorem witness_ExtractChunkReadsTheNextBits :
    four.Inv ∧ four.ctx? (3 : Byte).toNat = none ∧ four.ctx? (0 : Byte).toNat = some owned20 ∧
    ¬ (1 ≤ (17 : Byte).toNat ∧ (17 : Byte).toNat ≤ 16) ∧ (1 ≤ (16 : Byte).toNat ∧ (16 : Byte).toNat ≤ 16) ∧
    (four.ctx? (2 : Byte).toNat = some copy20 ∧ copy20.own = .detached) ∧ owned20.wc ≠ owned20.rc ∧
    (mk [read32]).Inv ∧ read32.wc = read32.rc :=
  ⟨by decide, by decide, by decide, by decide, by decide, by decide, by decide, by decide, by decide⟩

/-- An empty owned message of 4 bytes whose bytes are 0. -/
def empty : State := mk [{ newCtx with own := .owned, cap := 4, store := [(3, 0), (4, 0), (5, 0), (6, 0)] }]

theorem witness_AppendedBytesAreExtractedAgain : ∃ c t u,
    empty.Inv ∧ empty.ctx? (0 : Byte).toNat = some c ∧ c.wc = c.ps ∧ (2 : Word).toNat ≤ 65535 ∧
    ([0x12, 0x34] : List Byte).length = (2 : Word).toNat ∧ exec (.appendBytes 0 2 [0x12, 0x34]) empty = .next t ∧
    t.resp = some ⟨.ok, 0⟩ ∧ exec (.startExtract 0) t = .next u :=
  ⟨empty.slot 0, after (exec (.appendBytes 0 2 [0x12, 0x34]) empty),
    after (exec (.startExtract 0) (after (exec (.appendBytes 0 2 [0x12, 0x34]) empty))), by decide, by decide, by decide,
    by decide, by decide, next_after (by decide +kernel), by decide +kernel, next_after (by decide +kernel)⟩

theorem witness_AddChunkAppendsItsBits :
    four.Inv ∧ four.ctx? (0 : Byte).toNat = some owned20 ∧ owned20.own ≠ .detached ∧
    (1 ≤ (1 : Byte).toNat ∧ (1 : Byte).toNat ≤ 16 ∧ roomFor four owned20 (1 : Byte).toNat) ∧
    (1 ≤ (16 : Byte).toNat ∧ (16 : Byte).toNat ≤ 16 ∧ roomFor four owned20 (16 : Byte).toNat) :=
  ⟨by decide, by decide, by decide, ⟨by decide, by decide, (roomFor_iff _ _ _).2 (by decide)⟩, by decide, by decide,
    (roomFor_iff _ _ _).2 (by decide)⟩

/-- `four` after the extraction of handle 0 in 16-bit chunks, A53C and the short chunk B with its marker. -/
def extracted : State :=
  { four with
    ctxs := [{ owned20 with dataPos := 5, dataPosOff := 4 }, lent32, copy20, Ctx.blank], resp := some ⟨.ok, 0x1B000⟩ }

/-- The two chunks are added to handle 1, which has room for 32 bits. -/
theorem witness_ReassembledChunksAreTheContent : ∃ v u,
    (four.Inv ∧ four.ctx? (0 : Byte).toNat = some owned20 ∧ owned20.rc = owned20.ps ∧
      1 ≤ (16 : Byte).toNat ∧ (16 : Byte).toNat ≤ 16) ∧
    extractRun 0 16 ((owned20.wc - owned20.ps + ((16 : Byte).toNat - 1)) / (16 : Byte).toNat) four =
      some ([0xA53C, 0x1B000], extracted) ∧
    exec (.startAdd 1) extracted = .next v ∧ v.resp = some ⟨.ok, 0⟩ ∧ addRun 1 16 [0xA53C, 0x1B000] v = some u :=
  ⟨after (exec (.startAdd 1) extracted),
    (addRun 1 16 [0xA53C, 0x1B000] (after (exec (.startAdd 1) extracted))).getD four, by decide, by decide +kernel,
    next_after (by decide), by decide, by decide +kernel⟩

/-- Two borrowed contexts over the same window. -/
def shared : State := mk [{ lent32 with dataEnd := 3, dataPosOff := 0 }, lent32]

/-- All 29 unread bits of handle 1 to handle 0, which grows; and one bit between overlapping windows. -/
theorem witness_AddFromCopiesUnreadBits :
    (four.Inv ∧ four.ctx? (0 : Byte).toNat = some owned20 ∧ four.ctx? (1 : Byte).toNat = some lent32 ∧
      (0 : Byte) ≠ 1 ∧ (29 : Word).toNat ≤ 65535 ∧ owned20.own ≠ .detached ∧ lent32.own ≠ .detached ∧
      (29 : Word).toNat ≤ lent32.wc - lent32.rc) ∧ roomFor four owned20 (29 : Word).toNat ∧
    (∀ j k, j < owned20.cap.toNat + 3 → k < lent32.cap.toNat + 3 →
      four.bufLoc (0 : Byte).toNat j ≠ four.bufLoc (1 : Byte).toNat k) ∧
    (shared.Inv ∧ shared.ctx? (0 : Byte).toNat = some { lent32 with dataEnd := 3, dataPosOff := 0 } ∧
      shared.ctx? (1 : Byte).toNat = some lent32 ∧ (1 : Word).toNat ≤ lent32.wc - lent32.rc) ∧
    roomFor shared { lent32 with dataEnd := 3, dataPosOff := 0 } (1 : Word).toNat :=
  ⟨by decide, (roomFor_iff _ _ _).2 (by decide),
    fun j k _ _ h => Loc.noConfusion (show Loc.own 0 j = Loc.host (lent32.base.toNat - 3 + k) from h), by decide,
    (roomFor_iff _ _ _).2 (by decide)⟩

theorem witness_AddFromIsRefusedInOrder :
    (four.ctx? (3 : Byte).toNat = none ∧ 65535 < (65536 : Word).toNat) ∧
    (four.ctx? (0 : Byte).toNat = some owned20 ∧ four.ctx? (1 : Byte).toNat = some lent32 ∧
      four.ctx? (2 : Byte).toNat = some copy20 ∧ (0 : Byte) ≠ 1 ∧ (0 : Byte) ≠ 2) ∧
    (copy20.own = .detached ∧ owned20.own ≠ .detached ∧ lent32.own ≠ .detached) ∧
    (lent32.wc - lent32.rc < (30 : Word).toNat ∧ (30 : Word).toNat ≤ 65535) ∧
    (20 : Word).toNat ≤ owned20.wc - owned20.rc ∧ ¬ roomFor four lent32 (20 : Word).toNat :=
  ⟨by decide, by decide, by decide, by decide, by decide, mt (roomFor_iff _ _ _).1 (by decide)⟩

theorem witness_DropRemovesTheLastBits :
    four.Inv ∧ four.ctx? (3 : Byte).toNat = none ∧ four.ctx? (2 : Byte).toNat = some copy20 ∧ copy20.own = .detached ∧
    (mk [part20]).Inv ∧
    part20.wc <
      part20.rc + (9 : Byte).toNat ∧
    ¬ part20.wc <
      part20.rc + (8 : Byte).toNat :=
  ⟨by decide, by decide, by decide, by decide, by decide, by decide, by decide⟩

theorem witness_AddChunkUndoesDrop : ∃ t v,
    four.Inv ∧ four.ctx? (1 : Byte).toNat = some lent32 ∧ exec (.drop 1 16) four = .next t ∧
    t.resp = some ⟨.ok, v⟩ := ⟨after (exec (.drop 1 16) four), 0x5678, by decide, by decide, rfl, by decide⟩

/-- The read cursor in the partial byte, and at its start. -/
theorem witness_AlignDropsThePartialByte :
    four.ctx? (3 : Byte).toNat = none ∧
    (mk [{ owned20 with dataPos := 5, dataPosOff := 1 }]).ctx? (0 : Byte).toNat =
      some { owned20 with dataPos := 5, dataPosOff := 1 } ∧
    8 * owned20.dataEnd.toNat < ({ owned20 with dataPos := 5, dataPosOff := 1 } : Ctx).rc ∧
    (mk [{ owned20 with dataPos := 5 }]).ctx? (0 : Byte).toNat = some { owned20 with dataPos := 5 } ∧
    ¬ 8 * owned20.dataEnd.toNat < ({ owned20 with dataPos := 5 } : Ctx).rc := by decide

/-- Every bit, no bit, and the last of the pool's bytes. -/
theorem witness_TruncateCopyCopiesThePrefix :
    (four.Inv ∧ four.ctx? (0 : Byte).toNat = some owned20 ∧ owned20.own ≠ .detached ∧
      (20 : Word).toNat ≤ owned20.wc - owned20.ps ∧ (0 : Word).toNat ≤ owned20.wc - owned20.ps) ∧ lowestFree four 3 ∧
    poolAllows four (four.poolUsed + max 1 (ceil8 (20 : Word).toNat) + 3) ∧
    poolAllows four (four.poolUsed + max 1 (ceil8 (0 : Word).toNat) + 3) ∧
    (big13.Inv ∧ big13.ctx? (0 : Byte).toNat = some { owned20 with cap := 13 }) ∧
    poolAllows big13 (big13.poolUsed + max 1 (ceil8 (8 : Word).toNat) + 3) :=
  ⟨by decide, four_lowestFree, (poolHolds_iff_poolAllows _ _).1 (by decide), (poolHolds_iff_poolAllows _ _).1 (by decide),
    by decide, (poolHolds_iff_poolAllows _ _).1 (by decide)⟩

theorem witness_TruncateCopyIsRefusedInOrder :
    (four.ctx? (3 : Byte).toNat = none ∧ four.ctx? (2 : Byte).toNat = some copy20 ∧ copy20.own = .detached) ∧
    (four.ctx? (0 : Byte).toNat = some owned20 ∧ owned20.own ≠ .detached ∧
      owned20.wc - owned20.ps < (21 : Word).toNat) ∧
    (full.ctx? (0 : Byte).toNat = some owned20 ∧ (20 : Word).toNat ≤ owned20.wc - owned20.ps ∧
      ∀ d ∈ full.ctxs, d.valid = true) ∧
    big.ctx? (0 : Byte).toNat = some { owned20 with cap := 14 } ∧
    ¬ poolAllows big (big.poolUsed + max 1 (ceil8 (1 : Word).toNat) + 3) :=
  ⟨by decide, by decide, by decide, by decide, mt (poolHolds_iff_poolAllows _ _).2 (by decide)⟩

theorem witness_AccessorsAnswerTheCursors :
    four.Inv ∧ four.ctx? (3 : Byte).toNat = none ∧ four.ctx? (0 : Byte).toNat = some owned20 ∧
    four.ctx? (1 : Byte).toNat = some lent32 := by decide

theorem witness_GetFieldAnswersEveryField :
    four.ctx? (3 : Byte).toNat = none ∧ four.ctx? (0 : Byte).toNat = some owned20 ∧
    four.ctx? (1 : Byte).toNat = some lent32 ∧ 14 < (15 : Byte).toNat := by decide

theorem witness_SetFieldWritesTheOneField :
    (four.Inv ∧ four.ctx? (3 : Byte).toNat = none ∧ four.ctx? (0 : Byte).toNat = some owned20) ∧
    (3 : Byte) ∉ ([0, 1, 2, 5, 10, 11] : List Byte) ∧
    ((1 : Byte).toNat < 2 ∧ (0xFFFFFFFB : Word).toInt < -4 ∧ 127 < (128 : Word).toInt) ∧
    255 < (256 : Word).toNat ∧ 3 < (4 : Word).toNat ∧ 5 < (6 : Word).toNat ∧
    (four.ctxs.length ≤ (4 : Word).toNat ∧ (4 : Word).toNat ≠ 255) ∧
    (-4 ≤ (0xFFFFFFFC : Word).toInt ∧ (0xFFFFFFFC : Word).toInt ≤ 127 ∧ (127 : Word).toInt ≤ 127) ∧
    (255 : Word).toNat ≤ 255 ∧ (3 : Word).toNat ≤ 3 ∧ (5 : Word).toNat = ResultTag.fatal.code ∧
    ((3 : Word).toNat < four.ctxs.length ∧ (255 : Word).toNat = 255) :=
  ⟨by decide, by decide, by decide, by decide, by decide, by decide, by decide, by decide, by decide, by decide,
    by decide, by decide⟩

/-- The largest code of the class of `owned20` (32 codes), and one more. -/
theorem witness_HdrEncodeWritesTheHeaderRow :
    four.Inv ∧ four.ctx? (3 : Byte).toNat = none ∧ (four.ctx? (2 : Byte).toNat = some copy20 ∧ copy20.own = .detached) ∧
    (mk [{ owned20 with code := 31 }]).Inv ∧ owned20.own ≠ .detached ∧
    (31 : Byte).toNat < classCodes owned20.dst.toInt owned20.src.toInt ∧
    classCodes owned20.dst.toInt owned20.src.toInt ≤ (32 : Byte).toNat ∧ (mk [{ owned20 with code := 32 }]).Inv :=
  ⟨by decide, by decide, by decide, by decide, by decide, by decide, by decide, by decide⟩

/-- One, two and three header bytes (45_header_codec.md R196). -/
theorem witness_HdrDecodeReadsTheHeaderRow :
    ((mk [header1]).Inv ∧ (addressInRange (0xFF : Byte).toInt ∧ addressInRange (0xFE : Byte).toInt ∧
      (1 : Byte).toNat < classCodes (0xFF : Byte).toInt (0xFE : Byte).toInt) ∧
      header1.hdrLen.toNat = classLen (0xFF : Byte).toInt (0xFE : Byte).toInt ∧
      (List.range header1.hdrLen.toNat).map
        (fun k => ((mk [header1]).bufRead (0 : Byte).toNat (3 - header1.hdrLen.toNat + k)).toNat) =
        headerRow (0xFF : Byte).toInt (0xFE : Byte).toInt (1 : Byte).toNat) ∧
    ((mk [header2]).Inv ∧ (addressInRange (0 : Byte).toInt ∧ addressInRange (0xFC : Byte).toInt ∧
      (5 : Byte).toNat < classCodes (0 : Byte).toInt (0xFC : Byte).toInt) ∧
      header2.hdrLen.toNat = classLen (0 : Byte).toInt (0xFC : Byte).toInt ∧
      (List.range header2.hdrLen.toNat).map
        (fun k => ((mk [header2]).bufRead (0 : Byte).toNat (3 - header2.hdrLen.toNat + k)).toNat) =
        headerRow (0 : Byte).toInt (0xFC : Byte).toInt (5 : Byte).toNat) ∧
    (mk [header3]).Inv ∧ (addressInRange (0x7F : Byte).toInt ∧
      (0xFF : Byte).toNat < classCodes (0x7F : Byte).toInt (0x7F : Byte).toInt) ∧
      header3.hdrLen.toNat = classLen (0x7F : Byte).toInt (0x7F : Byte).toInt ∧
      (List.range header3.hdrLen.toNat).map
        (fun k => ((mk [header3]).bufRead (0 : Byte).toNat (3 - header3.hdrLen.toNat + k)).toNat) =
        headerRow (0x7F : Byte).toInt (0x7F : Byte).toInt (0xFF : Byte).toNat :=
  ⟨⟨by decide, by decide, by decide, by decide⟩, ⟨by decide, by decide, by decide, by decide⟩, by decide, by decide,
    by decide, by decide⟩

theorem witness_HdrDecodeChecksTheAnnouncedLength :
    (four.Inv ∧ four.ctx? (3 : Byte).toNat = none ∧ four.ctx? (2 : Byte).toNat = some copy20 ∧
      copy20.own = .detached) ∧
    (four.ctx? (0 : Byte).toNat = some owned20 ∧ owned20.own ≠ .detached ∧ ¬ 1 ≤ owned20.hdrLen.toNat) ∧
    (mk [header3]).Inv ∧ (mk [header3]).ctx? (0 : Byte).toNat = some header3 ∧ header3.own ≠ .detached ∧
    1 ≤ header3.hdrLen.toNat ∧
    announcedLen ((mk [header3]).bufRead (0 : Byte).toNat (3 - header3.hdrLen.toNat))
      ((mk [header3]).bufRead (0 : Byte).toNat (3 - header3.hdrLen.toNat + 1)) = header3.hdrLen.toNat :=
  ⟨by decide, by decide, by decide, by decide, by decide, by decide, by decide⟩

/-- `four` after HDR_ENCODE of handle 0 with the three fields overwritten. -/
def overwritten : State :=
  mk [{ owned20 with
    src := 1, dst := 1, code := 1, hdrLen := 2, store := [(1, 0x00), (2, 0x85), (3, 0xA5), (4, 0x3C), (5, 0xB0)] }]

theorem witness_HeaderDecodeUndoesEncode : ∃ t d,
    (four.Inv ∧ overwritten.Inv ∧ four.ctx? (0 : Byte).toNat = some owned20) ∧
    exec (.hdrEncode 0) four = .next t ∧ t.resp = some ⟨.ok, 2⟩ ∧ t.ctx? (0 : Byte).toNat = some d ∧
    (overwritten.ctx? (0 : Byte).toNat = some (overwritten.slot 0) ∧ (overwritten.slot 0).own ≠ .detached) ∧
    (overwritten.slot 0).hdrLen = d.hdrLen ∧
    ∀ k, k < 3 → overwritten.bufRead (0 : Byte).toNat k = t.bufRead (0 : Byte).toNat k :=
  ⟨after (exec (.hdrEncode 0) four), (after (exec (.hdrEncode 0) four)).slot 0, ⟨by decide, by decide, by decide⟩, rfl,
    by decide, by decide,
    by decide, by decide, fun k hk => match k, hk with
      | 0, _ => rfl
      | 1, _ => by decide
      | 2, _ => by decide⟩

theorem witness_HeaderEncodeUndoesDecode : ∃ t,
    (mk [header1]).Inv ∧
    exec (.hdrDecode 0) (mk [header1]) = .next t ∧
    t.resp = some ⟨.ok, 1⟩ :=
  ⟨after (exec (.hdrDecode 0) (mk [header1])), by decide, rfl, by decide⟩

theorem witness_FailingCommandChangesNothing : ∃ t r,
    exec (.extractChunk 2 8) four = .next t ∧ t.resp = some r ∧ r.status ≠ .ok :=
  ⟨after (exec (.extractChunk 2 8) four), ⟨.invalidBufferOwnership, 0⟩, rfl, by decide, by decide⟩

theorem witness_BadHandleIsBadOperand :
    (3 : Byte) ∈ handlesOf (.addFrom 0 3 1) ∧ four.ctx? (3 : Byte).toNat = none ∧
    (255 : Byte) ∈ handlesOf (.hdrDecode 255) ∧ four.ctx? (255 : Byte).toNat = none := by decide

theorem witness_DetachedContextHasNoBytes :
    (four.ctx? (2 : Byte).toNat = some copy20 ∧ copy20.own = .detached) ∧
    ((0 : Word).toNat ≤ 65535 ∧ (65535 : Word).toNat ≤ 65535) ∧ (1 ≤ (1 : Byte).toNat ∧ (16 : Byte).toNat ≤ 16) ∧
    (1 ≤ (1 : Word).toNat ∧ (65532 : Word).toNat ≤ 65532) ∧
    (four.ctx? (0 : Byte).toNat = some owned20 ∧ (2 : Byte) ≠ 0) := by decide

/-- A command that changes host memory, and a context no command names. -/
theorem witness_OnlyNamedContextsChange : ∃ t,
    exec (.hdrEncode 1) four = .next t ∧ four.ctx? 0 = some owned20 ∧ ∀ h ∈ handlesOf (.hdrEncode 1), h.toNat ≠ 0 :=
  ⟨after (exec (.hdrEncode 1) four), rfl, by decide, by decide⟩

/-- Host memory with the window of handle 1 as in `four`, and another byte outside it. -/
theorem witness_HostMemoryIsTouchedInWindowsOnly :
    four.Inv ∧ inNamedWindow four (handlesOf (.hdrEncode 1)) 0xFD ∧ inNamedWindow four (handlesOf (.hdrEncode 1)) 0x103 ∧
    memGet (four.host ++ [(0x104, 0xEE)]) 0x104 ≠ memGet four.host 0x104 ∧
    ∀ a, inNamedWindow four (handlesOf (.hdrEncode 1)) a →
      memGet (four.host ++ [(0x104, 0xEE)]) a = memGet four.host a := by
  refine ⟨by decide, ⟨1, by decide, lent32, by decide⟩, ⟨1, by decide, lent32, by decide⟩, by decide, ?_⟩
  rintro a ⟨h, hh, c, hc, -, -, hlt⟩
  rw [show h = 1 by simpa [handlesOf] using hh, show four.ctx? (1 : Byte).toNat = some lent32 by decide,
    Option.some.injEq] at hc
  subst hc
  have ha : a < 260 := hlt
  have : a ≠ 260 := by omega
  simp [four, mk, memGet, this]

theorem witness_ResultAndNextAreTheHosts : ∃ t c d e,
    exec (.allocate 1) four = .next t ∧ (∀ ha hb x, Instr.allocate 1 ≠ .setField ha hb x) ∧
    (four.ctx? 0 = some c ∧ t.ctxs[0]? = some d) ∧ four.ctx? 3 = none ∧ t.ctx? 3 = some e :=
  ⟨after (exec (.allocate 1) four), owned20, owned20, (after (exec (.allocate 1) four)).slot 3, rfl, nofun, by decide,
    by decide, by decide⟩

/-- A state whose inbox holds a command, and the step that takes it. -/
theorem witness_StepKeepsTheInvariant : ∃ t,
    (four.withFetchWord 96 0x210000000000005500000000).Inv ∧
    step (four.withFetchWord 96 0x210000000000005500000000) = .next t ∧ t ≠ four :=
  ⟨after (step (four.withFetchWord 96 0x210000000000005500000000)), by decide, rfl, by decide⟩

theorem witness_ParametersNeverChange : ∃ t, step (four.withFetchWord 96 0x100000000000000100000000) = .next t :=
  ⟨after (step (four.withFetchWord 96 0x100000000000000100000000)), rfl⟩

theorem witness_AfterResetNoContextExists :
    (1 ≤ 1 ∧ 1 ≤ 255) ∧ (1 ≤ 255 ∧ 255 ≤ 255) ∧ (0 : Byte) ∈ handlesOf (.start 0) := by decide

theorem witness_ResetEventLosesTheContexts :
    decode [] = .error .incomplete ∧ decode [0x22, 0] = .error .incomplete ∧
    ({ four with inbox := [.access .reset] } : State).inbox = ([] : List Byte).map HostEvent.byte ++ .access .reset :: [] ∧
    ({ four with inbox := [.byte 0x22, .byte 0, .access .reset, .byte 0] } : State).inbox =
      ([0x22, 0] : List Byte).map HostEvent.byte ++ .access .reset :: [.byte 0] := by decide

/-- The lowest byte of the header reserve and the highest payload byte. -/
theorem witness_HostPortsReachOneByte :
    four.ctx? (1 : Byte).toNat = some lent32 ∧ lent32.own ≠ .detached ∧ 0 < lent32.cap.toNat + 3 ∧
    6 < lent32.cap.toNat + 3 ∧ decode [] = .error .incomplete ∧ decode [0x22, 0] = .error .incomplete ∧
    ({ four with inbox := [.byte 0x22, .byte 0, .access (.bufRead 1 0), .byte 0] } : State).inbox =
      ([0x22, 0] : List Byte).map HostEvent.byte ++ .access (.bufRead 1 0) :: [.byte 0] ∧
    ({ four with inbox := [.access (.bufWrite 1 6 0xA5)] } : State).inbox =
      ([] : List Byte).map HostEvent.byte ++ .access (.bufWrite 1 6 0xA5) :: [] := by decide

theorem witness_StepRunsTheDecodedCommand :
    decode (leadingBytes (four.withFetchWord 96 0x210000000000005500000000).inbox) = .ok (.appendByte 0 0x55, []) := by
  decide

theorem witness_IllegalOpcodeIsAnswered :
    ([0x37, 0, 0, 0, 0, 0, 0, 0, 0, 0, 0, 0] : List Byte).length = 12 ∧
    ((([0x37, 0, 0, 0, 0, 0, 0, 0, 0, 0, 0, 0] : List Byte).headD 0).toNat) ∉ [0x00, 0x01, 0x02, 0x03, 0x04, 0x08, 0x09,
      0x0A, 0x0B, 0x0C, 0x10, 0x11, 0x12, 0x13, 0x14, 0x15, 0x20, 0x21, 0x22, 0x23, 0x24, 0x25, 0x30, 0x31, 0x32, 0x33,
      0x34, 0x35, 0x36, 0x40, 0x41, 0x42, 0x43, 0x44, 0x45, 0x50, 0x51] ∧
    (four.withFetchWord 96 0x370000000000000000000000).inbox =
      ([0x37, 0, 0, 0, 0, 0, 0, 0, 0, 0, 0, 0] : List Byte).map HostEvent.byte ++ [] := by decide

/-- Two words of GROW that agree on `ha` and `x` and differ in every other field. -/
theorem witness_UnusedFieldsAreIgnored :
    (⟨0x14, 1, 0, 0, 4, 0⟩ : Fields).op = (⟨0x14, 1, 2, 3, 4, 5⟩ : Fields).op ∧ opcodeOf 0x14 = some .grow ∧
    (∀ n ∈ usedFields .grow, fieldValue ⟨0x14, 1, 0, 0, 4, 0⟩ n = fieldValue ⟨0x14, 1, 2, 3, 4, 5⟩ n) ∧
    fieldBytes ⟨0x14, 1, 0, 0, 4, 0⟩ ≠ fieldBytes ⟨0x14, 1, 2, 3, 4, 5⟩ := by decide

theorem witness_DecodeUndoesEncode : (Instr.appendBytes 0 2 [0xA5, 0x3C]).wellFormed = true := by decide

theorem witness_DecodedCommandsAreWellFormed :
    decode [0x22, 0, 0, 0, 0, 0, 0, 2, 0, 0, 0, 0, 0xA5, 0x3C, 0x50] =
      .ok (.appendBytes 0 2 [0xA5, 0x3C], [0x50]) := by decide

end Sys2Proof.Tests
end

section
/-! SUPPORT. The pool and well-formed contexts under each change a command makes to one context (10_state.md R13, R14,
R15, R21). -/

namespace Sys2Proof.Machine

/-! ### The pool under one change (10_state.md R21) -/

theorem sum_map_set {α : Type} (f : α → Nat) (d : α) {l : List α} {h : Nat} {c : α} (hc : l[h]? = some c) :
    ((l.set h d).map f).sum + f c = (l.map f).sum + f d := by
  induction l generalizing h with
  | nil => simp at hc
  | cons a l ih =>
    cases h with
    | zero =>
      obtain rfl : a = c := by simpa using hc
      simp only [List.set_cons_zero, List.map_cons, List.sum_cons]; omega
    | succ h =>
      have := ih (by simpa using hc)
      simp only [List.set_cons_succ, List.map_cons, List.sum_cons]; omega

/-- The pool after a slot's context `c` gave way to `d`: `c`'s share is returned and `d`'s is taken. -/
theorem poolUsed_putCtx {s : State} {h : Nat} {c : Ctx} (d : Ctx) (hc : s.ctxs[h]? = some c) :
    (s.putCtx h d).poolUsed + c.poolBytes = s.poolUsed + d.poolBytes :=
  sum_map_set Ctx.poolBytes d hc

theorem poolHolds_mono {s : State} {m n : Nat} (hmn : m ≤ n) (hn : s.poolHolds n = true) : s.poolHolds m = true := by
  rw [poolHolds_iff_poolAllows] at hn ⊢
  exact fun limit hl => hmn.trans (hn limit hl)

theorem poolBytes_owned {c : Ctx} (hv : c.valid = true) (ho : c.own = .owned) : c.poolBytes = c.cap.toNat + 3 := by
  simp [Ctx.poolBytes, hv, ho, Config.msgMaxHdr]

theorem poolBytes_not_owned {c : Ctx} (ho : c.own ≠ .owned) : c.poolBytes = 0 := by
  simp [Ctx.poolBytes, ho]

theorem poolBytes_invalid {c : Ctx} (hv : c.valid = false) : c.poolBytes = 0 := by
  simp [Ctx.poolBytes, hv]

/-! ### Well-formed contexts under each change of a context (10_state.md R13, R14, R15) -/

theorem wc_lt (c : Ctx) : c.wc < 524288 := by
  unfold Ctx.wc; omega

/-- The payload of a well-formed context starts behind the three reserve bytes. -/
theorem dataOff_of_wf {n : Nat} {c : Ctx} (hc : c.wf n) : c.dataOff.toNat = 3 := hc.1

/-- The write cursor of a context with storage stays inside it (R14). -/
theorem storage_of_wf {n : Nat} {c : Ctx} (hc : c.wf n) (ho : c.own ≠ .detached) :
    1 ≤ c.cap.toNat ∧ c.cap.toNat ≤ 65532 ∧ c.wc ≤ c.lim := by
  obtain ⟨-, -, -, -, -, -, -, -, -, hcap, -⟩ := hc
  exact hcap ho

theorem withRC_wf {n p : Nat} {c : Ctx} (hc : c.wf n) (hps : c.ps ≤ p) (hwc : p ≤ c.wc) : (c.withRC p).wf n := by
  have hrc : (c.withRC p).rc = p := withRC_rc c p (hwc.trans_lt (wc_lt c))
  obtain ⟨hoff, hhdr, -, -, hrest⟩ := hc
  exact ⟨hoff, hhdr, by simpa [hrc] using hps, by simpa [hrc] using hwc, hrest⟩

/-- The write cursor may go back as far as the read cursor, and forward as far as the storage goes. -/
theorem withWC_wf {n p : Nat} {c : Ctx} (hc : c.wf n) (hrc : c.rc ≤ p)
    (hp : p ≤ c.wc ∨ c.own ≠ .detached ∧ p ≤ c.lim) : (c.withWC p).wf n := by
  have hlim : c.own ≠ .detached → p ≤ c.lim := fun ho => by
    have := storage_of_wf hc ho
    omega
  have hlt : p < 524288 := by
    rcases hp with hp | ⟨ho, hp⟩
    · exact hp.trans_lt (wc_lt c)
    · have := storage_of_wf hc ho
      have := dataOff_of_wf hc
      unfold Ctx.lim at hp; omega
  have hwc : (c.withWC p).wc = p := withWC_wc c p hlt
  obtain ⟨hoff, hhdr, hps, -, hsrc, hdst, hnext, hmem, hdet, hcap, hrest⟩ := hc
  refine ⟨hoff, hhdr, hps, by simpa [hwc] using hrc, hsrc, hdst, hnext, hmem, hdet, fun ho => ?_, hrest⟩
  exact ⟨(hcap ho).1, (hcap ho).2.1, by simpa [hwc] using hlim ho⟩

/-- Both cursors at the payload start are in order whatever the storage (R120, R140). -/
theorem cursorsAtStart_wf {n : Nat} {c : Ctx} (hc : c.wf n) : ((c.withWC c.ps).withRC c.ps).wf n := by
  obtain ⟨-, -, hps, hrc, -⟩ := id hc
  have hr : (c.withRC c.ps).rc = c.ps := withRC_rc c c.ps ((hps.trans hrc).trans_lt (wc_lt c))
  exact withWC_wf (withRC_wf hc le_rfl (hps.trans hrc)) hr.le (.inl (hps.trans hrc))

/-- A written byte of an owned buffer keeps the buffer's cells in order and inside the buffer. -/
theorem storeSet_wf {n k : Nat} {c : Ctx} (v : Byte) (hc : c.wf n) (ho : c.own = .owned)
    (hk : k < c.cap.toNat + 3) : ({ c with store := memSet c.store k v } : Ctx).wf n := by
  obtain ⟨hoff, hhdr, hps, hrc, hsrc, hdst, hnext, hmem, -, hcap, hcells, -, hbase⟩ := hc
  refine ⟨hoff, hhdr, hps, hrc, hsrc, hdst, hnext, memSet_wf k v hmem, by simp [ho], hcap, fun _ x hx => ?_,
    by simp [ho], hbase⟩
  rcases mem_memSet hx with rfl | hx
  · exact hk
  · exact hcells ho x hx

theorem toNat_cap {m : Nat} (hm : m ≤ 65532) : (BitVec.ofNat 16 m).toNat = m := by
  rw [BitVec.toNat_ofNat]; omega

/-- An owned buffer may grow up to `CAP_MAX` (R102, R108). -/
theorem growCap_wf {n m : Nat} {c : Ctx} (hc : c.wf n) (ho : c.own = .owned) (hcm : c.cap.toNat ≤ m)
    (hm : m ≤ 65532) : ({ c with cap := BitVec.ofNat 16 m } : Ctx).wf n := by
  have hcap' := toNat_cap hm
  obtain ⟨hoff, hhdr, hps, hrc, hsrc, hdst, hnext, hmem, -, hcap, hcells, -, hbase⟩ := hc
  obtain ⟨hpos, -, hwc⟩ := hcap (by simp [ho])
  refine ⟨hoff, hhdr, hps, hrc, hsrc, hdst, hnext, hmem, by simp [ho], fun _ => ⟨?_, ?_, ?_⟩, fun _ x hx => ?_,
    by simp [ho], hbase⟩
  · simp only [hcap']; omega
  · exact hcap'.le.trans hm
  · exact hwc.trans (by simp only [Ctx.lim, hcap']; omega)
  · have := hcells ho x hx
    simp only [hcap']; omega

/-- A DETACHED context that is given an owned buffer of its own, with no byte written (R103, R145). -/
theorem ownStorage_wf {n m b : Nat} {c : Ctx} (hc : c.wf n) (ho : c.own = .detached) (hpos : 1 ≤ m) (hm : m ≤ 65532)
    (hwc : c.wc ≤ 8 * (c.dataOff.toNat + m)) :
    ({ c with own := .owned, cap := BitVec.ofNat 16 m, store := [], bufId := b } : Ctx).wf n := by
  have hcap' := toNat_cap hm
  obtain ⟨hoff, hhdr, hps, hrc, hsrc, hdst, hnext, -, -, -, -, -, hbase⟩ := hc
  refine ⟨hoff, hhdr, hps, hrc, hsrc, hdst, hnext, .nil, nofun, fun _ => ⟨?_, ?_, ?_⟩, nofun, nofun,
    fun _ => hbase (by simp [ho])⟩
  · simpa only [hcap'] using hpos
  · exact hcap'.le.trans hm
  · simp only [Ctx.lim, hcap']; exact hwc

/-- A DETACHED context that is lent a window of host memory (R104, R106). -/
theorem lendStorage_wf {n m : Nat} {b : Word} {c : Ctx} (hc : c.wf n) (ho : c.own = .detached)
    (hm : 1 ≤ m ∧ m ≤ 65532) (hb : 3 ≤ b.toNat ∧ b.toNat + m ≤ 4294967296)
    (hwc : c.wc ≤ 8 * (c.dataOff.toNat + m)) :
    ({ c with own := .borrowed, cap := BitVec.ofNat 16 m, base := b } : Ctx).wf n := by
  have hcap' := toNat_cap hm.2
  obtain ⟨hoff, hhdr, hps, hrc, hsrc, hdst, hnext, hmem, hdet, -⟩ := hc
  refine ⟨hoff, hhdr, hps, hrc, hsrc, hdst, hnext, hmem, nofun, fun _ => ⟨?_, ?_, ?_⟩, nofun,
    fun _ => ⟨(hdet ho).2, hb.1, ?_⟩, nofun⟩
  · simpa only [hcap'] using hm.1
  · exact hcap'.le.trans hm.2
  · simp only [Ctx.lim, hcap']; exact hwc
  · simp only [hcap']; exact hb.2

theorem initCtx_wf (n : Nat) : initCtx.wf n := by
  refine ⟨by decide, by decide, by decide, by decide, by decide, by decide, .inr rfl, .nil, by decide, by decide,
    by decide, by decide, by decide⟩

/-! ### Field values (10_state.md R13, 44_msg_access.md R175, 45_header_codec.md R194) -/

/-- A legal address keeps its value when cut to the eight bits of `src` and `dst`. -/
theorem addressInRange_cut {x : Word} (hx : addressInRange x.toInt) :
    addressInRange (BitVec.ofNat 8 x.toNat).toInt := by
  unfold addressInRange at *
  rw [BitVec.toInt_eq_toNat_cond] at *
  simp only [BitVec.toNat_ofNat]
  split at hx <;> split <;> omega

/-- SET_FIELD's range checks are those of R13, and it touches no storage (R175). -/
theorem withField_wf {n no : Nat} {x : Word} {c d : Ctx} (hn : n ≤ 255) (hc : c.wf n)
    (hd : c.withField n no x = .ok d) : d.wf n := by
  obtain ⟨hoff, hhdr, hps, hrc, hsrc, hdst, hnext, hst⟩ := hc
  unfold Ctx.withField at hd
  split at hd
  case h_1 =>
    split at hd <;> cases hd
    exact ⟨hoff, hhdr, hps, hrc, addressInRange_cut ‹_›, hdst, hnext, hst⟩
  case h_2 =>
    split at hd <;> cases hd
    exact ⟨hoff, hhdr, hps, hrc, hsrc, addressInRange_cut ‹_›, hnext, hst⟩
  case h_4 =>
    split at hd <;> cases hd
    have hlen : x.toNat % 2 ^ 2 ≤ c.dataOff.toNat := by omega
    exact ⟨hoff, by simpa using hlen, hps, hrc, hsrc, hdst, hnext, hst⟩
  case h_6 =>
    split at hd <;> cases hd
    next hx =>
      have hnext' : (BitVec.ofNat 8 x.toNat).toNat < n ∨ BitVec.ofNat 8 x.toNat = Config.noHandle := by
        rcases hx with hx | hx
        · left; rw [BitVec.toNat_ofNat]; omega
        · right; rw [hx]; rfl
      exact ⟨hoff, hhdr, hps, hrc, hsrc, hdst, hnext', hst⟩
  case h_7 => cases hd
  all_goals
    split at hd <;> cases hd
    exact ⟨hoff, hhdr, hps, hrc, hsrc, hdst, hnext, hst⟩

theorem withField_poolBytes {n no : Nat} {x : Word} {c d : Ctx} (hd : c.withField n no x = .ok d) :
    d.poolBytes = c.poolBytes := by
  unfold Ctx.withField at hd
  split at hd
  case h_7 => cases hd
  all_goals
    split at hd <;> cases hd
    rfl

theorem takeBits_lt {string n k v m : Nat} (ht : takeBits string n k = .ok (v, m)) : v < 2 ^ k := by
  unfold takeBits at ht
  split at ht <;> cases ht
  exact Nat.mod_lt _ (by positivity)

/-- An address that the header codec takes is one of R13's: -4 to -1 when short, 0 to 127 when long (R194). -/
theorem takeAddress_inRange {string n m : Nat} {short : Bool} {a : Byte}
    (ht : takeAddress string n = .ok (short, a, m)) : addressInRange a.toInt := by
  obtain ⟨⟨f, n1⟩, -, ht⟩ := bind_eq_ok.1 ht
  dsimp only at ht
  split at ht
  · obtain ⟨⟨v, n2⟩, hv, ht⟩ := bind_eq_ok.1 ht
    cases ht
    have hlt := takeBits_lt hv
    dsimp only
    interval_cases v <;> decide
  · obtain ⟨⟨v, n2⟩, hv, ht⟩ := bind_eq_ok.1 ht
    cases ht
    have hlt := takeBits_lt hv
    have ha : (BitVec.ofNat 8 v).toInt = v := by
      rw [BitVec.toInt_eq_toNat_cond, BitVec.toNat_ofNat]; split <;> omega
    simp only [addressInRange, ha]; omega

theorem decodeHeader_inRange {bytes : List Byte} {dst src code : Byte}
    (hd : decodeHeader bytes = .ok (dst, src, code)) : addressInRange dst.toInt ∧ addressInRange src.toInt := by
  obtain ⟨-, -, hd⟩ := bind_eq_ok.1 hd
  obtain ⟨⟨df, d, n1⟩, hdst, hd⟩ := bind_eq_ok.1 hd
  obtain ⟨⟨sf, r, n2⟩, hsrc, hd⟩ := bind_eq_ok.1 hd
  obtain ⟨-, -, hd⟩ := bind_eq_ok.1 hd
  obtain ⟨⟨c, n3⟩, -, hd⟩ := bind_eq_ok.1 hd
  cases hd
  exact ⟨takeAddress_inRange hdst, takeAddress_inRange hsrc⟩

end Sys2Proof.Machine
end

section
/-! SUPPORT. The invariant under each change of the state, and `KeepsBut`: what changes of some slots keep. -/

namespace Sys2Proof.Machine

/-! ### The invariant under each change of the state -/

/-- The invariant speaks of the contexts, the parameters and host memory only. -/
theorem inv_congr {s t : State} (hc : t.ctxs = s.ctxs) (hp : t.params = s.params) (hh : t.host = s.host)
    (hi : s.Inv) : t.Inv := by
  obtain ⟨⟩ := s
  obtain ⟨⟩ := t
  cases hc; cases hp; cases hh
  exact hi

theorem wf_of_ctx? {s : State} {h : Nat} {c : Ctx} (hi : s.Inv) (hc : s.ctx? h = some c) :
    c.wf s.ctxs.length := by
  obtain ⟨hslot, hv⟩ := ctx?_eq_some.1 hc
  obtain ⟨-, -, hwf, -⟩ := hi
  exact hwf c (List.mem_of_getElem? hslot) hv

/-- A slot may take any context that is well formed where it is valid and that the pool has room for, the share of the
old one returned. -/
theorem inv_putCtx {s : State} {h : Nat} {c d : Ctx} (hi : s.Inv) (hc : s.ctxs[h]? = some c)
    (hd : d.valid = true → d.wf s.ctxs.length)
    (hpool : s.poolHolds (s.poolUsed - c.poolBytes + d.poolBytes) = true) : (s.putCtx h d).Inv := by
  have hused := poolUsed_putCtx d hc
  obtain ⟨hpos, hmax, hwf, -, hhost⟩ := hi
  refine ⟨by simpa using hpos, by simpa using hmax, fun e he hv => ?_, ?_, hhost⟩
  · rw [putCtx_ctxs, List.length_set]
    rcases List.mem_or_eq_of_mem_set he with he | rfl
    · exact hwf e he hv
    · exact hd hv
  · exact poolHolds_mono (s := s) (by omega) hpool

theorem poolBytes_le_poolUsed {s : State} {h : Nat} {c : Ctx} (hc : s.ctxs[h]? = some c) :
    c.poolBytes ≤ s.poolUsed :=
  List.le_sum_of_mem (List.mem_map_of_mem (List.mem_of_getElem? hc))

/-- A slot may take any well-formed context that uses no more of the pool. -/
theorem inv_putCtx_of_le {s : State} {h : Nat} {c d : Ctx} (hi : s.Inv) (hc : s.ctxs[h]? = some c)
    (hd : d.valid = true → d.wf s.ctxs.length) (hle : d.poolBytes ≤ c.poolBytes) : (s.putCtx h d).Inv := by
  have hmem := poolBytes_le_poolUsed hc
  obtain ⟨-, -, -, hpool, -⟩ := id hi
  exact inv_putCtx hi hc hd (poolHolds_mono (by omega) hpool)

/-- A host byte inside the address space may be written (20_memory.md R40). -/
theorem inv_locWrite_host {s : State} {a : Nat} (v : Byte) (hi : s.Inv) (ha : a < 4294967296) :
    (s.locWrite (.host a) v).Inv := by
  obtain ⟨hpos, hmax, hwf, hpool, hmem, hspace⟩ := hi
  refine ⟨hpos, hmax, hwf, hpool, memSet_wf a v hmem, fun x hx => ?_⟩
  rcases mem_memSet hx with rfl | hx
  · exact ha
  · exact hspace x hx

/-- A byte exists exactly in a valid context with storage, up to the end of its payload (R41). -/
theorem bufByteExists_iff {s : State} {h k : Nat} : s.bufByteExists h k = true ↔
    ∃ c, s.ctx? h = some c ∧ c.own ≠ .detached ∧ k < c.cap.toNat + 3 := by
  unfold State.bufByteExists
  cases s.ctx? h with
  | none => simp
  | some c => simp only [Option.some.injEq, exists_eq_left']; exact decide_eq_true_iff

/-- A byte that exists may be written: in the owned buffer it belongs to, or in the window of host memory. -/
theorem inv_bufWrite {s : State} {h k : Nat} (v : Byte) (hi : s.Inv) (he : s.bufByteExists h k = true) :
    (s.bufWrite h k v).Inv := by
  obtain ⟨c, hc, hdet, hk⟩ := bufByteExists_iff.1 he
  have hwf := wf_of_ctx? hi hc
  unfold State.bufWrite State.bufLoc
  rw [slot_of_ctx? hc]
  split
  next hb =>
    obtain ⟨-, -, -, -, -, -, -, -, -, -, -, hwin, -⟩ := hwf
    obtain ⟨-, hlo, hhi⟩ := hwin hb
    simp only [Config.msgMaxHdr, Config.hostSpace] at hlo hhi
    exact inv_locWrite_host v hi (by omega)
  next hb =>
    have ho : c.own = .owned := by cases hown : c.own <;> simp_all
    rw [State.locWrite, mapCtx_of_ctx? _ hc]
    exact inv_putCtx_of_le hi (ctx?_eq_some.1 hc).1 (fun _ => storeSet_wf v hwf ho hk) le_rfl

/-- Writes into a buffer make no byte exist or cease to. -/
theorem Writes.ctx? {h : Nat} {P : Nat → Prop} {s t : State} {c : Ctx} (hw : Writes h P s t)
    (hc : s.ctx? h = some c) : ∃ m, t.ctx? h = some { c with store := m } := by
  obtain ⟨hslot, hv⟩ := ctx?_eq_some.1 hc
  obtain ⟨m, hm⟩ := hw.self hslot
  exact ⟨m, ctx?_eq_some.2 ⟨hm, hv⟩⟩

theorem Writes.bufByteExists {h k : Nat} {P : Nat → Prop} {s t : State} (hw : Writes h P s t)
    (he : s.bufByteExists h k = true) : t.bufByteExists h k = true := by
  obtain ⟨c, hc, hdet, hk⟩ := bufByteExists_iff.1 he
  obtain ⟨m, hm⟩ := hw.ctx? hc
  exact bufByteExists_iff.2 ⟨_, hm, hdet, hk⟩

theorem Writes.inv {h : Nat} {P : Nat → Prop} {s t : State} (hw : Writes h P s t) (hi : s.Inv)
    (he : ∀ k, P k → s.bufByteExists h k = true) : t.Inv := by
  induction hw with
  | refl => exact hi
  | step k v hw hk ih => exact inv_bufWrite v ih (hw.bufByteExists (he k hk))

/-! ### What a command keeps

`KeepsBut P s t`: `t` comes from `s` by changes of the slots in `P` and of nothing else but host memory, the inbox, the
outputs and the draw counter, and these changes keep the invariant. Every command is shown to be such a change once
(`exec_keepsBut`), and the three statements below read it off. -/

structure KeepsBut (P : Nat → Prop) (s t : State) : Prop where
  params : t.params = s.params
  length : t.ctxs.length = s.ctxs.length
  other : ∀ j, ¬ P j → t.ctxs[j]? = s.ctxs[j]?
  inv : s.Inv → t.Inv

theorem KeepsBut.of_eq {P : Nat → Prop} {s t : State} (hc : t.ctxs = s.ctxs) (hp : t.params = s.params)
    (hh : t.host = s.host) : KeepsBut P s t :=
  ⟨hp, by rw [hc], fun _ _ => by rw [hc], inv_congr hc hp hh⟩

theorem KeepsBut.refl {P : Nat → Prop} (s : State) : KeepsBut P s s := .of_eq rfl rfl rfl

theorem KeepsBut.trans {P : Nat → Prop} {s t u : State} (h1 : KeepsBut P s t) (h2 : KeepsBut P t u) :
    KeepsBut P s u :=
  ⟨h2.params.trans h1.params, h2.length.trans h1.length, fun j hj => (h2.other j hj).trans (h1.other j hj),
    h2.inv ∘ h1.inv⟩

theorem KeepsBut.mono {P Q : Nat → Prop} {s t : State} (hk : KeepsBut P s t) (hpq : ∀ j, P j → Q j) :
    KeepsBut Q s t :=
  ⟨hk.params, hk.length, fun j hj => hk.other j (mt (hpq j) hj), hk.inv⟩

theorem KeepsBut.putCtx {P : Nat → Prop} {s : State} {h : Nat} (d : Ctx) (hP : P h)
    (hi : s.Inv → (s.putCtx h d).Inv) : KeepsBut P s (s.putCtx h d) where
  params := rfl
  length := by simp
  other j hj := by
    have hne : h ≠ j := by rintro rfl; exact hj hP
    simp [hne]
  inv := hi

/-- A valid context changed in its fields alone. -/
theorem KeepsBut.mapCtx {P : Nat → Prop} {s : State} {h : Nat} {c : Ctx} {f : Ctx → Ctx} (hP : P h)
    (hc : s.ctx? h = some c) (hpool : (f c).poolBytes = c.poolBytes)
    (hwf : c.wf s.ctxs.length → (f c).wf s.ctxs.length) : KeepsBut P s (s.mapCtx h f) := by
  rw [mapCtx_of_ctx? f hc]
  exact .putCtx _ hP fun hi =>
    inv_putCtx_of_le hi (ctx?_eq_some.1 hc).1 (fun _ => hwf (wf_of_ctx? hi hc)) hpool.le

/-- An owned buffer that grows, the pool asked first (R102, R108). -/
theorem KeepsBut.growCap {P : Nat → Prop} {s : State} {h m : Nat} {c : Ctx} (hP : P h)
    (hc : s.ctx? h = some c) (ho : c.own = .owned) (hcm : c.cap.toNat ≤ m) (hm : m ≤ 65532)
    (hpool : s.poolHolds (s.poolUsed - c.cap.toNat + m) = true) :
    KeepsBut P s (s.mapCtx h fun d => { d with cap := BitVec.ofNat 16 m }) := by
  obtain ⟨hslot, hv⟩ := ctx?_eq_some.1 hc
  rw [mapCtx_of_ctx? _ hc]
  refine .putCtx _ hP fun hi => inv_putCtx hi hslot (fun _ => growCap_wf (wf_of_ctx? hi hc) ho hcm hm) ?_
  have hmem := poolBytes_le_poolUsed hslot
  have hc3 : c.poolBytes = c.cap.toNat + 3 := poolBytes_owned hv ho
  have hd3 : ({ c with cap := BitVec.ofNat 16 m } : Ctx).poolBytes = m + 3 := by
    simp [Ctx.poolBytes, hv, ho, toNat_cap hm, Config.msgMaxHdr]
  exact poolHolds_mono (by omega) hpool

/-- The context of a create command in the slot R101 gives it. -/
theorem KeepsBut.create {P : Nat → Prop} {s : State} {h : Nat} {d : Ctx} (hP : P h) (hn : newContext s = .ok h)
    (hd : s.Inv → d.wf s.ctxs.length ∧ s.poolHolds (s.poolUsed + d.poolBytes) = true) :
    KeepsBut P s (s.putCtx h d) := by
  obtain ⟨⟨c, hslot, hv⟩, -⟩ := newContext_eq_ok.1 hn
  refine .putCtx d hP fun hi => inv_putCtx hi hslot (fun _ => (hd hi).1) ?_
  rw [poolBytes_invalid hv]
  exact (hd hi).2

/-- A create command that takes nothing from the pool. -/
theorem KeepsBut.createUnowned {P : Nat → Prop} {s : State} {h : Nat} {d : Ctx} (hP : P h)
    (hn : newContext s = .ok h) (ho : d.own ≠ .owned) (hd : s.Inv → d.wf s.ctxs.length) :
    KeepsBut P s (s.putCtx h d) := by
  refine .create hP hn fun hi => ⟨hd hi, ?_⟩
  obtain ⟨-, -, -, hpool, -⟩ := hi
  rwa [poolBytes_not_owned ho]

/-- A create command that takes an owned buffer of `m` bytes, the pool asked first (R103, R145). -/
theorem KeepsBut.createOwned {P : Nat → Prop} {s : State} {h m : Nat} {c : Ctx} (hP : P h)
    (hn : newContext s = .ok h) (hpool : s.poolHolds (s.poolUsed + m + 3) = true) (hv : c.valid = true)
    (hd : s.Inv → m ≤ 65532 ∧
      ({ c with own := .owned, cap := BitVec.ofNat 16 m, store := [], bufId := s.fresh } : Ctx).wf s.ctxs.length) :
    KeepsBut P s (s.createOwned h m c) := by
  refine (KeepsBut.create hP hn fun hi => ?_).trans (.of_eq rfl rfl rfl)
  obtain ⟨hm, hwf⟩ := hd hi
  have hbytes : ({ c with own := .owned, cap := BitVec.ofNat 16 m, store := [], bufId := s.fresh } : Ctx).poolBytes =
      m + 3 := by simp [Ctx.poolBytes, hv, toNat_cap hm, Config.msgMaxHdr]
  exact ⟨hwf, by rw [hbytes]; exact hpool⟩

/-- Writes of bytes that exist, after a change that may have made them exist. -/
theorem KeepsBut.thenWrites {P Q : Nat → Prop} {s t u : State} {h : Nat} (hk : KeepsBut P s t) (hP : P h)
    (hw : Writes h Q t u) (he : s.Inv → ∀ k, Q k → t.bufByteExists h k = true) : KeepsBut P s u where
  params := hw.params.trans hk.params
  length := hw.length.trans hk.length
  other j hj := (hw.other (by rintro rfl; exact hj hP)).trans (hk.other j hj)
  inv hi := hw.inv (hk.inv hi) (he hi)

/-- A command that fails changes nothing but the response, so only what it does when it succeeds counts (R214). -/
theorem KeepsBut.of_complete {P : Nat → Prop} {s t : State} {r : Except Status (State × Word)}
    (h : complete s r = .next t) (hr : ∀ u v, r = .ok (u, v) → KeepsBut P s u) : KeepsBut P s t := by
  rcases complete_cases h with ⟨u, v, hok, rfl⟩ | ⟨st, -, rfl⟩
  · exact (hr u v hok).trans (.of_eq rfl rfl rfl)
  · exact .of_eq rfl rfl rfl

end Sys2Proof.Machine
end

section
/-! SUPPORT. Every command changes the slots it names or creates alone, and keeps the invariant (10_state.md R11,
R14). -/

namespace Sys2Proof.Machine

/-! ### What each command keeps -/

/-- The slots a command that names the handles `hs` may change: those it names, and those that hold no valid
context. -/
def reach (s : State) (hs : List Byte) (j : Nat) : Prop := (∃ h ∈ hs, h.toNat = j) ∨ s.ctx? j = none

theorem reach_named (s : State) {hs : List Byte} {h : Byte} (hh : h ∈ hs) : reach s hs h.toNat := .inl ⟨h, hh, rfl⟩

theorem reach_new {s : State} {h : Nat} (hs : List Byte) (hn : newContext s = .ok h) : reach s hs h := by
  obtain ⟨⟨c, hc, hv⟩, -⟩ := newContext_eq_ok.1 hn
  exact .inr (by simp [State.ctx?, hc, hv])

/-- A command that answers from the state it found. -/
theorem KeepsBut.of_respond {P : Nat → Prop} {s t : State} {v : Word} (h : respond s v = .next t) :
    KeepsBut P s t := by
  cases h
  exact .of_eq rfl rfl rfl

theorem KeepsBut.of_raise {P : Nat → Prop} {s t : State} {st : Status} (h : raise s st = .next t) :
    KeepsBut P s t := by
  cases h
  exact .of_eq rfl rfl rfl

/-- A command that after its one check answers from the state it found. -/
theorem KeepsBut.of_check {P : Nat → Prop} {α : Type} {s t : State} {check : Except Status α}
    {answer : α → Except Status (State × Word)} (h : complete s (check >>= answer) = .next t)
    (ha : ∀ a, ∃ v, answer a = .ok (s, v)) : KeepsBut P s t :=
  .of_complete h fun u v hr => by
    obtain ⟨a, -, hr⟩ := bind_eq_ok.1 hr
    obtain ⟨v', hv⟩ := ha a
    cases hv.symm.trans hr
    exact .refl _

/-- Room once made holds the bits, and the context is as before but for its capacity (R102). -/
theorem ensureRoom_keepsBut {P : Nat → Prop} {s t : State} {h n : Nat} {c : Ctx} (hP : P h)
    (hc : s.ctx? h = some c) (hr : ensureRoom s h c n = .ok t) :
    KeepsBut P s t ∧ ∃ cap, t.ctx? h = some { c with cap := cap } ∧ c.wc + n ≤ ({ c with cap := cap } : Ctx).lim := by
  rcases ensureRoom_eq_ok hr with ⟨hroom, rfl⟩ | ⟨hfull, ho, hcap, hpool, rfl⟩
  · exact ⟨.refl _, c.cap, hc, hroom⟩
  · have hcap' := toNat_cap hcap
    obtain ⟨hslot, hv⟩ := ctx?_eq_some.1 hc
    refine ⟨.growCap hP hc ho ?_ hcap hpool, BitVec.ofNat 16 (ceil8 (c.wc + n - c.ps)),
      ctx?_eq_some.2 ⟨by simp [hslot], hv⟩, ?_⟩
    · unfold Ctx.lim at hfull
      unfold ceil8 Ctx.ps
      omega
    · change c.wc + n ≤ 8 * (c.dataOff.toNat + (BitVec.ofNat 16 (ceil8 (c.wc + n - c.ps))).toNat)
      rw [hcap']
      unfold ceil8 Ctx.ps
      omega

/-- An append keeps the invariant: its bits fall into bytes that exist, and its cursor into the storage. -/
theorem appendBits_keepsBut {P : Nat → Prop} {s t : State} {h n v : Nat} {c : Ctx} (hP : P h)
    (hc : s.ctx? h = some c) (ho : c.own ≠ .detached) (ha : appendBits s h c n v = .ok t) : KeepsBut P s t := by
  obtain ⟨s1, hr, rfl⟩ := appendBits_eq_ok.1 ha
  obtain ⟨hk, cap, hc1, hroom⟩ := ensureRoom_keepsBut hP hc hr
  have hw := putBits_writes s1 h c.wc n v
  have hbytes : KeepsBut P s (s1.putBits h c.wc n v) := hk.thenWrites hP hw fun hi k ⟨_, hlt⟩ => by
    have hoff := dataOff_of_wf (wf_of_ctx? (hk.inv hi) hc1)
    unfold Ctx.lim at hroom
    simp only at hroom hoff
    exact bufByteExists_iff.2 ⟨_, hc1, ho, by simp only; omega⟩
  obtain ⟨m, hc2⟩ := hw.ctx? hc1
  refine hbytes.trans (.mapCtx hP hc2 rfl fun hwf => withWC_wf hwf ?_ (.inr ⟨ho, hroom⟩))
  obtain ⟨-, -, -, hrc, -⟩ := hwf
  exact hrc.trans (Nat.le_add_right _ _)

theorem initCtx_wc_le (m : Nat) : initCtx.wc ≤ 8 * (initCtx.dataOff.toNat + m) := by
  have hwc : initCtx.wc = 24 := rfl
  have hoff : initCtx.dataOff.toNat = 3 := rfl
  omega

section commands
variable {s t : State} {ha hb w : Byte} {x y : Word}

theorem execAllocate_keepsBut (h : execAllocate x s = .next t) : KeepsBut (reach s []) s t :=
  .of_complete h fun u v hr => by
    simp only [bind_eq_ok, needCap, need_eq_ok] at hr
    obtain ⟨-, ⟨hpos, hmax⟩, j, hn, -, hpool, hr⟩ := hr
    cases hr
    refine .createOwned (reach_new _ hn) hn hpool rfl fun _ => ⟨hmax, ?_⟩
    exact ownStorage_wf (initCtx_wf _) rfl hpos hmax (initCtx_wc_le _)

theorem execWrap_keepsBut (h : execWrap x y s = .next t) : KeepsBut (reach s []) s t :=
  .of_complete h fun u v hr => by
    simp only [bind_eq_ok, needCap, needBase, need_eq_ok] at hr
    obtain ⟨-, hcap, -, hbase, j, hn, hr⟩ := hr
    cases hr
    refine .createUnowned (reach_new _ hn) hn (by simp) fun _ => ?_
    have hlend := lendStorage_wf (initCtx_wf s.ctxs.length) rfl hcap hbase (initCtx_wc_le _)
    refine withWC_wf hlend ?_ (.inr ⟨by simp, ?_⟩)
    · simp [Ctx.ps, Ctx.rc, initCtx]
    · simp only [Ctx.lim, Ctx.ps, toNat_cap hcap.2]; omega

theorem execDuplicate_keepsBut (h : execDuplicate ha s = .next t) : KeepsBut (reach s [ha]) s t :=
  .of_complete h fun u v hr => by
    simp only [bind_eq_ok, needCtx_eq_ok] at hr
    obtain ⟨c, hc, j, hn, hr⟩ := hr
    cases hr
    refine .createUnowned (reach_new _ hn) hn (by simp [initCtx]) fun hi => ?_
    obtain ⟨hoff, hhdr, hps, hrc, hsrc, hdst, -⟩ := wf_of_ctx? hi hc
    obtain ⟨-, -, -, -, -, -, hnext, -⟩ := initCtx_wf s.ctxs.length
    exact ⟨hoff, hhdr, hps, hrc, hsrc, hdst, hnext, .nil, fun _ => ⟨rfl, rfl⟩, by simp [initCtx], nofun, nofun,
      fun _ => rfl⟩

theorem execAttach_keepsBut (h : execAttach ha x y s = .next t) : KeepsBut (reach s [ha]) s t :=
  .of_complete h fun u v hr => by
    simp only [bind_eq_ok, needCtx_eq_ok, needCap, needBase, need_eq_ok] at hr
    obtain ⟨c, hc, -, hcap, -, hbase, -, hdet, -, hroom, hr⟩ := hr
    cases hr
    exact .mapCtx (reach_named s (by simp)) hc (by simp [Ctx.poolBytes, hdet])
      fun hwf => lendStorage_wf hwf hdet hcap hbase hroom

theorem execRelease_keepsBut (h : execRelease ha s = .next t) : KeepsBut (reach s [ha]) s t :=
  .of_complete h fun u v hr => by
    simp only [bind_eq_ok, needCtx_eq_ok] at hr
    obtain ⟨c, hc, hr⟩ := hr
    cases hr
    rw [mapCtx_of_ctx? _ hc]
    refine .putCtx _ (reach_named s (by simp)) fun hi => inv_putCtx_of_le hi (ctx?_eq_some.1 hc).1 nofun ?_
    rw [poolBytes_invalid rfl]
    exact Nat.zero_le _

theorem execGrow_keepsBut (h : execGrow ha x s = .next t) : KeepsBut (reach s [ha]) s t :=
  .of_complete h fun u v hr => by
    simp only [bind_eq_ok, needCtx_eq_ok, needCap, need_eq_ok] at hr
    obtain ⟨c, hc, -, ⟨-, hmax⟩, -, ho, hr⟩ := hr
    split at hr
    · cases hr
      exact .refl _
    · simp only [bind_eq_ok, need_eq_ok] at hr
      obtain ⟨-, hpool, hr⟩ := hr
      cases hr
      exact .growCap (reach_named s (by simp)) hc ho (by omega) hmax hpool

theorem resetCursors_keepsBut {u : State} {v : Word} (hr : resetCursors s ha = .ok (u, v)) :
    KeepsBut (reach s [ha]) s u := by
  obtain ⟨c, hc, hr⟩ := bind_eq_ok.1 hr
  cases hr
  exact .mapCtx (reach_named s (by simp)) (needCtx_eq_ok.1 hc) rfl cursorsAtStart_wf

theorem execAppendByte_keepsBut (h : execAppendByte ha x s = .next t) : KeepsBut (reach s [ha]) s t :=
  .of_complete h fun u v hr => by
    simp only [bind_eq_ok, needCtx_eq_ok, needStore, need_eq_ok] at hr
    obtain ⟨c, hc, -, ho, u', happ, hr⟩ := hr
    cases hr
    exact appendBits_keepsBut (reach_named s (by simp)) hc ho happ

theorem execAppendBytes_keepsBut {data : List Byte} (h : execAppendBytes ha x data s = .next t) :
    KeepsBut (reach s [ha]) s t :=
  .of_complete h fun u v hr => by
    simp only [bind_eq_ok, needCtx_eq_ok, needStore, need_eq_ok] at hr
    obtain ⟨c, hc, -, -, -, ho, u', happ, hr⟩ := hr
    cases hr
    exact appendBits_keepsBut (reach_named s (by simp)) hc ho happ

theorem execStartExtract_keepsBut (h : execStartExtract ha s = .next t) : KeepsBut (reach s [ha]) s t :=
  .of_complete h fun u v hr => by
    simp only [bind_eq_ok, needCtx_eq_ok] at hr
    obtain ⟨c, hc, hr⟩ := hr
    cases hr
    refine .mapCtx (reach_named s (by simp)) hc rfl fun hwf => ?_
    obtain ⟨-, -, hps, hrc, -⟩ := id hwf
    exact withRC_wf hwf le_rfl (hps.trans hrc)

/-- The read cursor goes forward, at most to the write cursor. -/
theorem KeepsBut.advanceRC {P : Nat → Prop} {h p : Nat} {c : Ctx} (hP : P h) (hc : s.ctx? h = some c)
    (hrc : c.rc ≤ p) (hwc : p ≤ c.wc) : KeepsBut P s (s.mapCtx h fun d => d.withRC p) :=
  .mapCtx hP hc rfl fun hwf => by
    obtain ⟨-, -, hps, -⟩ := id hwf
    exact withRC_wf hwf (hps.trans hrc) hwc

theorem execExtractChunk_keepsBut (h : execExtractChunk ha w s = .next t) : KeepsBut (reach s [ha]) s t :=
  .of_complete h fun u v hr => by
    simp only [bind_eq_ok, needCtx_eq_ok, need_eq_ok] at hr
    obtain ⟨c, hc, -, -, -, -, -, hunread, hr⟩ := hr
    split at hr <;> cases hr
    · exact .advanceRC (reach_named s (by simp)) hc (by omega) (by omega)
    · exact .advanceRC (reach_named s (by simp)) hc hunread.le le_rfl

theorem execAddChunk_keepsBut (h : execAddChunk ha w x s = .next t) : KeepsBut (reach s [ha]) s t :=
  .of_complete h fun u v hr => by
    simp only [bind_eq_ok, needCtx_eq_ok, needStore, need_eq_ok] at hr
    obtain ⟨c, hc, -, -, -, ho, u', happ, hr⟩ := hr
    cases hr
    exact appendBits_keepsBut (reach_named s (by simp)) hc ho happ

/-- ADD_FROM appends to its destination alone, so its source is still as found when its read cursor moves. -/
theorem execAddFrom_keepsBut (h : execAddFrom ha hb x s = .next t) : KeepsBut (reach s [ha, hb]) s t :=
  .of_complete h fun u v hr => by
    simp only [bind_eq_ok, needCtx_eq_ok, needStore, need_eq_ok] at hr
    obtain ⟨c, hc, d, hd, -, hne, -, -, -, ho, -, -, -, hunread, u', happ, hr⟩ := hr
    cases hr
    have hk := appendBits_keepsBut (P := fun j => j = ha.toNat) rfl hc ho happ
    have hsrc : u'.ctx? hb.toNat = some d := by
      obtain ⟨hslot, hv⟩ := ctx?_eq_some.1 hd
      have hb' : hb.toNat ≠ ha.toNat := fun he => hne (BitVec.eq_of_toNat_eq he.symm)
      exact ctx?_eq_some.2 ⟨(hk.other _ hb').trans hslot, hv⟩
    have hmove : KeepsBut (reach s [ha, hb]) u' (u'.mapCtx hb.toNat fun e => e.withRC (d.rc + x.toNat)) := by
      refine .mapCtx (reach_named s (by simp)) hsrc rfl fun hwf => ?_
      obtain ⟨-, -, hps, hrc, -⟩ := id hwf
      exact withRC_wf hwf (by omega) (by omega)
    exact ((hk.mono fun j hj => hj ▸ reach_named s (by simp)).trans hmove).trans (.of_eq rfl rfl rfl)

theorem execDrop_keepsBut (h : execDrop ha w s = .next t) : KeepsBut (reach s [ha]) s t :=
  .of_complete h fun u v hr => by
    simp only [bind_eq_ok, needCtx_eq_ok, need_eq_ok] at hr
    obtain ⟨c, hc, -, -, -, -, -, hroom, hr⟩ := hr
    cases hr
    exact .mapCtx (reach_named s (by simp)) hc rfl fun hwf =>
      withWC_wf hwf (by omega) (.inl (Nat.sub_le _ _))

theorem dropPartialByte_eq_withWC (c : Ctx) :
    ({ c with dataEndOff := 0 } : Ctx) = c.withWC (8 * c.dataEnd.toNat) := by
  simp [Ctx.withWC]

theorem execAlign_keepsBut (h : execAlign ha s = .next t) : KeepsBut (reach s [ha]) s t :=
  .of_complete h fun u v hr => by
    simp only [bind_eq_ok, needCtx_eq_ok, need_eq_ok] at hr
    obtain ⟨c, hc, -, hread, hr⟩ := hr
    cases hr
    refine .mapCtx (reach_named s (by simp)) hc rfl fun hwf => ?_
    rw [dropPartialByte_eq_withWC]
    exact withWC_wf hwf hread (.inl (Nat.le_add_right _ _))

theorem execGetField_keepsBut (h : execGetField ha hb s = .next t) : KeepsBut (reach s [ha]) s t :=
  .of_complete h fun u v hr => by
    obtain ⟨c, -, hr⟩ := bind_eq_ok.1 hr
    split at hr <;> cases hr
    exact .refl _

theorem execSetField_keepsBut (h : execSetField ha hb x s = .next t) : KeepsBut (reach s [ha]) s t :=
  .of_complete h fun u v hr => by
    simp only [bind_eq_ok, needCtx_eq_ok] at hr
    obtain ⟨c, hc, d, hd, hr⟩ := hr
    cases hr
    refine .putCtx d (reach_named s (by simp)) fun hi => ?_
    obtain ⟨-, hmax, -⟩ := id hi
    exact inv_putCtx_of_le hi (ctx?_eq_some.1 hc).1 (fun _ => withField_wf hmax (wf_of_ctx? hi hc) hd)
      (withField_poolBytes hd).le

theorem headerLen_le (dst src : Byte) : headerLen dst src ≤ 3 := by
  unfold headerLen
  split <;> decide

theorem encodeHeader_length (dst src code : Byte) : (encodeHeader dst src code).length = headerLen dst src := by
  simp [encodeHeader, stringBytes]

theorem execHdrEncode_keepsBut (h : execHdrEncode ha s = .next t) : KeepsBut (reach s [ha]) s t :=
  .of_complete h fun u v hr => by
    simp only [bind_eq_ok, needCtx_eq_ok, needStore, need_eq_ok] at hr
    obtain ⟨c, hc, -, ho, -, -, hr⟩ := hr
    cases hr
    have hw := writeBytes_writes s ha.toNat (c.dataOff.toNat - headerLen c.dst c.src)
      (encodeHeader c.dst c.src c.code)
    rw [encodeHeader_length] at hw
    have hbytes := (KeepsBut.refl s).thenWrites (reach_named s (List.mem_singleton_self ha)) hw
      fun hi k ⟨_, hlt⟩ => bufByteExists_iff.2 ⟨c, hc, ho, by
        have hoff := dataOff_of_wf (wf_of_ctx? hi hc)
        have hlen := headerLen_le c.dst c.src
        omega⟩
    obtain ⟨m, hc'⟩ := hw.ctx? hc
    refine hbytes.trans (.mapCtx (reach_named s (by simp)) hc' rfl fun hwf => ?_)
    obtain ⟨hoff, -, hrest⟩ := hwf
    have hhdr (b : BitVec 2) : b.toNat ≤ c.dataOff.toNat := by
      have := b.isLt
      have : c.dataOff.toNat = 3 := hoff
      omega
    exact ⟨hoff, hhdr _, hrest⟩

theorem execHdrDecode_keepsBut (h : execHdrDecode ha s = .next t) : KeepsBut (reach s [ha]) s t :=
  .of_complete h fun u v hr => by
    simp only [bind_eq_ok, needCtx_eq_ok] at hr
    obtain ⟨c, hc, -, -, ⟨dst, src, code⟩, hdec, hr⟩ := hr
    cases hr
    refine .mapCtx (reach_named s (by simp)) hc rfl fun hwf => ?_
    obtain ⟨hoff, hhdr, hps, hrc, -, -, hrest⟩ := hwf
    obtain ⟨hdst, hsrc⟩ := decodeHeader_inRange hdec
    exact ⟨hoff, hhdr, hps, hrc, hsrc, hdst, hrest⟩

/-- The header fields of a context in a new one without storage, as TRUNCATE_COPY begins its copy (R145). -/
def Ctx.header (c : Ctx) : Ctx :=
  { initCtx with src := c.src, dst := c.dst, code := c.code, hdrLen := c.hdrLen }

theorem header_wf {n : Nat} {c : Ctx} (hc : c.wf n) : c.header.wf n := by
  obtain ⟨hoff, hhdr, -, -, hsrc, hdst, -⟩ := hc
  obtain ⟨hoff', -, hps, hrc, -, -, hrest⟩ := initCtx_wf n
  rw [hoff] at hhdr
  exact ⟨hoff', hhdr, hps, hrc, hsrc, hdst, hrest⟩

/-- The copy of `k` bits with just the storage they need; its storage is there before its cursor moves. -/
theorem header_copy_wf {n k b : Nat} {c : Ctx} (hc : c.wf n) (hk : max 1 (ceil8 k) ≤ 65532) :
    ({ c.header.withWC (24 + k) with
        own := .owned, cap := BitVec.ofNat 16 (max 1 (ceil8 k)), store := [], bufId := b } : Ctx).wf n := by
  have hown := ownStorage_wf (b := b) (header_wf hc) rfl (le_max_left 1 (ceil8 k)) hk (initCtx_wc_le _)
  refine withWC_wf (p := 24 + k) hown (Nat.le_add_right 24 k) (.inr ⟨by simp, ?_⟩)
  change 24 + k ≤ 8 * (3 + (BitVec.ofNat 16 (max 1 (ceil8 k))).toNat)
  rw [toNat_cap hk]
  unfold ceil8
  omega

/-- The header bytes of a copy end where its payload starts. -/
theorem headerBytes_length (s : State) (h : Nat) (c : Ctx) :
    3 - c.hdrLen.toNat + (s.headerBytes h c).length = 3 := by
  have hlt : c.hdrLen.toNat < 4 := c.hdrLen.isLt
  have hlen : (s.headerBytes h c).length = c.hdrLen.toNat := by simp [State.headerBytes]
  omega

theorem createOwned_ctx? {s : State} {h m : Nat} {c : Ctx} (hn : newContext s = .ok h) (hv : c.valid = true) :
    (s.createOwned h m c).ctx? h =
      some { c with own := .owned, cap := BitVec.ofNat 16 m, store := [], bufId := s.fresh } := by
  obtain ⟨⟨_, hslot, -⟩, -⟩ := newContext_eq_ok.1 hn
  obtain ⟨hlt, -⟩ := List.getElem?_eq_some_iff.1 hslot
  exact ctx?_eq_some.2 ⟨by simp [hlt], hv⟩

/-- The writes of TRUNCATE_COPY, header bytes, cleared bytes and bits, fall into the reserve and the bytes of its
`n` bits (R145). -/
theorem copy_writes (s : State) (h v n p : Nat) (header : List Byte) (hp : p + header.length = 3) :
    Writes h (fun k => k < 3 + ceil8 n) s
      (((s.writeBytes h p header).writeBytes h 3 (List.replicate (ceil8 n) 0)).putBits h 24 n v) := by
  refine (((writeBytes_writes s h p header).mono fun k hk => ?_).trans
    ((writeBytes_writes _ h 3 (List.replicate (ceil8 n) 0)).mono fun k hk => ?_)).trans
    ((putBits_writes _ h 24 n v).mono fun k hk => ?_)
  · omega
  · simpa using hk.2
  · unfold ceil8
    omega

theorem execTruncateCopy_keepsBut (h : execTruncateCopy ha x s = .next t) : KeepsBut (reach s [ha]) s t :=
  .of_complete h fun u v hr => by
    simp only [bind_eq_ok, needCtx_eq_ok, needStore, need_eq_ok] at hr
    obtain ⟨c, hc, -, ho, -, hlen, j, hn, -, hpool, hr⟩ := hr
    cases hr
    have hj := reach_new [ha] hn
    have hmax : s.Inv → max 1 (ceil8 x.toNat) ≤ 65532 := fun hi => by
      obtain ⟨-, hcap, hwc⟩ := storage_of_wf (wf_of_ctx? hi hc) ho
      unfold Ctx.lim at hwc
      unfold ceil8 Ctx.ps at *
      omega
    have hcreate : KeepsBut (reach s [ha]) s
        (s.createOwned j (max 1 (ceil8 x.toNat)) (c.header.withWC (24 + x.toNat))) :=
      .createOwned hj hn hpool rfl fun hi => ⟨hmax hi, header_copy_wf (wf_of_ctx? hi hc) (hmax hi)⟩
    refine hcreate.thenWrites hj (copy_writes _ j _ x.toNat _ _ (headerBytes_length s ha.toNat c)) fun hi k hk => ?_
    refine bufByteExists_iff.2 ⟨_, createOwned_ctx? hn rfl, by simp, ?_⟩
    simp only [toNat_cap (hmax hi)]
    omega

/-- What every command keeps: it changes the slots it names or creates and no others, and keeps the invariant. -/
theorem exec_keepsBut {i : Instr} (h : exec i s = .next t) : KeepsBut (reach s (handlesOf i)) s t := by
  cases i with
  | crc8Init => exact .of_respond h
  | crc8Update x y => exact .of_respond h
  | crc8UpdateV w x y => exact .of_check h fun _ => ⟨_, rfl⟩
  | crc8Finish y => exact .of_respond h
  | crc8Block x data => exact .of_check h fun _ => ⟨_, rfl⟩
  | crc16Init => exact .of_respond h
  | crc16Update x y => exact .of_respond h
  | crc16UpdateV w x y => exact .of_check h fun _ => ⟨_, rfl⟩
  | crc16Finish y => exact .of_respond h
  | crc16Block x data => exact .of_check h fun _ => ⟨_, rfl⟩
  | allocate x => exact execAllocate_keepsBut h
  | wrap x y => exact execWrap_keepsBut h
  | duplicate ha => exact execDuplicate_keepsBut h
  | release ha => exact execRelease_keepsBut h
  | grow ha x => exact execGrow_keepsBut h
  | attach ha x y => exact execAttach_keepsBut h
  | startSend ha => exact .of_complete h fun _ _ => resetCursors_keepsBut
  | appendByte ha x => exact execAppendByte_keepsBut h
  | appendBytes ha x data => exact execAppendBytes_keepsBut h
  | startExtract ha => exact execStartExtract_keepsBut h
  | hasMore ha => exact .of_check h fun _ => ⟨_, rfl⟩
  | extractChunk ha w => exact execExtractChunk_keepsBut h
  | startAdd ha => exact .of_complete h fun _ _ => resetCursors_keepsBut
  | addChunk ha w x => exact execAddChunk_keepsBut h
  | addFrom ha hb x => exact execAddFrom_keepsBut h
  | drop ha w => exact execDrop_keepsBut h
  | align ha => exact execAlign_keepsBut h
  | truncateCopy ha x => exact execTruncateCopy_keepsBut h
  | fillCrc ha hb w x => exact .of_raise h
  | start ha => exact .of_check h fun _ => ⟨_, rfl⟩
  | length ha => exact .of_check h fun _ => ⟨_, rfl⟩
  | bitLength ha => exact .of_check h fun _ => ⟨_, rfl⟩
  | sentBits ha => exact .of_check h fun _ => ⟨_, rfl⟩
  | getField ha hb => exact execGetField_keepsBut h
  | setField ha hb x => exact execSetField_keepsBut h
  | hdrEncode ha => exact execHdrEncode_keepsBut h
  | hdrDecode ha => exact execHdrDecode_keepsBut h

end commands

end Sys2Proof.Machine
end

section
/-! The statements about what every step keeps (10_state.md R11, R14, R19, R21). -/

namespace Sys2Proof.Machine

/-! ### What each step keeps, and the statements -/

/-- After a reset no context is left to be well formed or to use the pool (70_reset_and_hazards.md R230). -/
theorem inv_blankContexts {s : State} (hi : s.Inv) :
    ({ s with ctxs := List.replicate s.ctxs.length Ctx.blank } : State).Inv := by
  obtain ⟨hpos, hmax, -, hpool, hhost⟩ := hi
  have hused : ({ s with ctxs := List.replicate s.ctxs.length Ctx.blank } : State).poolUsed = 0 := by
    simp [State.poolUsed, poolBytes_invalid (c := Ctx.blank) rfl]
  refine ⟨by simpa using hpos, by simpa using hmax, fun c hc hv => ?_, ?_, hhost⟩
  · rw [List.eq_of_mem_replicate hc] at hv
    cases hv
  · rw [hused]
    exact poolHolds_mono (s := s) (Nat.zero_le _) hpool

/-- A host's access may change any slot, and keeps the invariant: a HostWrite reaches only a byte that exists. -/
theorem hostAccess_keepsBut {s t : State} {sent : List Byte} {a : HostAccess} {rest : List HostEvent}
    (h : hostAccess sent a rest s = .next t) : KeepsBut (fun _ => True) s t := by
  have hinbox (inbox : List HostEvent) : KeepsBut (fun _ => True) s { s with inbox := inbox } := .of_eq rfl rfl rfl
  rcases hostAccess_cases h with ⟨j, k, -, rfl⟩ | ⟨j, k, v, he, rfl⟩ | ⟨b, v, rfl⟩ | rfl
  · exact .of_eq rfl rfl rfl
  · exact (hinbox _).thenWrites (Q := fun i => i = k) trivial (.step k v (.refl _) rfl) fun _ i hik => hik ▸ he
  · exact (hinbox _).trans ⟨rfl, rfl, fun _ _ => rfl, fun hi => inv_locWrite_host v hi b.isLt⟩
  · exact ⟨rfl, by simp, fun _ hj => absurd trivial hj, fun hi => inv_congr rfl rfl rfl (inv_blankContexts hi)⟩

theorem step_keepsBut {s t : State} (h : step s = .next t) : KeepsBut (fun _ => True) s t := by
  have htake (n : Nat) : KeepsBut (fun _ => True) s (s.consume n) := .of_eq rfl rfl rfl
  unfold step at h
  split at h
  · exact (htake _).trans ((exec_keepsBut h).mono fun _ _ => trivial)
  · exact (htake _).trans (.of_raise h)
  · split at h
    · exact hostAccess_keepsBut h
    · cases h
      exact .refl _

/-- Settles O49: every command and every host access is a change that keeps the invariant. -/
theorem stepKeepsTheInvariant : Obligations.StepKeepsTheInvariant :=
  fun _ _ hi h => (step_keepsBut h).inv hi

/-- Settles O45: a valid slot whose handle is not named is out of the command's reach. -/
theorem onlyNamedContextsChange : Obligations.OnlyNamedContextsChange := by
  intro i s t j c h hc hnamed
  refine (exec_keepsBut h).other j ?_
  rintro (⟨b, hb, hbj⟩ | hfree)
  · exact hnamed b hb hbj
  · simp [hc] at hfree

/-- Settles O48: no change of a step is to the parameters or the number of slots. -/
theorem parametersNeverChange : Obligations.ParametersNeverChange :=
  fun _ _ h => ⟨(step_keepsBut h).params, (step_keepsBut h).length⟩

end Sys2Proof.Machine
end

section
/-! SUPPORT. The host's ports to a buffer that a valid context has (20_memory.md R41, R52). -/

namespace Sys2Proof.Machine

/-! ### HostRead and HostWrite -/

/-- The one byte of a HostWrite, as a run of writes into the buffer. -/
theorem bufWrite_writes (s : State) (h k : Nat) (v : Byte) : Writes h (fun j => j = k) s (s.bufWrite h k v) :=
  .step k v (.refl s) rfl

/-- A HostRead of a byte that exists, with the bytes `sent` of a half-sent command before it in the inbox (log 5). -/
theorem hostAccess_bufRead {s : State} {h : Byte} {k : Nat} {sent : List Byte} {rest : List HostEvent}
    (he : s.bufByteExists h.toNat k = true) : hostAccess sent (.bufRead h k) rest s =
      .next { s with inbox := sent.map HostEvent.byte ++ rest, hostData := some (s.bufRead h.toNat k) } :=
  if_pos he

/-- A HostWrite of a byte that exists, with the bytes `sent` of a half-sent command before it in the inbox (log 5). -/
theorem hostAccess_bufWrite {s : State} {h v : Byte} {k : Nat} {sent : List Byte} {rest : List HostEvent}
    (he : s.bufByteExists h.toNat k = true) : hostAccess sent (.bufWrite h k v) rest s =
      .next (({ s with inbox := sent.map HostEvent.byte ++ rest } : State).bufWrite h.toNat k v) :=
  if_pos he

/-- Settles O53: the access comes before the half-sent command, and a HostWrite is a write of one byte into one
buffer. -/
theorem hostPortsReachOneByte : Obligations.HostPortsReachOneByte := by
  intro s h v k c sent rest hc hown hk hsent
  have hexists : s.bufByteExists h.toNat k = true := bufByteExists_iff.2 ⟨c, hc, hown, hk⟩
  refine ⟨fun hinbox => ?_, fun hinbox => ?_⟩
  · rw [step_access hsent hinbox, hostAccess_bufRead hexists]
  · obtain ⟨hslot, -⟩ := ctx?_eq_some.1 hc
    obtain ⟨hlt, -⟩ := List.getElem?_eq_some_iff.1 hslot
    have hw := bufWrite_writes { s with inbox := sent.map HostEvent.byte ++ rest } h.toNat k v
    obtain ⟨m, hm⟩ := hw.self hslot
    have hread := bufRead_bufWrite { s with inbox := sent.map HostEvent.byte ++ rest } k k v hlt
    refine ⟨_, { c with store := m }, by rw [step_access hsent hinbox, hostAccess_bufWrite hexists], hw.inbox,
      by simpa using hread, fun l hl => hw.locRead l ?_, ⟨hw.length, fun j hj => hw.other hj⟩, hm, rfl, hw.resp,
      hw.hostData, hw.params, hw.fresh⟩
    rintro j rfl
    exact hl j le_rfl (Nat.lt_succ_self j)

end Sys2Proof.Machine
end

section
/-! SUPPORT. Two runs of one command whose host memories differ outside a set of addresses alone (20_memory.md R43):
what each operation that reads or writes a buffer keeps of that. -/

namespace Sys2Proof.Machine

/-! ### Places a command may touch -/

/-- The place is no host byte, or one whose address is in `W`. -/
def Loc.within (W : Nat → Prop) : Loc → Prop
  | .own _ _ => True
  | .host a => W a

/-- The host bytes of the buffer of handle `h` are in `W`. -/
def bufferWithin (W : Nat → Prop) (s : State) (h : Nat) : Prop :=
  ∀ c, s.ctx? h = some c → ∀ k, k < c.cap.toNat + 3 → (s.bufLoc h k).within W

/-- A buffer that is not BORROWED has no host byte (R42). -/
theorem within_of_not_borrowed {W : Nat → Prop} {s : State} {h : Nat} {c : Ctx} (hc : s.ctx? h = some c)
    (ho : c.own ≠ .borrowed) (k : Nat) : (s.bufLoc h k).within W := by
  simp [State.bufLoc, slot_of_ctx? hc, ho, Loc.within]

/-- The buffer of a context that a command names has its host bytes in the window of that context (R43). -/
theorem bufferWithin_named {s : State} {hs : List Byte} {h : Byte} (hi : s.Inv) (hh : h ∈ hs) :
    bufferWithin (inNamedWindow s hs) s h.toNat := by
  intro c hc k hk
  by_cases ho : c.own = .borrowed
  · obtain ⟨-, -, -, -, -, -, -, -, -, -, -, hwin, -⟩ := wf_of_ctx? hi hc
    obtain ⟨-, hbase, -⟩ := hwin ho
    have h3 : 3 ≤ c.base.toNat := hbase
    simp only [State.bufLoc, slot_of_ctx? hc, if_pos ho, Loc.within]
    exact ⟨h, hh, c, hc, ho, by omega, by omega⟩
  · exact within_of_not_borrowed hc ho k

section buffers
variable {W : Nat → Prop} {s : State} {h : Nat} {c : Ctx}

/-- The bytes before the write cursor of a well-formed context lie inside its buffer (R14, R41). -/
theorem bufferWithin.content (hb : bufferWithin W s h) (hi : s.Inv) (hc : s.ctx? h = some c) (k : Nat)
    (hk : 8 * k < c.wc) : (s.bufLoc h k).within W := by
  by_cases ho : c.own = .borrowed
  · have hwf := wf_of_ctx? hi hc
    obtain ⟨-, -, hwc⟩ := storage_of_wf hwf (by simp [ho])
    have hoff := dataOff_of_wf hwf
    unfold Ctx.lim at hwc
    exact hb c hc k (by omega)
  · exact within_of_not_borrowed hc ho k

/-- The header reserve lies inside the buffer (R41). -/
theorem bufferWithin.reserve (hb : bufferWithin W s h) (hc : s.ctx? h = some c) (k : Nat) (hk : k < 3) :
    (s.bufLoc h k).within W :=
  hb c hc k (by omega)

/-- The bytes that `ensure_room` has made room for lie inside the buffer; one that grows is owned (R102). -/
theorem bufferWithin.room {t : State} {n : Nat} (hb : bufferWithin W s h) (hi : s.Inv) (hc : s.ctx? h = some c)
    (hr : ensureRoom s h c n = .ok t) (k : Nat) (hk : 8 * k < c.wc + n) : (t.bufLoc h k).within W := by
  rcases ensureRoom_eq_ok hr with ⟨hroom, rfl⟩ | ⟨-, ho, -, -, rfl⟩
  · have hoff := dataOff_of_wf (wf_of_ctx? hi hc)
    unfold Ctx.lim at hroom
    exact hb c hc k (by omega)
  · obtain ⟨hslot, hv⟩ := ctx?_eq_some.1 hc
    refine within_of_not_borrowed (c := { c with cap := BitVec.ofNat 16 (ceil8 (c.wc + n - c.ps)) })
      (ctx?_eq_some.2 ⟨by simp [hslot], hv⟩) (by simp [ho]) k

end buffers

/-! ### Twin states -/

/-- `s` with another host memory. -/
abbrev State.withHost (s : State) (mem : Memory) : State := { s with host := mem }

/-- Two runs of one command, from host memories `m` and `n`, stand at `s` and `u`: they differ in host memory alone,
and there at most outside `W`, where neither has written. -/
structure Twin (W : Nat → Prop) (m n : Memory) (s u : State) : Prop where
  same : ∃ mem, u = s.withHost mem
  inside : ∀ a, W a → memGet u.host a = memGet s.host a
  outside : ∀ a, ¬ W a → memGet s.host a = memGet m a ∧ memGet u.host a = memGet n a

section twins
variable {W : Nat → Prop} {m n : Memory} {s u : State} {h : Nat}

/-- An update that neither reads nor writes host memory. -/
theorem Twin.update {f : State → State} (ht : Twin W m n s u)
    (hf : ∀ s mem, f (s.withHost mem) = (f s).withHost mem) : Twin W m n (f s) (f u) := by
  obtain ⟨⟨mem, rfl⟩, hin, hout⟩ := ht
  have hs : (f s).host = s.host := by
    rw [show f s = (f s).withHost s.host from hf s s.host]
  rw [hf s mem]
  exact ⟨⟨mem, rfl⟩, by simpa [hs] using hin, by simpa [hs] using hout⟩

theorem Twin.mapCtx (ht : Twin W m n s u) (h : Nat) (f : Ctx → Ctx) : Twin W m n (s.mapCtx h f) (u.mapCtx h f) :=
  ht.update (f := (·.mapCtx h f)) fun _ _ => rfl

theorem Twin.putCtx (ht : Twin W m n s u) (h : Nat) (c : Ctx) : Twin W m n (s.putCtx h c) (u.putCtx h c) :=
  ht.update (f := (·.putCtx h c)) fun _ _ => rfl

theorem Twin.createOwned (ht : Twin W m n s u) (h cap : Nat) (c : Ctx) :
    Twin W m n (s.createOwned h cap c) (u.createOwned h cap c) :=
  ht.update (f := (·.createOwned h cap c)) fun _ _ => rfl

theorem Twin.bufLoc (ht : Twin W m n s u) (k : Nat) : u.bufLoc h k = s.bufLoc h k := by
  obtain ⟨⟨mem, rfl⟩, -, -⟩ := ht
  rfl

theorem Twin.locRead (ht : Twin W m n s u) {l : Loc} (hl : l.within W) : u.locRead l = s.locRead l := by
  obtain ⟨⟨mem, rfl⟩, hin, -⟩ := ht
  cases l with
  | own h k => rfl
  | host a => exact congrArg (·.getD (Config.hostByte a)) (hin a hl)

theorem Twin.locWrite (ht : Twin W m n s u) {l : Loc} (v : Byte) (hl : l.within W) :
    Twin W m n (s.locWrite l v) (u.locWrite l v) := by
  cases l with
  | own h k => exact ht.update (f := fun s => s.locWrite (.own h k) v) fun _ _ => rfl
  | host a =>
    obtain ⟨⟨mem, rfl⟩, hin, hout⟩ := ht
    refine ⟨⟨memSet mem a v, rfl⟩, fun b hb => ?_, fun b hb => ?_⟩
    · by_cases hba : b = a
      · subst hba
        simp only [State.locWrite, memGet_memSet_same]
      · simpa only [State.locWrite, memGet_memSet_other _ v hba] using hin b hb
    · have hba : b ≠ a := by rintro rfl; exact hb hl
      simpa only [State.locWrite, memGet_memSet_other _ v hba] using hout b hb

theorem Twin.bufRead (ht : Twin W m n s u) {k : Nat} (hk : (s.bufLoc h k).within W) :
    u.bufRead h k = s.bufRead h k := by
  rw [State.bufRead, ht.bufLoc, ht.locRead hk, State.bufRead]

theorem Twin.bufWrite (ht : Twin W m n s u) {k : Nat} (v : Byte) (hk : (s.bufLoc h k).within W) :
    Twin W m n (s.bufWrite h k v) (u.bufWrite h k v) := by
  rw [State.bufWrite, State.bufWrite, ht.bufLoc]
  exact ht.locWrite v hk

theorem Twin.writeBytes (ht : Twin W m n s u) (k : Nat) (data : List Byte)
    (hk : ∀ j, j < k + data.length → (s.bufLoc h j).within W) :
    Twin W m n (s.writeBytes h k data) (u.writeBytes h k data) := by
  induction data generalizing s u k with
  | nil => exact ht
  | cons v vs ih =>
    rw [List.length_cons] at hk
    refine ih (ht.bufWrite v (hk k (by omega))) (k + 1) fun j hj => ?_
    rw [bufWrite_bufLoc]
    exact hk j (by omega)

theorem Twin.getBits (ht : Twin W m n s u) {p len : Nat} (hk : ∀ k, 8 * k < p + len → (s.bufLoc h k).within W) :
    u.getBits h p len = s.getBits h p len :=
  getBits_congr fun i hi => by
    rw [State.bufBit, ht.bufRead (hk _ (by omega)), State.bufBit]

theorem Twin.putBits (ht : Twin W m n s u) (p len v : Nat)
    (hk : ∀ k, 8 * k < p + len → (s.bufLoc h k).within W) :
    Twin W m n (s.putBits h p len v) (u.putBits h p len v) := by
  induction len generalizing v with
  | zero => exact ht
  | succ len ih =>
    have hbits := ih (v / 2) fun k hlt => hk k (by omega)
    have hbyte : ((s.putBits h p len (v / 2)).bufLoc h ((p + len) / 8)).within W := by
      rw [(putBits_writes s h p len (v / 2)).bufLoc]
      exact hk _ (by omega)
    simp only [State.putBits, State.putBit, hbits.bufRead hbyte]
    exact hbits.bufWrite _ hbyte

theorem Twin.headerBytes (ht : Twin W m n s u) {c : Ctx} (hc : c.dataOff.toNat = 3)
    (hk : ∀ k, k < 3 → (s.bufLoc h k).within W) : u.headerBytes h c = s.headerBytes h c :=
  List.map_congr_left fun k hlt => ht.bufRead (hk _ (by
    have hlen : c.hdrLen.toNat < 4 := c.hdrLen.isLt
    have hklt := List.mem_range.1 hlt
    omega))

end twins

/-! ### Twin results -/

/-- Two checked computations that fail with one status, or succeed with results that `R` relates. -/
inductive Alike {α : Type} (R : α → α → Prop) : Except Status α → Except Status α → Prop
  | ok {a b : α} : R a b → Alike R (.ok a) (.ok b)
  | error (st : Status) : Alike R (.error st) (.error st)

/-- Two computations that begin with the same check are alike when what follows it is. -/
theorem Alike.check {α β : Type} {R : β → β → Prop} {m : Except Status α} {f g : α → Except Status β}
    (hf : ∀ a, m = .ok a → Alike R (f a) (g a)) : Alike R (m >>= f) (m >>= g) := by
  cases m with
  | ok a => exact hf a rfl
  | error st => exact .error st

/-- Two computations whose first parts are alike are alike when what follows these is. -/
theorem Alike.bind {α β : Type} {Q : α → α → Prop} {R : β → β → Prop} {m m' : Except Status α}
    {f g : α → Except Status β} (hm : Alike Q m m') (hf : ∀ a b, Q a b → Alike R (f a) (g b)) :
    Alike R (m >>= f) (m' >>= g) := by
  cases hm with
  | ok hab => exact hf _ _ hab
  | error st => exact .error st

/-- Two runs of a command that end in twin states. -/
def TwinRun (W : Nat → Prop) (m n : Memory) (o o' : Host.Outcome State Fault Refusal) : Prop :=
  ∃ t u, o = .next t ∧ o' = .next u ∧ Twin W m n t u

section answers
variable {W : Nat → Prop} {m n : Memory} {s u : State}

/-- Twin states and the same value, as two runs of a command's body answer them. -/
theorem Alike.answer {v : Word} (ht : Twin W m n s u) :
    Alike (fun p q => Twin W m n p.1 q.1 ∧ q.2 = p.2) (.ok (s, v)) (.ok (u, v)) :=
  .ok ⟨ht, rfl⟩

theorem TwinRun.of_respond (ht : Twin W m n s u) (v : Word) : TwinRun W m n (respond s v) (respond u v) :=
  ⟨_, _, rfl, rfl, ht.update (f := fun s => { s with resp := some ⟨.ok, v⟩ }) fun _ _ => rfl⟩

theorem TwinRun.of_raise (ht : Twin W m n s u) (st : Status) : TwinRun W m n (raise s st) (raise u st) :=
  ⟨_, _, rfl, rfl, ht.update (f := fun s => { s with resp := some ⟨st, 0⟩ }) fun _ _ => rfl⟩

theorem TwinRun.of_complete {r r' : Except Status (State × Word)} (ht : Twin W m n s u)
    (hr : Alike (fun p q => Twin W m n p.1 q.1 ∧ q.2 = p.2) r r') :
    TwinRun W m n (complete s r) (complete u r') := by
  cases hr with
  | @ok p q hpq =>
    obtain ⟨t, v⟩ := p
    obtain ⟨t', v'⟩ := q
    obtain ⟨htwin, rfl⟩ := hpq
    exact .of_respond htwin v'
  | error st => exact .of_raise ht st

end answers

end Sys2Proof.Machine
end

section
/-! SUPPORT. Every command, run on twin states, ends in twin states, and the statement that follows (20_memory.md
R43). -/

namespace Sys2Proof.Machine

/-! ### Each command on twin states

The second state is the first with another host memory, so a check that reads no buffer byte is the same check in both
runs, and `Alike.check` goes past it. -/

section commands
variable {W : Nat → Prop} {m n mem : Memory} {s : State} {ha hb w : Byte} {x y : Word}

theorem ensureRoom_withHost (h len : Nat) (c : Ctx) :
    ensureRoom (s.withHost mem) h c len = (ensureRoom s h c len).map (·.withHost mem) := by
  simp only [ensureRoom, apply_ite (Except.map _)]
  rfl

theorem ensureRoom_alike {h len : Nat} {c : Ctx} (ht : Twin W m n s (s.withHost mem)) :
    Alike (fun t u => Twin W m n t u ∧ ensureRoom s h c len = .ok t) (ensureRoom s h c len)
      (ensureRoom (s.withHost mem) h c len) := by
  rw [ensureRoom_withHost (s := s) (mem := mem)]
  cases hr : ensureRoom s h c len with
  | error st => exact .error st
  | ok t =>
    refine .ok ⟨?_, rfl⟩
    rcases ensureRoom_eq_ok hr with ⟨-, rfl⟩ | ⟨-, -, -, -, rfl⟩
    · exact ht
    · exact ht.update (f := fun s => s.mapCtx h fun d => { d with cap := _ }) fun _ _ => rfl

/-- Appending the same bits to the same context. -/
theorem appendBits_alike {h len v : Nat} {c : Ctx} (ht : Twin W m n s (s.withHost mem)) (hi : s.Inv)
    (hbuf : bufferWithin W s h) (hc : s.ctx? h = some c) :
    Alike (Twin W m n) (appendBits s h c len v) (appendBits (s.withHost mem) h c len v) :=
  (ensureRoom_alike ht).bind fun _ _ ⟨htwin, hr⟩ => .ok <|
    (htwin.putBits c.wc len v (hbuf.room hi hc hr)).update (f := (·.mapCtx h (·.withWC (c.wc + len)))) fun _ _ => rfl

/-- A command that after its one check answers from the state it found. -/
theorem TwinRun.of_check {α : Type} {check : Except Status α} {value : α → Word}
    (ht : Twin W m n s (s.withHost mem)) :
    TwinRun W m n (complete s (check >>= fun a => .ok (s, value a)))
      (complete (s.withHost mem) (check >>= fun a => .ok (s.withHost mem, value a))) :=
  .of_complete ht <| .check fun _ _ => .answer ht

/-- A command that after its one check changes one context. -/
theorem TwinRun.of_checkMapCtx {α : Type} {check : Except Status α} {h : Nat} {f : α → Ctx → Ctx} {value : α → Word}
    (ht : Twin W m n s (s.withHost mem)) :
    TwinRun W m n (complete s (check >>= fun a => .ok (s.mapCtx h (f a), value a)))
      (complete (s.withHost mem) (check >>= fun a => .ok ((s.withHost mem).mapCtx h (f a), value a))) :=
  .of_complete ht <| .check fun a _ => .answer (ht.mapCtx h (f a))

theorem execAllocate_twin (ht : Twin W m n s (s.withHost mem)) :
    TwinRun W m n (execAllocate x s) (execAllocate x (s.withHost mem)) :=
  .of_complete ht <| .check fun _ _ => .check fun h _ => .check fun _ _ => .answer (ht.createOwned h x.toNat initCtx)

theorem execWrap_twin (ht : Twin W m n s (s.withHost mem)) :
    TwinRun W m n (execWrap x y s) (execWrap x y (s.withHost mem)) :=
  .of_complete ht <| .check fun _ _ => .check fun _ _ => .check fun h _ => .answer (ht.putCtx h _)

theorem execDuplicate_twin (ht : Twin W m n s (s.withHost mem)) :
    TwinRun W m n (execDuplicate ha s) (execDuplicate ha (s.withHost mem)) :=
  .of_complete ht <| .check fun _ _ => .check fun h _ => .answer (ht.putCtx h _)

theorem execAttach_twin (ht : Twin W m n s (s.withHost mem)) :
    TwinRun W m n (execAttach ha x y s) (execAttach ha x y (s.withHost mem)) :=
  .of_complete ht <| .check fun _ _ => .check fun _ _ => .check fun _ _ => .check fun _ _ => .check fun _ _ =>
    .answer (ht.mapCtx _ _)

theorem execGrow_twin (ht : Twin W m n s (s.withHost mem)) :
    TwinRun W m n (execGrow ha x s) (execGrow ha x (s.withHost mem)) :=
  .of_complete ht <| .check fun c _ => .check fun _ _ => .check fun _ _ => by
    by_cases hcap : x.toNat ≤ c.cap.toNat
    · simp only [if_pos hcap]
      exact .answer ht
    · simp only [if_neg hcap]
      exact .check fun _ _ => .answer (ht.mapCtx _ _)

theorem execAppendByte_twin (ht : Twin W m n s (s.withHost mem)) (hi : s.Inv) (hbuf : bufferWithin W s ha.toNat) :
    TwinRun W m n (execAppendByte ha x s) (execAppendByte ha x (s.withHost mem)) :=
  .of_complete ht <| .check fun _ hc => .check fun _ _ =>
    (appendBits_alike ht hi hbuf (needCtx_eq_ok.1 hc)).bind fun _ _ htwin => .answer htwin

theorem execAppendBytes_twin {data : List Byte} (ht : Twin W m n s (s.withHost mem)) (hi : s.Inv)
    (hbuf : bufferWithin W s ha.toNat) :
    TwinRun W m n (execAppendBytes ha x data s) (execAppendBytes ha x data (s.withHost mem)) :=
  .of_complete ht <| .check fun _ hc => .check fun _ _ => .check fun _ _ =>
    (appendBits_alike ht hi hbuf (needCtx_eq_ok.1 hc)).bind fun _ _ htwin => .answer htwin

theorem execAddChunk_twin (ht : Twin W m n s (s.withHost mem)) (hi : s.Inv) (hbuf : bufferWithin W s ha.toNat) :
    TwinRun W m n (execAddChunk ha w x s) (execAddChunk ha w x (s.withHost mem)) :=
  .of_complete ht <| .check fun _ hc => .check fun _ _ => .check fun _ _ =>
    (appendBits_alike ht hi hbuf (needCtx_eq_ok.1 hc)).bind fun _ _ htwin => .answer htwin

/-- The bits read lie before the write cursor: the unread ones all do. -/
theorem execExtractChunk_twin (ht : Twin W m n s (s.withHost mem)) (hi : s.Inv)
    (hbuf : bufferWithin W s ha.toNat) :
    TwinRun W m n (execExtractChunk ha w s) (execExtractChunk ha w (s.withHost mem)) :=
  .of_complete ht <| .check fun c hc => .check fun _ _ => .check fun _ _ => .check fun _ hunread => by
    have hread {len : Nat} (hlen : len ≤ c.wc - c.rc) :=
      ht.getBits (p := c.rc) (len := len) fun k hk =>
        hbuf.content hi (needCtx_eq_ok.1 hc) k (by have := need_eq_ok.1 hunread; omega)
    by_cases hfull : w.toNat ≤ c.wc - c.rc
    · simp only [if_pos hfull, hread hfull]
      exact .answer (ht.mapCtx _ _)
    · simp only [if_neg hfull, hread le_rfl]
      exact .answer (ht.mapCtx _ _)

theorem execDrop_twin (ht : Twin W m n s (s.withHost mem)) (hi : s.Inv) (hbuf : bufferWithin W s ha.toNat) :
    TwinRun W m n (execDrop ha w s) (execDrop ha w (s.withHost mem)) :=
  .of_complete ht <| .check fun c hc => .check fun _ _ => .check fun _ _ => .check fun _ hroom => by
    have hread := ht.getBits (p := c.wc - w.toNat) (len := w.toNat) fun k hk =>
      hbuf.content hi (needCtx_eq_ok.1 hc) k (by have := need_eq_ok.1 hroom; omega)
    simp only [hread]
    exact .answer (ht.mapCtx _ _)

theorem execAlign_twin (ht : Twin W m n s (s.withHost mem)) :
    TwinRun W m n (execAlign ha s) (execAlign ha (s.withHost mem)) :=
  .of_complete ht <| .check fun _ _ => .check fun _ _ => .answer (ht.mapCtx _ _)

/-- The bits of overlapping windows are drawn, not read; otherwise they are unread bits of the source (R53). -/
theorem copiedBits_withHost {h len : Nat} {c d : Ctx} (ht : Twin W m n s (s.withHost mem)) (hi : s.Inv)
    (hbuf : bufferWithin W s h) (hd : s.ctx? h = some d) (hrc : d.rc ≤ d.wc) (hlen : len ≤ d.wc - d.rc) :
    copiedBits (s.withHost mem) h c d len = copiedBits s h c d len := by
  have hread := ht.getBits (p := d.rc) (len := len) fun k hk => hbuf.content hi hd k (by omega)
  rw [copiedBits, hread, copiedBits]

theorem execAddFrom_twin (ht : Twin W m n s (s.withHost mem)) (hi : s.Inv) (hbufa : bufferWithin W s ha.toNat)
    (hbufb : bufferWithin W s hb.toNat) :
    TwinRun W m n (execAddFrom ha hb x s) (execAddFrom ha hb x (s.withHost mem)) :=
  .of_complete ht <| .check fun c hc => .check fun d hd => .check fun _ _ => .check fun _ _ => .check fun _ _ =>
    .check fun _ _ => .check fun _ hunread => by
      have hd := needCtx_eq_ok.1 hd
      obtain ⟨-, -, -, hrc, -⟩ := wf_of_ctx? hi hd
      rw [copiedBits_withHost ht hi hbufb hd hrc (need_eq_ok.1 hunread)]
      exact (appendBits_alike ht hi hbufa (needCtx_eq_ok.1 hc)).bind fun _ _ htwin =>
        .answer ((htwin.mapCtx hb.toNat _).update (f := fun t => { t with fresh := _ }) fun _ _ => rfl)

/-- The writes of TRUNCATE_COPY into a buffer whose bytes are all in reach (R145). -/
theorem Twin.copy {t u : State} {j p : Nat} {header : List Byte} (ht : Twin W m n t u) (len v : Nat)
    (hj : ∀ k, (t.bufLoc j k).within W) :
    Twin W m n (((t.writeBytes j p header).writeBytes j 3 (List.replicate (ceil8 len) 0)).putBits j 24 len v)
      (((u.writeBytes j p header).writeBytes j 3 (List.replicate (ceil8 len) 0)).putBits j 24 len v) := by
  have hheader := writeBytes_writes t j p header
  have hclear := writeBytes_writes (t.writeBytes j p header) j 3 (List.replicate (ceil8 len) 0)
  refine ((ht.writeBytes p header fun k _ => hj k).writeBytes 3 _ fun k _ => ?_).putBits 24 len v fun k _ => ?_
  · rw [hheader.bufLoc]
    exact hj k
  · rw [hclear.bufLoc, hheader.bufLoc]
    exact hj k

/-- The new buffer is owned, so its writes reach no host byte; the source's bits and header bytes are read where they
lie (R145). -/
theorem execTruncateCopy_twin (ht : Twin W m n s (s.withHost mem)) (hi : s.Inv)
    (hbuf : bufferWithin W s ha.toNat) :
    TwinRun W m n (execTruncateCopy ha x s) (execTruncateCopy ha x (s.withHost mem)) :=
  .of_complete ht <| .check fun c hc => .check fun _ _ => .check fun _ hlen => .check fun j hn => .check fun _ _ => by
    have hc := needCtx_eq_ok.1 hc
    have hwf := wf_of_ctx? hi hc
    obtain ⟨-, -, hps, hrc, -⟩ := id hwf
    have hheader := ht.headerBytes (dataOff_of_wf hwf) (hbuf.reserve hc)
    have hbits := ht.getBits (p := c.ps) (len := x.toNat) fun k hk =>
      hbuf.content hi hc k (by have := need_eq_ok.1 hlen; omega)
    have hcreate := ht.createOwned j (max 1 (ceil8 x.toNat)) (c.header.withWC (24 + x.toNat))
    rw [hheader, hbits]
    exact .answer (hcreate.copy _ _ fun k => within_of_not_borrowed (createOwned_ctx? hn rfl) (by simp) k)

theorem execGetField_twin (ht : Twin W m n s (s.withHost mem)) :
    TwinRun W m n (execGetField ha hb s) (execGetField ha hb (s.withHost mem)) :=
  .of_complete ht <| .check fun c _ => by
    cases c.field hb.toNat with
    | none => exact .error _
    | some v => exact .answer ht

theorem execSetField_twin (ht : Twin W m n s (s.withHost mem)) :
    TwinRun W m n (execSetField ha hb x s) (execSetField ha hb x (s.withHost mem)) :=
  .of_complete ht <| .check fun _ _ => .check fun d _ => .answer (ht.putCtx _ d)

theorem execHdrEncode_twin (ht : Twin W m n s (s.withHost mem)) (hi : s.Inv) (hbuf : bufferWithin W s ha.toNat) :
    TwinRun W m n (execHdrEncode ha s) (execHdrEncode ha (s.withHost mem)) :=
  .of_complete ht <| .check fun c hc => .check fun _ _ => .check fun _ _ => by
    have hc := needCtx_eq_ok.1 hc
    refine .answer (.mapCtx (ht.writeBytes _ _ fun j hj => hbuf.reserve hc j ?_) _ _)
    have hoff := dataOff_of_wf (wf_of_ctx? hi hc)
    have hlen := headerLen_le c.dst c.src
    rw [encodeHeader_length] at hj
    omega

theorem execHdrDecode_twin (ht : Twin W m n s (s.withHost mem)) (hi : s.Inv) (hbuf : bufferWithin W s ha.toNat) :
    TwinRun W m n (execHdrDecode ha s) (execHdrDecode ha (s.withHost mem)) :=
  .of_complete ht <| .check fun c hc => .check fun _ _ => by
    have hc := needCtx_eq_ok.1 hc
    rw [ht.headerBytes (dataOff_of_wf (wf_of_ctx? hi hc)) (hbuf.reserve hc)]
    exact .check fun _ _ => .answer (ht.mapCtx _ _)

/-- Every command on twin states, when the host bytes of the buffers it names are in `W`. -/
theorem exec_twin (i : Instr) (ht : Twin W m n s (s.withHost mem)) (hi : s.Inv)
    (hbuf : ∀ h ∈ handlesOf i, bufferWithin W s h.toNat) : TwinRun W m n (exec i s) (exec i (s.withHost mem)) := by
  cases i with
  | crc8Init => exact .of_respond ht _
  | crc8Update x y => exact .of_respond ht _
  | crc8UpdateV w x y => exact .of_check ht
  | crc8Finish y => exact .of_respond ht _
  | crc8Block x data => exact .of_check ht
  | crc16Init => exact .of_respond ht _
  | crc16Update x y => exact .of_respond ht _
  | crc16UpdateV w x y => exact .of_check ht
  | crc16Finish y => exact .of_respond ht _
  | crc16Block x data => exact .of_check ht
  | allocate x => exact execAllocate_twin ht
  | wrap x y => exact execWrap_twin ht
  | duplicate ha => exact execDuplicate_twin ht
  | release ha => exact .of_checkMapCtx ht
  | grow ha x => exact execGrow_twin ht
  | attach ha x y => exact execAttach_twin ht
  | startSend ha => exact .of_checkMapCtx ht
  | appendByte ha x => exact execAppendByte_twin ht hi (hbuf ha (by simp [handlesOf]))
  | appendBytes ha x data => exact execAppendBytes_twin ht hi (hbuf ha (by simp [handlesOf]))
  | startExtract ha => exact .of_checkMapCtx ht
  | hasMore ha => exact .of_check ht
  | extractChunk ha w => exact execExtractChunk_twin ht hi (hbuf ha (by simp [handlesOf]))
  | startAdd ha => exact .of_checkMapCtx ht
  | addChunk ha w x => exact execAddChunk_twin ht hi (hbuf ha (by simp [handlesOf]))
  | addFrom ha hb x =>
    exact execAddFrom_twin ht hi (hbuf ha (by simp [handlesOf])) (hbuf hb (by simp [handlesOf]))
  | drop ha w => exact execDrop_twin ht hi (hbuf ha (by simp [handlesOf]))
  | align ha => exact execAlign_twin ht
  | truncateCopy ha x => exact execTruncateCopy_twin ht hi (hbuf ha (by simp [handlesOf]))
  | fillCrc ha hb w x => exact .of_raise ht _
  | start ha => exact .of_check ht
  | length ha => exact .of_check ht
  | bitLength ha => exact .of_check ht
  | sentBits ha => exact .of_check ht
  | getField ha hb => exact execGetField_twin ht
  | setField ha hb x => exact execSetField_twin ht
  | hdrEncode ha => exact execHdrEncode_twin ht hi (hbuf ha (by simp [handlesOf]))
  | hdrDecode ha => exact execHdrDecode_twin ht hi (hbuf ha (by simp [handlesOf]))

end commands

/-- Settles O46: the two runs start as twin states whose host memories agree in the named windows. -/
theorem hostMemoryIsTouchedInWindowsOnly : Obligations.HostMemoryIsTouchedInWindowsOnly := by
  intro i s m hi hagree
  have hstart : Twin (inNamedWindow s (handlesOf i)) s.host m s (s.withHost m) :=
    ⟨⟨m, rfl⟩, hagree, fun _ _ => ⟨rfl, rfl⟩⟩
  obtain ⟨t, u, ht, hu, ⟨mem, rfl⟩, hin, hout⟩ := exec_twin i hstart hi fun h hh => bufferWithin_named hi hh
  exact ⟨t, _, ht, hu, hout, hin, rfl, rfl, rfl⟩

end Sys2Proof.Machine
end

section
/-! SUPPORT. What each part of the decoder and the encoder does, said once: a word and its bytes, the command word, the
opcode map, the data bytes, the fields of a row (30_encoding.md R60 to R67). -/

namespace Sys2Proof

/-! ### The command word and its twelve bytes (R60, R67) -/

theorem wordOf_wordBytes (v : Word) :
    wordOf (BitVec.ofNat 8 (v.toNat / 16777216)) (BitVec.ofNat 8 (v.toNat / 65536)) (BitVec.ofNat 8 (v.toNat / 256))
      (BitVec.ofNat 8 v.toNat) = v := by
  apply BitVec.eq_of_toNat_eq
  simp only [wordOf, BitVec.toNat_ofNat]
  omega

theorem wordBytes_wordOf (b0 b1 b2 b3 : Byte) : wordBytes (wordOf b0 b1 b2 b3) = [b0, b1, b2, b3] := by
  simp only [wordBytes, wordOf, List.cons.injEq, and_true, ← BitVec.toNat_inj, BitVec.toNat_ofNat]
  omega

@[simp] theorem fieldBytes_length (f : Fields) : (fieldBytes f).length = 12 := rfl

@[simp] theorem fieldBytes_head? (f : Fields) : (fieldBytes f).head? = some f.op := rfl

/-- A command word is any twelve bytes. -/
theorem exists_fieldBytes {word : List Byte} (h : word.length = 12) : ∃ f, fieldBytes f = word :=
  match word, h with
  | [op, ha, hb, w, x0, x1, x2, x3, y0, y1, y2, y3], _ =>
    ⟨⟨op, ha, hb, w, wordOf x0 x1 x2 x3, wordOf y0 y1 y2 y3⟩, by simp [fieldBytes, wordBytes_wordOf]⟩

/-- Splitting off a command word is the inverse of writing one in front. -/
theorem splitWord_eq_some {bytes rest : List Byte} {f : Fields} :
    splitWord bytes = some (f, rest) ↔ bytes = fieldBytes f ++ rest := by
  constructor
  · intro h
    unfold splitWord at h
    split at h
    · cases h
      simp [fieldBytes, wordBytes_wordOf]
    · cases h
  · rintro rfl
    simp only [fieldBytes, wordBytes, List.cons_append, List.nil_append, splitWord, wordOf_wordBytes]

/-! ### The opcode map (R63, R64) -/

/-- No two rows of R63 have the same number, and each number fits the `op` field. -/
theorem opcodeOf_eq_some {op : Byte} {o : Opcode} : opcodeOf op = some o ↔ op = BitVec.ofNat 8 o.code := by
  constructor
  · intro h
    have hcode : o.code = op.toNat := by simpa using List.find?_some h
    simp [hcode]
  · rintro rfl
    cases o <;> rfl

/-- An `op` is illegal when it is the number of no row. -/
theorem opcodeOf_eq_none {op : Byte} (h : op.toNat ∉ allOpcodes.map Opcode.code) : opcodeOf op = none :=
  List.find?_eq_none.2 fun o ho hcode => h (List.mem_map.2 ⟨o, ho, by simpa using hcode⟩)

/-! ### Decoding a command word, with the row of its opcode or without one -/

theorem decode_fieldBytes {f : Fields} {o : Opcode} (ho : opcodeOf f.op = some o) (rest : List Byte) :
    decode (fieldBytes f ++ rest) = decodeBody f rest o := by
  simp [decode, splitWord_eq_some.2 rfl, ho]

theorem decode_fieldBytes_illegal {f : Fields} (ho : opcodeOf f.op = none) (rest : List Byte) :
    decode (fieldBytes f ++ rest) = .error (.illegalOpcode f.op) := by
  simp [decode, splitWord_eq_some.2 rfl, ho]

/-- What is decoded stands in front as a command word whose opcode is in the map, and its row gives the command. -/
theorem decode_eq_ok {bytes rest : List Byte} {i : Instr} : decode bytes = .ok (i, rest) ↔
    ∃ f tail o, bytes = fieldBytes f ++ tail ∧ opcodeOf f.op = some o ∧ decodeBody f tail o = .ok (i, rest) := by
  constructor
  · intro h
    unfold decode at h
    split at h
    · cases h
    · next f tail hsplit =>
      split at h
      · cases h
      · next o ho => exact ⟨f, tail, o, splitWord_eq_some.1 hsplit, ho, h⟩
  · rintro ⟨f, tail, o, rfl, ho, hbody⟩
    rw [decode_fieldBytes ho, hbody]

/-! ### The data bytes and the operands of each row (R61, R63, R65) -/

/-- The data bytes are as many as the count announces, and stand in front. -/
theorem takeData_eq_ok {x : Word} {bytes data rest : List Byte} :
    takeData x bytes = .ok (data, rest) ↔ bytes = data ++ rest ∧ data.length = dataCount x := by
  unfold takeData
  split
  · next hshort =>
    simp only [reduceCtorEq, false_iff, not_and]
    rintro rfl hlen
    simp at hshort
    omega
  · next hlong =>
    simp only [Except.ok.injEq, Prod.mk.injEq]
    constructor
    · rintro ⟨rfl, rfl⟩
      exact ⟨(List.take_append_drop _ _).symm, by simpa using hlong⟩
    · rintro ⟨rfl, hlen⟩
      simp [← hlen]

/-- A row with data bytes decodes exactly when they are there. -/
theorem map_takeData_eq_ok {x : Word} {bytes rest : List Byte} {mk : List Byte → Instr} {i : Instr} :
    (takeData x bytes).map (fun p => (mk p.1, p.2)) = .ok (i, rest) ↔
      ∃ data, i = mk data ∧ bytes = data ++ rest ∧ data.length = dataCount x := by
  constructor
  · intro h
    cases ht : takeData x bytes with
    | error e => simp [ht, Except.map] at h
    | ok p =>
      obtain ⟨data, tail⟩ := p
      simp only [ht, Except.map, Except.ok.injEq, Prod.mk.injEq] at h
      obtain ⟨rfl, rfl⟩ := h
      exact ⟨data, rfl, takeData_eq_ok.1 ht⟩
  · rintro ⟨data, rfl, hdata⟩
    rw [takeData_eq_ok.2 hdata]
    rfl

@[simp] theorem fields_op (i : Instr) : i.fields.op = BitVec.ofNat 8 i.opcode.code := by
  cases i <;> rfl

/-- The row of a well-formed command's opcode reads every operand back from the fields of its word. -/
theorem decodeBody_fields {i : Instr} (hi : i.wellFormed = true) (rest : List Byte) :
    decodeBody i.fields (i.data ++ rest) i.opcode = .ok (i, rest) := by
  cases i with
  | crc8Block x data | crc16Block x data | appendBytes ha x data =>
    exact map_takeData_eq_ok.2 ⟨data, rfl, rfl, by simpa [Instr.wellFormed, Instr.fields] using hi⟩
  | _ => rfl

/-- What a row decodes is a well-formed command of its opcode, and the data bytes of that command stood in front. -/
theorem decodeBody_eq_ok {f : Fields} {bytes rest : List Byte} {o : Opcode} {i : Instr}
    (h : decodeBody f bytes o = .ok (i, rest)) :
    i.wellFormed = true ∧ i.opcode = o ∧ bytes = i.data ++ rest := by
  cases o with
  | crc8Block | crc16Block | appendBytes =>
    obtain ⟨data, rfl, hbytes, hlen⟩ := map_takeData_eq_ok.1 h
    exact ⟨by simpa [Instr.wellFormed] using hlen, rfl, hbytes⟩
  | _ =>
    cases h
    exact ⟨rfl, rfl, rfl⟩

end Sys2Proof
end

section
/-! The statements about the encoding: commands, their words and their answers (30_encoding.md R60 to R67). -/

namespace Sys2Proof.Machine

/-! ### Commands and their bytes -/

/-- Settles O56: the word in front names the command's own row, which reads every operand back. -/
theorem decodeUndoesEncode : Obligations.DecodeUndoesEncode := by
  intro i rest hi
  have hop : opcodeOf i.fields.op = some i.opcode := opcodeOf_eq_some.2 (fields_op i)
  rw [encode, List.append_assoc, decode_fieldBytes hop, decodeBody_fields hi]

/-- Settles O57: the bytes are a command word, the data bytes of the command its row decodes, and the rest. -/
theorem decodedCommandsAreWellFormed : Obligations.DecodedCommandsAreWellFormed := by
  intro bytes i rest h
  obtain ⟨f, tail, o, rfl, ho, hbody⟩ := decode_eq_ok.1 h
  obtain ⟨hwf, rfl, rfl⟩ := decodeBody_eq_ok hbody
  have hop : f.op = BitVec.ofNat 8 i.opcode.code := opcodeOf_eq_some.1 ho
  refine ⟨hwf, by simp [Instr.size], ?_, by simp [← hop]⟩
  rw [← List.append_assoc, List.drop_left' (by simp [Instr.size])]

/-- A row reads the fields it uses and no other (R61). -/
theorem decodeBody_congr {f g : Fields} {o : Opcode} (h : ∀ n ∈ usedFields o, fieldValue f n = fieldValue g n)
    (rest : List Byte) : decodeBody f rest o = decodeBody g rest o := by
  have hha : fieldValue f .ha = fieldValue g .ha → f.ha = g.ha := BitVec.eq_of_toNat_eq
  have hhb : fieldValue f .hb = fieldValue g .hb → f.hb = g.hb := BitVec.eq_of_toNat_eq
  have hw : fieldValue f .w = fieldValue g .w → f.w = g.w := BitVec.eq_of_toNat_eq
  have hx : fieldValue f .x = fieldValue g .x → f.x = g.x := BitVec.eq_of_toNat_eq
  have hy : fieldValue f .y = fieldValue g .y → f.y = g.y := BitVec.eq_of_toNat_eq
  cases o <;> simp_all [usedFields, decodeBody]

/-- Settles O58: words that agree on `op` have the same row or none, and a row reads the fields it uses alone. -/
theorem unusedFieldsAreIgnored : Obligations.UnusedFieldsAreIgnored := by
  refine ⟨fun f g rest hop hused => ?_, fun ha hb w x y rest => ?_⟩
  · cases ho : opcodeOf f.op with
    | none => rw [decode_fieldBytes_illegal ho, decode_fieldBytes_illegal (hop ▸ ho), hop]
    | some o => rw [decode_fieldBytes ho, decode_fieldBytes (hop ▸ ho), decodeBody_congr (hused o ho)]
  · have hrow (op : Byte) (o : Opcode) (ho : opcodeOf op = some o) :
        decode (fieldBytes ⟨op, ha, hb, w, x, y⟩ ++ rest) = decodeBody ⟨op, ha, hb, w, x, y⟩ rest o :=
      decode_fieldBytes ho rest
    exact ⟨hrow 0x00 .crc8Init rfl, hrow 0x09 .crc16Update rfl, hrow 0x0A .crc16UpdateV rfl, hrow 0x10 .allocate rfl,
      hrow 0x13 .release rfl, hrow 0x25 .extractChunk rfl, hrow 0x31 .addChunk rfl, hrow 0x32 .addFrom rfl,
      hrow 0x44 .getField rfl, hrow 0x50 .hdrEncode rfl⟩

/-- Settles O59: the decoder evaluates each word. -/
theorem writtenOutWordsDecode : Obligations.WrittenOutWordsDecode := by
  refine ⟨?_, ?_, ?_, ?_, ?_, ?_, ?_⟩ <;> decide

/-! ### The answer to a command -/

theorem respond_next (s : State) (v : Word) : ∃ t r, respond s v = .next t ∧ t.resp = some r := ⟨_, _, rfl, rfl⟩

theorem raise_next (s : State) (st : Status) : ∃ t r, raise s st = .next t ∧ t.resp = some r := ⟨_, _, rfl, rfl⟩

/-- Settles O42: a command answers at once, or with what its checks complete to; FILL_CRC raises a status. -/
theorem everyCommandAnswers : Obligations.EveryCommandAnswers := by
  intro i s
  cases i with
  | crc8Init | crc8Update | crc8Finish | crc16Init | crc16Update | crc16Finish => exact respond_next s _
  | fillCrc => exact raise_next s _
  | _ => exact complete_next s _

theorem Status.code_le (st : Status) : st.code ≤ 6 := by
  cases st <;> decide

/-- The status code and the value fit their fields, so nothing of the word is cut (R66). -/
theorem Response.word_toNat (r : Response) : r.word.toNat = r.status.code * 2 ^ 56 + r.value.toNat := by
  have hcode := r.status.code_le
  have hvalue := r.value.isLt
  rw [Response.word, BitVec.toNat_ofNat]
  omega

/-- Settles O60: the three fields of the word are digits of its number. -/
theorem responseWordLayout : Obligations.ResponseWordLayout := by
  refine ⟨fun r => ?_, rfl, rfl, rfl, rfl, rfl, rfl, rfl⟩
  have hvalue := r.value.isLt
  refine ⟨BitVec.eq_of_toNat_eq ?_, BitVec.eq_of_toNat_eq ?_, BitVec.eq_of_toNat_eq ?_⟩
  · rw [BitVec.extractLsb'_toNat, r.word_toNat, Nat.shiftRight_eq_div_pow, BitVec.toNat_ofNat]
    omega
  · rw [BitVec.extractLsb'_toNat, r.word_toNat, Nat.shiftRight_eq_div_pow, BitVec.ofNat_eq_ofNat, BitVec.toNat_zero]
    omega
  · rw [BitVec.extractLsb'_toNat, r.word_toNat, Nat.shiftRight_zero]
    omega

/-! ### One step on the bytes at the front of the inbox -/

/-- Command bytes in front of the inbox are the first of the leading bytes. -/
theorem leadingBytes_append (word : List Byte) (rest : List HostEvent) :
    leadingBytes (word.map HostEvent.byte ++ rest) = word ++ leadingBytes rest := by
  induction word with
  | nil => rfl
  | cons b bs ih => simp [leadingBytes, ih]

theorem step_of_decode_ok {s : State} {i : Instr} {rest : List Byte}
    (h : decode (leadingBytes s.inbox) = .ok (i, rest)) : step s = exec i (s.consume i.size) := by
  simp [step, h]

theorem step_of_illegalOpcode {s : State} {op : Byte} (h : decode (leadingBytes s.inbox) = .error (.illegalOpcode op)) :
    step s = illegalCommand (s.consume 12) := by
  simp [step, h]

/-- Settles O54: taking the bytes of the command leaves the inbox without them. -/
theorem stepRunsTheDecodedCommand : Obligations.StepRunsTheDecodedCommand :=
  fun _ _ _ h => step_of_decode_ok h

/-- Settles O55: the word's `op` is the number of no row, so the decoder names it illegal and the word alone is
taken. -/
theorem illegalOpcodeIsAnswered : Obligations.IllegalOpcodeIsAnswered := by
  intro s word rest hlen hop hinbox
  obtain ⟨f, rfl⟩ := exists_fieldBytes hlen
  have hillegal : decode (leadingBytes s.inbox) = .error (.illegalOpcode f.op) := by
    rw [hinbox, leadingBytes_append, decode_fieldBytes_illegal (opcodeOf_eq_none hop)]
  have htaken : s.inbox.drop 12 = rest := by
    rw [hinbox, List.drop_left' (by simp)]
  rw [step_of_illegalOpcode hillegal, State.consume, htaken]
  rfl

end Sys2Proof.Machine
end

section
/-! SUPPORT. The checksum register of any width fed bit by bit, and the engine's CRC8 and CRC16 in its terms
(40_crc_engine.md R81, R83, R84, R88, R89). Feeding a 0 bit is linear, so that the table, which feeds eight of them,
is linear too, and feeding `n` bits is putting them on the top `n` bits of the register and feeding `n` zeros. -/

namespace Sys2Proof.Machine

/-! ### The bits of a number, most significant first (20_memory.md R44) -/

@[simp] theorem bitsOf_zero (v : Nat) : bitsOf v 0 = [] := rfl

theorem bitsOf_succ (v n : Nat) : bitsOf v (n + 1) = v.testBit n :: bitsOf v n := by
  rw [bitsOf, bitsOf, List.range_succ_eq_map, List.map_cons, List.map_map]
  congr 1
  refine List.map_congr_left fun i _ => ?_
  rw [Function.comp_apply]
  congr 1
  omega

/-- The bits depend on the number modulo `2^n` alone (R93). -/
theorem bitsOf_mod {v n k : Nat} (hn : n ≤ k) : bitsOf (v % 2 ^ k) n = bitsOf v n := by
  refine List.map_congr_left fun i hi => ?_
  rw [List.mem_range] at hi
  rw [Nat.testBit_mod_two_pow, decide_eq_true (by omega), Bool.true_and]

/-- The first `m` of `m + n` bits, and the rest. -/
theorem bitsOf_add (v m n : Nat) : bitsOf v (m + n) = bitsOf (v >>> n) m ++ bitsOf v n := by
  induction m with
  | zero => rw [Nat.zero_add, bitsOf_zero, List.nil_append]
  | succ m ih =>
    rw [Nat.succ_add, bitsOf_succ, bitsOf_succ, ih, Nat.testBit_shiftRight, Nat.add_comm n m, List.cons_append]

/-- A number shifted left, cut to a register. -/
theorem ofNat_shiftLeft (w v k : Nat) : BitVec.ofNat w (v <<< k) = BitVec.ofNat w v <<< k := by
  ext i hi
  simp [BitVec.getElem_eq_testBit_toNat, Nat.testBit_shiftLeft, hi, show i - k < w by omega]

/-- A register shifted right, cut to a byte. -/
theorem ofNat_toNat_ushiftRight {w : Nat} (c : BitVec w) (k : Nat) :
    BitVec.ofNat 8 (c.toNat >>> k) = (c >>> k).setWidth 8 := by
  rw [← BitVec.toNat_ushiftRight, BitVec.ofNat_toNat]

/-! ### One register of any width -/

section register
variable {w : Nat}

/-- One bit into a checksum register of `w` bits; `bitStep8` and `bitStep16` are it for 8 and for 16 bits. -/
def feedBit (poly c : BitVec w) (b : Bool) : BitVec w :=
  (c <<< 1) ^^^ (if c.getLsbD (w - 1) ^^ b then poly else 0)

/-- One 0 bit into the register: a round of the table's generator (R81). -/
def feedZero (poly c : BitVec w) : BitVec w := feedBit poly c false

/-- Feeding is linear in the register and the bit together, which is why the table is (R81). -/
theorem feedBit_xor (poly c d : BitVec w) (a b : Bool) :
    feedBit poly (c ^^^ d) (a ^^ b) = feedBit poly c a ^^^ feedBit poly d b := by
  have hpoly (e f : Bool) : (if e ^^ f then poly else 0) = (if e then poly else 0) ^^^ (if f then poly else 0) := by
    cases e <;> cases f <;> simp
  have hbits (e f : Bool) : ((e ^^ f) ^^ (a ^^ b)) = ((e ^^ a) ^^ (f ^^ b)) := by
    rw [Bool.xor_assoc, Bool.xor_left_comm f, ← Bool.xor_assoc]
  unfold feedBit
  rw [BitVec.shiftLeft_xor_distrib, BitVec.getLsbD_xor, hbits, hpoly]
  ac_rfl

/-- A bit equal to the top one cancels it: the register moves up and the polynomial plays no part. -/
theorem feedBit_top {poly c : BitVec w} {b : Bool} (hc : c.getLsbD (w - 1) = b) : feedBit poly c b = c <<< 1 := by
  simp [feedBit, hc]

theorem feedZero_xor (poly c d : BitVec w) : feedZero poly (c ^^^ d) = feedZero poly c ^^^ feedZero poly d :=
  feedBit_xor poly c d false false

theorem iterate_feedZero_xor (poly c d : BitVec w) (n : Nat) :
    (feedZero poly)^[n] (c ^^^ d) = (feedZero poly)^[n] c ^^^ (feedZero poly)^[n] d := by
  induction n generalizing c d with
  | zero => rfl
  | succ n ih => rw [Function.iterate_succ_apply, feedZero_xor, ih]; rfl

/-- `n` zeros move up a register whose top `n` bits are clear. -/
theorem iterate_feedZero_ushiftRight (poly c : BitVec w) (n : Nat) :
    (feedZero poly)^[n] (c >>> n) = (c >>> n) <<< n := by
  induction n generalizing c with
  | zero => simp
  | succ n ih =>
    have htop : (c >>> 1 >>> n <<< n).getLsbD (w - 1) = false := by
      simp only [BitVec.getLsbD_shiftLeft, BitVec.getLsbD_ushiftRight, Bool.and_eq_false_iff, decide_eq_false_iff_not,
        Bool.not_eq_false', decide_eq_true_eq]
      by_cases hn : w - 1 < n
      · exact .inl (.inr hn)
      · exact .inr (BitVec.getLsbD_of_ge _ _ (by omega))
    rw [Function.iterate_succ_apply', Nat.add_comm n 1, BitVec.shiftRight_add, ih, feedZero, feedBit_top htop,
      Nat.add_comm 1 n, BitVec.shiftLeft_add]

/-- A register whose top `k - n` bits are clear takes `k` zeros as `n` zeros after it was moved up. -/
theorem iterate_feedZero_aligned (poly c : BitVec w) {n k : Nat} (hn : n ≤ k) :
    (feedZero poly)^[k] (c >>> (k - n)) = (feedZero poly)^[n] ((c >>> (k - n)) <<< (k - n)) := by
  rw [← iterate_feedZero_ushiftRight, ← Function.iterate_add_apply, Nat.add_sub_cancel' hn]

/-- The top `n` bits of the register go through the polynomial and the others move up. -/
theorem iterate_feedZero_split (poly c : BitVec w) {n : Nat} (hn : n ≤ w) :
    (feedZero poly)^[n] ((c >>> (w - n)) <<< (w - n)) ^^^ (c <<< n) = (feedZero poly)^[n] c := by
  have hsplit : c = ((c >>> (w - n)) <<< (w - n)) ^^^ ((c <<< n) >>> n) := by
    ext i hi
    by_cases hlow : i < w - n
    · simp [hlow, show n + i < w by omega]
    · simp [hlow, hi, show ¬ n + i < w by omega, show w - n + (i - (w - n)) = i by omega]
  have hmoved : ((c <<< n) >>> n) <<< n = c <<< n := by
    ext i hi
    by_cases hin : i < n
    · simp [hin]
    · simp [hin, hi, show n + (i - n) = i by omega]
  conv_rhs => rw [hsplit]
  rw [iterate_feedZero_xor, iterate_feedZero_ushiftRight, hmoved]

/-- The bit of `v` that stands at the top of the register goes in with the zero. -/
theorem feedZero_xor_shiftLeft (poly c : BitVec w) (v : Nat) {n : Nat} (hn : n < w) :
    feedZero poly (c ^^^ (BitVec.ofNat w v <<< (w - (n + 1)))) =
      feedBit poly c (v.testBit n) ^^^ (BitVec.ofNat w v <<< (w - n)) := by
  have htop : (BitVec.ofNat w v <<< (w - (n + 1))).getLsbD (w - 1) = v.testBit n := by
    have hn' : w - 1 - (w - (n + 1)) = n := by omega
    have hw : w - 1 < w ∧ ¬ w - 1 < w - (n + 1) := by omega
    rw [BitVec.getLsbD_shiftLeft, BitVec.getLsbD_ofNat, hn']
    simp [hw, hn]
  calc feedZero poly (c ^^^ (BitVec.ofNat w v <<< (w - (n + 1))))
      = feedBit poly (c ^^^ (BitVec.ofNat w v <<< (w - (n + 1)))) (v.testBit n ^^ v.testBit n) := by
        rw [Bool.xor_self, feedZero]
    _ = feedBit poly c (v.testBit n) ^^^ (BitVec.ofNat w v <<< (w - n)) := by
        rw [feedBit_xor, feedBit_top htop, ← BitVec.shiftLeft_add, show w - (n + 1) + 1 = w - n by omega]

/-- Feeding `n` bits is putting them on the top of the register and feeding `n` zeros (R84, R89). -/
theorem foldl_feedBit_bitsOf (poly c : BitVec w) (v : Nat) {n : Nat} (hn : n ≤ w) :
    (bitsOf v n).foldl (feedBit poly) c = (feedZero poly)^[n] (c ^^^ (BitVec.ofNat w v <<< (w - n))) := by
  induction n generalizing c with
  | zero => simp
  | succ n ih =>
    rw [bitsOf_succ, List.foldl_cons, ih _ (by omega), Function.iterate_succ_apply, feedZero_xor_shiftLeft _ _ _ hn]

end register

/-! ### CRC8 and CRC16 -/

theorem rounds8_eq (p c : BitVec 8) (n : Nat) : rounds8 p n c = (feedZero p)^[n] c := by
  have hround (c : BitVec 8) : round8 p c = feedZero p c := by simp [round8, feedZero, feedBit]
  induction n generalizing c with
  | zero => rfl
  | succ n ih => rw [rounds8, ih, hround, Function.iterate_succ_apply]

theorem rounds16_eq (p c : BitVec 16) (n : Nat) : rounds16 p n c = (feedZero p)^[n] c := by
  have hround (c : BitVec 16) : round16 p c = feedZero p c := by simp [round16, feedZero, feedBit]
  induction n generalizing c with
  | zero => rfl
  | succ n ih => rw [rounds16, ih, hround, Function.iterate_succ_apply]

theorem bitStep8_eq (p : BitVec 8) : bitStep8 p = feedBit p := rfl

theorem bitStep16_eq (p : BitVec 16) : bitStep16 p = feedBit p := rfl

/-- Entry `i` of the table is `i` after eight zeros (R81). -/
theorem table8_eq (p : BitVec 8) (i : Byte) : table8 p i = (feedZero p)^[8] i := rounds8_eq p i 8

/-- Entry `i` of the table is `i` in the high byte after eight zeros (R81). -/
theorem table16_eq (p : BitVec 16) (i : Byte) : table16 p i = (feedZero p)^[8] (i.setWidth 16 <<< 8) := by
  have hi : BitVec.ofNat 16 (i.toNat * 256) = i.setWidth 16 <<< 8 := by
    apply BitVec.eq_of_toNat_eq
    simp [Nat.shiftLeft_eq, Nat.mod_eq_of_lt (show i.toNat < 65536 by omega)]
  rw [table16, hi, rounds16_eq]

theorem table8_xor (p : BitVec 8) (i j : Byte) : table8 p (i ^^^ j) = table8 p i ^^^ table8 p j := by
  simp only [table8_eq, iterate_feedZero_xor]

theorem table16_xor (p : BitVec 16) (i j : Byte) : table16 p (i ^^^ j) = table16 p i ^^^ table16 p j := by
  rw [table16_eq, BitVec.setWidth_xor, BitVec.shiftLeft_xor_distrib, iterate_feedZero_xor, ← table16_eq,
    ← table16_eq]

@[simp] theorem table8_zero (p : BitVec 8) : table8 p 0#8 = 0#8 := by
  have h := table8_xor p 0#8 0#8
  rwa [BitVec.xor_self, BitVec.xor_self] at h

@[simp] theorem table16_zero (p : BitVec 16) : table16 p 0#8 = 0#16 := by
  have h := table16_xor p 0#8 0#8
  rwa [BitVec.xor_self, BitVec.xor_self] at h

/-- `update` feeds the eight bits of its byte (R83). -/
theorem crc8Step_eq (p c : BitVec 8) (b : Byte) : crc8Step p c b = (bitsOf b.toNat 8).foldl (bitStep8 p) c := by
  rw [bitStep8_eq, foldl_feedBit_bitsOf _ _ _ le_rfl, crc8Step, table8_eq, BitVec.xor_comm]
  simp

/-- The last two lines of R84's pseudocode: the low `n` bits on the top of the register, then `n` zeros. -/
theorem crc8Tail_eq (p c : BitVec 8) (v : Nat) {n : Nat} (hn : n ≤ 8) :
    crc8Tail p c v n = (bitsOf v n).foldl (bitStep8 p) c := by
  rw [crc8Tail, ofNat_shiftLeft, table8_eq, iterate_feedZero_aligned _ _ hn, iterate_feedZero_split _ _ hn, bitStep8_eq,
    foldl_feedBit_bitsOf _ _ _ hn]

/-- `update_v` feeds the bits of its value, most significant first (R84): more than eight are eight as `update` feeds
them, and the rest. -/
theorem crc8Bits_eq (p c : BitVec 8) (v : Nat) {n : Nat} (hn : n ≤ 16) :
    crc8Bits p c v n = (bitsOf v n).foldl (bitStep8 p) c := by
  unfold crc8Bits
  split
  · obtain ⟨m, rfl⟩ : ∃ m, n = 8 + m := ⟨n - 8, by omega⟩
    have hfirst : table8 p (c ^^^ BitVec.ofNat 8 (v >>> m)) = (bitsOf (v >>> m) 8).foldl (bitStep8 p) c := by
      rw [BitVec.xor_comm, ← crc8Step, crc8Step_eq, BitVec.toNat_ofNat, bitsOf_mod le_rfl]
    rw [Nat.add_sub_cancel_left, hfirst, crc8Tail_eq _ _ _ (by omega), bitsOf_mod le_rfl, bitsOf_add, List.foldl_append]
  · exact crc8Tail_eq p c v (by omega)

/-- The last line of R89's pseudocode feeds `n` zeros. -/
theorem crc16Tail_eq (p c : BitVec 16) {n : Nat} (hn : n ≤ 8) : crc16Tail p c n = (feedZero p)^[n] c := by
  have hindex : ((c >>> (16 - n)).setWidth 8).setWidth 16 <<< 8 = ((c >>> (16 - n)) <<< (16 - n)) >>> (8 - n) := by
    ext i hi
    by_cases hlow : i < 8
    · simp [hlow, show 8 - n + i < 16 - n by omega]
    · have hbit : 16 - n + (i - 8) = 8 - n + i ∧ 16 - n + (8 - n + i - (16 - n)) = 8 - n + i := by omega
      by_cases hover : 8 - n + i < 16
      · simp [hlow, hbit, hover, show i - 8 < 8 by omega, show ¬ 8 - n + i < 16 - n by omega]
      · simp [hbit, hover, BitVec.getLsbD_of_ge c (8 - n + i) (by omega)]
  have haligned : ((c >>> (16 - n)) <<< (16 - n)) >>> (8 - n) <<< (8 - n) = (c >>> (16 - n)) <<< (16 - n) := by
    ext i hi
    by_cases hlow : i < 8 - n
    · simp [hlow, show i < 16 - n by omega]
    · simp [hlow, hi, show 8 - n + (i - (8 - n)) = i by omega]
  rw [crc16Tail, ofNat_toNat_ushiftRight, table16_eq, hindex, iterate_feedZero_aligned _ _ hn, haligned,
    iterate_feedZero_split _ _ (by omega)]

/-- `update_v` feeds the bits of its value, most significant first (R89): they are on the register before the two
lookups, which feed up to eight zeros each. -/
theorem crc16Bits_eq (p c : BitVec 16) (v : Nat) {n : Nat} (hn : n ≤ 16) :
    crc16Bits p c v n = (bitsOf v n).foldl (bitStep16 p) c := by
  rw [bitStep16_eq, foldl_feedBit_bitsOf _ _ _ hn, ← ofNat_shiftLeft]
  simp only [crc16Bits]
  generalize c ^^^ BitVec.ofNat 16 (v <<< (16 - n)) = d
  split
  · have hfirst : table16 p (BitVec.ofNat 8 (d.toNat >>> 8)) ^^^ (d <<< 8) = (feedZero p)^[8] d := by
      rw [← crc16Tail_eq p d le_rfl, crc16Tail]
    rw [hfirst, crc16Tail_eq _ _ (by omega), ← Function.iterate_add_apply, Nat.sub_add_cancel (by omega)]
  · exact crc16Tail_eq p d (by omega)

/-- The index of `update` is the byte and the high byte of the checksum (R88). -/
theorem crc16Step_eq_lookup (p c : BitVec 16) (b : Byte) :
    crc16Step p c b = table16 p (b ^^^ (c >>> 8).setWidth 8) ^^^ (c <<< 8) := by
  have hdiv : c.toNat / 256 = c.toNat >>> 8 := (Nat.shiftRight_eq_div_pow _ 8).symm
  rw [crc16Step, hdiv, ofNat_toNat_ushiftRight]

/-- `update` feeds the eight bits of its byte (R88). -/
theorem crc16Step_eq (p c : BitVec 16) (b : Byte) : crc16Step p c b = (bitsOf b.toNat 8).foldl (bitStep16 p) c := by
  have hindex : ((c ^^^ b.setWidth 16 <<< 8) >>> 8).setWidth 8 = b ^^^ (c >>> 8).setWidth 8 := by
    ext i hi
    simp [hi, show 8 + i < 16 by omega, show i < 16 by omega, Bool.xor_comm]
  have hrest : (c ^^^ b.setWidth 16 <<< 8) <<< 8 = c <<< 8 := by
    rw [BitVec.shiftLeft_xor_distrib, ← BitVec.shiftLeft_add, BitVec.shiftLeft_eq_zero le_rfl, BitVec.xor_zero]
  rw [bitStep16_eq, foldl_feedBit_bitsOf _ _ _ (by omega), BitVec.ofNat_toNat, ← crc16Tail_eq _ _ le_rfl, crc16Tail,
    ofNat_toNat_ushiftRight, hindex, hrest, crc16Step_eq_lookup]

end Sys2Proof.Machine
end

section
/-! The statements about the CRC engine (40_crc_engine.md R80 to R94, 95_test_vectors.md TP1 and section 3.3). -/

namespace Sys2Proof.Machine

/-! ### The tables and the two updates -/

/-- Settles O3: the table feeds eight zeros, which is linear; entry 1 is evaluated round by round, and its one bit is at
the top in the last. -/
theorem crcTablesAreThePolynomialsTables : Obligations.CrcTablesAreThePolynomialsTables := by
  have hround {w : Nat} (p : BitVec w) :
      (fun c : BitVec w => if c.getLsbD (w - 1) then (c <<< 1) ^^^ p else c <<< 1) = feedZero p := by
    funext c
    cases h : c.getLsbD (w - 1) <;> simp [feedZero, feedBit, h]
  refine ⟨fun p i j => ⟨?_, table8_zero p, ?_, table8_xor p i j⟩,
    fun p i j => ⟨?_, table16_zero p, ?_, table16_xor p i j⟩⟩
  · rw [table8_eq, ← hround]
  · simp [table8, rounds8, round8]
  · rw [table16_eq, ← hround]
  · simp [table16, rounds16, round16]

/-- Settles O5: both feed the eight bits of the byte. -/
theorem updateVOfEightBitsIsUpdate : Obligations.UpdateVOfEightBitsIsUpdate :=
  ⟨fun p c b => by rw [crc8Bits_eq _ _ _ (by decide), crc8Step_eq],
    fun p c b => by rw [crc16Bits_eq _ _ _ (by decide), crc16Step_eq]⟩

/-- The bits of two numbers joined into one. -/
theorem bitsOf_mul_two_pow_add (u m : Nat) {v n : Nat} (hv : v < 2 ^ n) :
    bitsOf (u * 2 ^ n + v) (m + n) = bitsOf u m ++ bitsOf v n := by
  have hhigh : (u * 2 ^ n + v) >>> n = u := by
    rw [Nat.shiftRight_eq_div_pow, Nat.mul_comm, Nat.mul_add_div (Nat.two_pow_pos n), Nat.div_eq_of_lt hv, Nat.add_zero]
  have hlow : bitsOf (u * 2 ^ n + v) n = bitsOf v n := by
    rw [← bitsOf_mod le_rfl, Nat.mul_add_mod_self_right, bitsOf_mod le_rfl]
  rw [bitsOf_add, hhigh, hlow]

/-- Settles O6: the bits of the joined value are those of the first, then those of the second. -/
theorem updateVComposes : Obligations.UpdateVComposes := by
  intro m n u v _ _ hmn _ hv
  refine ⟨fun p c => ?_, fun p c => ?_⟩
  · rw [crc8Bits_eq _ _ _ hmn, bitsOf_mul_two_pow_add u m hv, List.foldl_append, crc8Bits_eq _ _ _ (by omega),
      crc8Bits_eq _ _ _ (by omega)]
  · rw [crc16Bits_eq _ _ _ hmn, bitsOf_mul_two_pow_add u m hv, List.foldl_append, crc16Bits_eq _ _ _ (by omega),
      crc16Bits_eq _ _ _ (by omega)]

/-! ### Whole byte strings -/

/-- The checksum of a byte string feeds its bits one by one (R86). -/
theorem crc8Fold_eq (p : BitVec 8) (data : List Byte) :
    crc8Fold p data = (data.flatMap fun b => bitsOf b.toNat 8).foldl (bitStep8 p) 0 := by
  rw [crc8Fold, List.foldl_flatMap]
  simp only [← crc8Step_eq]

/-- The checksum of a byte string feeds its bits one by one (R91). -/
theorem crc16Fold_eq (p : BitVec 16) (data : List Byte) :
    crc16Fold p data = (data.flatMap fun b => bitsOf b.toNat 8).foldl (bitStep16 p) 0 := by
  rw [crc16Fold, List.foldl_flatMap]
  simp only [← crc16Step_eq]

/-- An update of up to 16 bits that feeds them one by one feeds the bits of a list of pieces one by one. -/
theorem foldl_pieces {α : Type} {update : α → Nat → Nat → α} {bit : α → Bool → α}
    (hupdate : ∀ c v n, n ≤ 16 → update c v n = (bitsOf v n).foldl bit c) {pieces : List (Nat × Nat)}
    (hpieces : ∀ q ∈ pieces, q.1 ≤ 16) (c : α) :
    pieces.foldl (fun c q => update c q.2 q.1) c = (pieces.flatMap fun q => bitsOf q.2 q.1).foldl bit c := by
  rw [List.foldl_flatMap]
  exact List.foldl_ext _ _ _ fun c q hq => hupdate c q.2 q.1 (hpieces q hq)

/-- Settles O8: the pieces and the bytes feed the same bits. -/
theorem crcIsIndependentOfThePartition : Obligations.CrcIsIndependentOfThePartition := by
  intro data pieces hpieces hbits
  have hwidth : ∀ q ∈ pieces, q.1 ≤ 16 := fun q hq => (hpieces q hq).2.1
  refine ⟨fun p => ?_, fun p => ?_⟩
  · rw [foldl_pieces (fun c v n => crc8Bits_eq p c v) hwidth, hbits, crc8Fold_eq]
  · rw [foldl_pieces (fun c v n => crc16Bits_eq p c v) hwidth, hbits, crc16Fold_eq]

/-- A CRC8 register fed its own value is 0. -/
theorem crc8Step_self (p c : BitVec 8) : crc8Step p c c = 0#8 := by
  rw [crc8Step, BitVec.xor_self, table8_zero]

/-- A CRC16 register fed its own high byte keeps the low byte, moved up. -/
theorem crc16Step_high (p c : BitVec 16) : crc16Step p c ((c >>> 8).setWidth 8) = c <<< 8 := by
  rw [crc16Step_eq_lookup, BitVec.xor_self, table16_zero, BitVec.zero_xor]

/-- Settles O9: the value itself cancels what stands in the register, for CRC16 in two halves. -/
theorem crcFedAfterItsDataIsZero : Obligations.CrcFedAfterItsDataIsZero := by
  intro data
  refine ⟨fun p => ?_, fun p => ?_⟩
  · rw [crc8Fold, List.foldl_append, List.foldl_cons, List.foldl_nil, ← crc8Fold, crc8Step_self]
    rfl
  · rw [crc16Fold, List.foldl_append, List.foldl_cons, List.foldl_cons, List.foldl_nil, ← crc16Fold]
    generalize crc16Fold p data = c
    have hlow : c.setWidth 8 = (c <<< 8 >>> 8).setWidth 8 := by
      ext i hi
      simp [show 8 + i < 16 by omega, show i < 16 by omega, BitVec.getLsbD_eq_getElem]
    rw [crc16Step_high, hlow, crc16Step_high, ← BitVec.shiftLeft_add, BitVec.shiftLeft_eq_zero le_rfl]
    rfl

/-! ### The commands: the answer is the checksum, and no state is written (R80) -/

section commands
variable {s : State} {check : Except Status Unit}

theorem complete_check_ok (hcheck : check = .ok ()) (v : Word) :
    (complete s do check; .ok (s, v)) = .next (answered s v) := by
  rw [hcheck]
  rfl

theorem complete_check_error {st : Status} (hcheck : check = .error st) (v : Word) :
    (complete s do check; .ok (s, v)) = .next (raised s st) := by
  rw [hcheck]
  rfl

end commands

/-- Settles O4: the width is checked, and the value is cut to the bits that are fed. -/
theorem crcUpdateVFeedsTheBits : Obligations.CrcUpdateVFeedsTheBits := by
  intro s w x y
  refine ⟨fun hw => ?_, fun hw => ?_⟩
  · rw [← bitsOf_mod (v := x.toNat) (le_refl w.toNat), ← crc8Bits_eq _ _ _ hw.2, ← crc16Bits_eq _ _ _ hw.2]
    exact ⟨complete_check_ok (needWidth_pos hw) _, complete_check_ok (needWidth_pos hw) _⟩
  · exact ⟨complete_check_error (needWidth_neg hw) _, complete_check_error (needWidth_neg hw) _⟩

/-- Settles O7: the count is checked, and the fold is over `update` as its table lookup. -/
theorem crcBlockFoldsUpdate : Obligations.CrcBlockFoldsUpdate := by
  intro s x data
  refine ⟨fun hx _ => ?_, fun hx => ?_⟩
  · simp only [← crc16Step_eq_lookup]
    exact ⟨complete_check_ok (needCount_pos hx) _, complete_check_ok (needCount_pos hx) _⟩
  · have hcount := needCount_neg (Nat.not_le_of_lt hx)
    exact ⟨complete_check_error hcount _, complete_check_error hcount _⟩

/-- Settles O1: INIT answers at once, and FINISH cuts its operand to the width of the checksum. -/
theorem crcInitAndFinishAnswer : Obligations.CrcInitAndFinishAnswer := by
  intro s y
  have h8 : (crc8Operand y).setWidth 32 = BitVec.ofNat 32 (y.toNat % 256) := by
    rw [← BitVec.ofNat_toNat, crc8Operand, BitVec.toNat_ofNat]
  have h16 : (crc16Operand y).setWidth 32 = BitVec.ofNat 32 (y.toNat % 65536) := by
    rw [← BitVec.ofNat_toNat, crc16Operand, BitVec.toNat_ofNat]
  rw [← h8, ← h16]
  exact ⟨rfl, rfl, rfl, rfl⟩

/-- Settles O2: the operands are cut to a byte and to the width of the checksum. -/
theorem crcUpdateLooksUpTheTable : Obligations.CrcUpdateLooksUpTheTable := by
  intro s x y
  refine ⟨rfl, ?_⟩
  have hhigh : BitVec.ofNat 8 (y.toNat / 256) = BitVec.ofNat 8 ((crc16Operand y).toNat / 256) := by
    apply BitVec.eq_of_toNat_eq
    simp only [crc16Operand, BitVec.toNat_ofNat]
    omega
  have hlow : BitVec.ofNat 16 (y.toNat * 256) = crc16Operand y <<< 8 := by
    rw [crc16Operand, ← ofNat_shiftLeft, Nat.shiftLeft_eq]
  rw [hhigh, hlow]
  rfl

end Sys2Proof.Machine
end

section
/-! SUPPORT. One check of a command's pseudocode after the other: what passed is left behind, and what failed is the
answer (60_exceptions.md R213, R214); the checks of a host window (41_msg_lifecycle.md R100) and of room (R102). -/

namespace Sys2Proof.Machine

/-! ### Passing a check and failing it -/

section checks
variable {α : Type} {s : State} {check : Except Status α}

theorem complete_bind_ok {a : α} (hcheck : check = .ok a) (rest : α → Except Status (State × Word)) :
    complete s (check >>= rest) = complete s (rest a) := by
  rw [hcheck, bind_ok]

theorem complete_bind_error {st : Status} (hcheck : check = .error st) (rest : α → Except Status (State × Word)) :
    complete s (check >>= rest) = .next (raised s st) := by
  rw [hcheck, bind_error, complete_error, raise]

end checks

/-- A command whose handle is valid goes on to its other checks. -/
theorem complete_needCtx {s : State} {ha : Byte} {c : Ctx} (hc : s.ctx? ha.toNat = some c)
    (rest : Ctx → Except Status (State × Word)) : complete s (needCtx s ha >>= rest) = complete s (rest c) :=
  complete_bind_ok (needCtx_some hc) rest

/-- A command that refuses an operand with BadOperand whatever the context does so whatever the handle. -/
theorem complete_needCtx_badOperand {s : State} {ha : Byte} {rest : Ctx → Except Status (State × Word)}
    (hrest : ∀ c, complete s (rest c) = .next (raised s .badOperand)) :
    complete s (needCtx s ha >>= rest) = .next (raised s .badOperand) := by
  cases hc : s.ctx? ha.toNat with
  | none => exact complete_bind_error (needCtx_none hc) rest
  | some c => rw [complete_needCtx hc, hrest c]

/-- The slot a create command takes, when there is one (R101). -/
theorem complete_newContext {s : State} {h : Nat} (hfree : lowestFree s h)
    (rest : Nat → Except Status (State × Word)) : complete s (newContext s >>= rest) = complete s (rest h) :=
  complete_bind_ok ((newContext_eq_ok_iff_lowestFree s h).2 hfree) rest

theorem complete_newContext_full {s : State} (hfull : ∀ c ∈ s.ctxs, c.valid = true)
    (rest : Nat → Except Status (State × Word)) :
    complete s (newContext s >>= rest) = .next (raised s .outOfMemory) :=
  complete_bind_error (newContext_eq_error.2 ⟨hfull, rfl⟩) rest

/-- The end of a command that changes the context of a valid handle (R100). -/
theorem complete_mapCtx {s : State} {h : Nat} {c : Ctx} (hc : s.ctx? h = some c) (f : Ctx → Ctx) (v : Word) :
    complete s (.ok (s.mapCtx h f, v)) = .next { s with ctxs := s.ctxs.set h (f c), resp := some ⟨.ok, v⟩ } := by
  rw [mapCtx_of_ctx? f hc]
  rfl

/-! ### Host windows and room -/

section window
variable {s : State} {n a : Nat}

/-- The two checks of the window a host lends (R104, R106). -/
theorem complete_window_ok (hwin : 1 ≤ n ∧ n ≤ 65532 ∧ 3 ≤ a ∧ a + n ≤ 2 ^ 32)
    (rest : Except Status (State × Word)) :
    complete s (do needCap n; needBase a n; rest) = complete s rest := by
  obtain ⟨hpos, hmax, hbase⟩ := hwin
  rw [complete_bind_ok (needCap_pos ⟨hpos, hmax⟩), complete_bind_ok (needBase_pos hbase)]

theorem complete_window_error (hwin : ¬ (1 ≤ n ∧ n ≤ 65532 ∧ 3 ≤ a ∧ a + n ≤ 2 ^ 32))
    (rest : Except Status (State × Word)) :
    complete s (do needCap n; needBase a n; rest) = .next (raised s .badOperand) := by
  by_cases hcap : 1 ≤ n ∧ n ≤ 65532
  · have hbase : ¬ (3 ≤ a ∧ a + n ≤ 2 ^ 32) := fun hbase => hwin ⟨hcap.1, hcap.2, hbase⟩
    rw [complete_bind_ok (needCap_pos hcap), complete_bind_error (needBase_neg hbase)]
  · exact complete_bind_error (needCap_neg hcap) _

end window

/-- A write cursor put behind `n` whole bytes of content. -/
theorem withWC_wholeBytes (c : Ctx) (n : Nat) : c.withWC (c.ps + 8 * n) =
    { c with dataEnd := BitVec.ofNat 16 (c.dataOff.toNat + n), dataEndOff := 0 } := by
  have hbytes : (8 * c.dataOff.toNat + 8 * n) / 8 = c.dataOff.toNat + n := by omega
  have hbits : (8 * c.dataOff.toNat + 8 * n) % 8 = 0 := by omega
  simp [Ctx.withWC, Ctx.ps, hbytes, hbits]

/-- Making room fails exactly as R102 orders its reasons: the owner, `CAP_MAX`, the pool. -/
theorem ensureRoom_of_not_roomFor {s : State} {c : Ctx} {n : Nat} (h : Nat) (hroom : ¬ roomFor s c n) :
    ensureRoom s h c n = .error (roomStatus c n) := by
  rw [roomFor_iff, not_or] at hroom
  obtain ⟨hlim, hgrow⟩ := hroom
  by_cases ho : c.own = .owned
  · by_cases hcap : neededCap c n ≤ 65532
    · have hpool : ¬ s.poolHolds (s.poolUsed - c.cap.toNat + neededCap c n) = true :=
        fun hpool => hgrow ⟨ho, hcap, hpool⟩
      simp [ensureRoom, roomStatus, Config.capMax, hlim, ho, hcap, Nat.not_lt.2 hcap, hpool]
    · simp [ensureRoom, roomStatus, Config.capMax, hlim, ho, hcap]
  · simp [ensureRoom, roomStatus, hlim, ho]

/-- An append to a context with storage but without room (R121, R122, R141). -/
theorem complete_append_error {s : State} {h n v : Nat} {c : Ctx} (ho : c.own ≠ .detached) (hroom : ¬ roomFor s c n)
    (rest : State → Except Status (State × Word)) :
    complete s (do needStore c; let t ← appendBits s h c n v; rest t) = .next (raised s (roomStatus c n)) := by
  have happend : appendBits s h c n v = .error (roomStatus c n) :=
    bind_eq_error.2 (.inl (ensureRoom_of_not_roomFor h hroom))
  rw [complete_bind_ok (needStore_pos ho), complete_bind_error happend]

end Sys2Proof.Machine
end

section
/-! The statements about the lifecycle of a message and about the handles, storage and room that commands ask for
(41_msg_lifecycle.md R100 to R108, 60_exceptions.md R211, R213). -/

namespace Sys2Proof.Machine

/-! ### Handles, storage and room -/

/-- Settles O43: the handle is the first check of every command that names one; ADD_FROM, which names two, asks for both
before anything else. -/
theorem badHandleIsBadOperand : Obligations.BadHandleIsBadOperand := by
  intro i s h hh hn
  cases i with
  | crc8Init | crc8Update x y | crc8UpdateV w x y | crc8Finish y | crc8Block x data | crc16Init | crc16Update x y
  | crc16UpdateV w x y | crc16Finish y | crc16Block x data | allocate x | wrap x y | fillCrc ha hb w x =>
    exact absurd hh List.not_mem_nil
  | addFrom ha hb x =>
    rw [exec, execAddFrom]
    cases hc : s.ctx? ha.toNat with
    | none => exact complete_bind_error (needCtx_none hc) _
    | some c =>
      have hsource : s.ctx? hb.toNat = none := by
        rcases List.mem_pair.1 hh with rfl | rfl
        · cases hc.symm.trans hn
        · exact hn
      rw [complete_needCtx hc, complete_bind_error (needCtx_none hsource)]
  | duplicate ha | release ha | grow ha x | attach ha x y | startSend ha | appendByte ha x | appendBytes ha x data
  | startExtract ha | hasMore ha | extractChunk ha w | startAdd ha | addChunk ha w x | drop ha w | align ha
  | truncateCopy ha x | start ha | length ha | bitLength ha | sentBits ha | getField ha hb | setField ha hb x
  | hdrEncode ha | hdrDecode ha =>
    obtain rfl := List.mem_singleton.1 hh
    exact complete_bind_error (needCtx_none hn) _

/-- Settles O44: each command's operand checks pass, and the check of storage is the next. -/
theorem detachedContextHasNoBytes : Obligations.DetachedContextHasNoBytes := by
  intro s ha w x data c hc ho
  have hstore := needStore_neg ho
  refine ⟨?_, fun hx => ?_, fun hlo hhi => ?_, fun hlo hhi => ?_, fun hb d hd hne hx => ⟨?_, ?_⟩⟩
  · have hfirst (rest : Ctx → Unit → Except Status (State × Word)) :
        complete s (do let c ← needCtx s ha; let u ← needStore c; rest c u) =
          .next (raised s .invalidBufferOwnership) := by
      rw [complete_needCtx hc, complete_bind_error hstore]
    simp only [List.forall_mem_cons]
    exact ⟨hfirst _, hfirst _, hfirst _, hfirst _, List.forall_mem_nil _⟩
  · rw [exec, execAppendBytes, complete_needCtx hc, complete_bind_ok (needCount_pos hx), complete_bind_error hstore]
  · have hwidth (rest : Ctx → Unit → Except Status (State × Word)) :
        complete s (do let c ← needCtx s ha; needWidth w; let u ← needStore c; rest c u) =
          .next (raised s .invalidBufferOwnership) := by
      rw [complete_needCtx hc, complete_bind_ok (needWidth_pos ⟨hlo, hhi⟩), complete_bind_error hstore]
    simp only [List.forall_mem_cons]
    exact ⟨hwidth _, hwidth _, hwidth _, List.forall_mem_nil _⟩
  · have hown : c.own ≠ .owned := by simp [ho]
    rw [exec, execGrow, complete_needCtx hc, complete_bind_ok (needCap_pos ⟨hlo, hhi⟩),
      complete_bind_error (need_neg hown)]
  · rw [exec, execAddFrom, complete_needCtx hc, complete_needCtx hd, complete_bind_ok (need_pos hne),
      complete_bind_ok (needCount_pos hx), complete_bind_error hstore]
  · rw [exec, execAddFrom, complete_needCtx hd, complete_needCtx hc, complete_bind_ok (need_pos hne.symm),
      complete_bind_ok (needCount_pos hx)]
    by_cases hod : d.own = .detached
    · rw [complete_bind_error (needStore_neg hod)]
    · rw [complete_bind_ok (needStore_pos hod), complete_bind_error hstore]

/-- Settles O20: the operand is checked first, and an append asks for its room before it writes. -/
theorem appendsWithoutRoomAreRefused : Obligations.AppendsWithoutRoomAreRefused := by
  intro s ha w x data
  refine ⟨fun hx => ?_, fun hw => ?_, fun c hc ho => ⟨fun hroom => ?_, fun hx _ hroom => ?_, fun hlo hhi hroom => ?_⟩⟩
  · exact complete_needCtx_badOperand fun c => complete_bind_error (needCount_neg (Nat.not_le_of_lt hx)) _
  · exact complete_needCtx_badOperand fun c => complete_bind_error (needWidth_neg hw) _
  · rw [exec, execAppendByte, complete_needCtx hc, complete_append_error ho hroom]
  · rw [exec, execAppendBytes, complete_needCtx hc, complete_bind_ok (needCount_pos hx),
      complete_append_error ho hroom]
  · rw [exec, execAddChunk, complete_needCtx hc, complete_bind_ok (needWidth_pos ⟨hlo, hhi⟩),
      complete_append_error ho hroom]

/-! ### Creating a context -/

/-- Settles O10: the lowest free slot gets the new context, with `init_ctx`'s fields but for the buffer it owns. -/
theorem allocateMakesAnOwnedContext : Obligations.AllocateMakesAnOwnedContext := by
  intro s x
  rw [exec, execAllocate]
  refine ⟨fun hx => complete_bind_error (needCap_neg hx) _, fun hlo hhi => ?_⟩
  rw [complete_bind_ok (needCap_pos ⟨hlo, hhi⟩)]
  refine ⟨fun hfull => complete_newContext_full hfull _, fun h hfree => ?_⟩
  rw [complete_newContext hfree, ← poolHolds_iff_poolAllows]
  exact ⟨fun hpool => complete_bind_error (need_neg hpool) _, fun hpool =>
    ⟨_, _, complete_bind_ok (need_pos hpool) _, rfl⟩⟩

/-- Settles O11: the window is checked before a slot is looked for, and the write cursor stands at its end. -/
theorem wrapBorrowsAWindow : Obligations.WrapBorrowsAWindow := by
  intro s x y
  refine ⟨fun hwin => complete_window_error hwin _, fun hlo hhi hbase hend => ?_⟩
  rw [exec, execWrap, complete_window_ok ⟨hlo, hhi, hbase, hend⟩]
  refine ⟨fun hfull => complete_newContext_full hfull _, fun h hfree => ?_⟩
  rw [complete_newContext hfree]
  exact ⟨_, rfl, withWC_wholeBytes _ _⟩

/-- Settles O12: the new context has the nine fields of the source and `init_ctx`'s for all others, storage among them. -/
theorem duplicateCopiesTheFieldsOnly : Obligations.DuplicateCopiesTheFieldsOnly := by
  intro s ha
  refine ⟨badHandleIsBadOperand (.duplicate ha) s ha (List.mem_singleton_self ha), fun c hc => ?_⟩
  rw [exec, execDuplicate, complete_needCtx hc]
  refine ⟨fun hfull => complete_newContext_full hfull _, fun h hfree => ?_⟩
  rw [complete_newContext hfree]
  exact ⟨_, rfl, rfl⟩

/-! ### Changing and releasing a context -/

/-- Settles O13: the checks in their order, and the window in the place of no storage. -/
theorem attachGivesStorage : Obligations.AttachGivesStorage := by
  intro s ha x y
  refine ⟨badHandleIsBadOperand (.attach ha x y) s ha (List.mem_singleton_self ha), fun c hc => ?_⟩
  rw [exec, execAttach, complete_needCtx hc]
  split
  next hwin => exact complete_window_error hwin _
  next hwin =>
    rw [complete_window_ok (not_not.1 hwin)]
    split
    next hown => exact complete_bind_error (need_neg hown) _
    next hown =>
      rw [complete_bind_ok (need_pos (not_not.1 hown))]
      split
      next hwc => exact complete_bind_error (need_neg (Nat.not_le_of_lt hwc)) _
      next hwc => rw [complete_bind_ok (need_pos (Nat.le_of_not_lt hwc)), complete_mapCtx hc]

/-- Settles O14: the slot's share of the pool is returned whole, since an invalid slot takes nothing. -/
theorem releaseFreesTheContext : Obligations.ReleaseFreesTheContext := by
  intro s ha
  refine ⟨badHandleIsBadOperand (.release ha) s ha (List.mem_singleton_self ha), fun c hc => ?_⟩
  refine ⟨_, [], ?_, rfl, ?_⟩
  · rw [exec, execRelease, complete_needCtx hc, complete_mapCtx hc]
  · obtain ⟨hslot, hv⟩ := ctx?_eq_some.1 hc
    have hshare : c.poolBytes = if c.own = .owned then c.cap.toNat + 3 else 0 := by
      simp [Ctx.poolBytes, hv, Config.msgMaxHdr]
    have hfreed : ({ c with valid := false, store := [] } : Ctx).poolBytes = 0 := poolBytes_invalid rfl
    rw [← hshare]
    exact (poolUsed_putCtx _ hslot).trans (by rw [hfreed, Nat.add_zero])

/-- Settles O15: the checks in their order; only a larger capacity asks the pool and is written. -/
theorem growKeepsBytesAndCursors : Obligations.GrowKeepsBytesAndCursors := by
  intro s ha x
  refine ⟨badHandleIsBadOperand (.grow ha x) s ha (List.mem_singleton_self ha), fun c hc => ?_⟩
  rw [exec, execGrow, complete_needCtx hc]
  refine ⟨fun hx => complete_bind_error (needCap_neg hx) _, fun hlo hhi => ?_⟩
  rw [complete_bind_ok (needCap_pos ⟨hlo, hhi⟩)]
  refine ⟨fun hown => complete_bind_error (need_neg hown) _, fun hown => ?_⟩
  rw [complete_bind_ok (need_pos hown)]
  refine ⟨fun hle => ?_, fun hlt => ?_⟩
  · rw [if_pos hle]
    rfl
  · rw [if_neg (Nat.not_le_of_lt hlt), ← poolHolds_iff_poolAllows]
    refine ⟨fun hpool => complete_bind_error (need_neg hpool) _, fun hpool => ?_⟩
    rw [complete_bind_ok (need_pos hpool), complete_mapCtx hc]

end Sys2Proof.Machine
end

section
/-! SUPPORT. Which changes of a state leave every buffer reading as before, what making room and appending bits do when
there is room (20_memory.md R46, 41_msg_lifecycle.md R102), and the bits of a byte string (42_msg_send.md R122). -/

namespace Sys2Proof.Machine

/-! ### Changes of a context outside its storage -/

/-- The bytes of the two contexts lie at the same places, and those of an owned buffer are the same. -/
abbrev Ctx.sameStorage (c d : Ctx) : Prop :=
  d.own = c.own ∧ d.base = c.base ∧ d.store = c.store ∧ d.bufId = c.bufId

/-- Every byte, of host memory and of every buffer, lies in `t` where it lies in `s` and holds what it holds there. -/
structure SameBuffers (s t : State) : Prop where
  host : t.host = s.host
  slot : ∀ j, (s.slot j).sameStorage (t.slot j)

theorem SameBuffers.of_set {s t : State} {h : Nat} {c d : Ctx} (hc : s.ctx? h = some c)
    (hctxs : t.ctxs = s.ctxs.set h d) (hhost : t.host = s.host) (hd : c.sameStorage d) : SameBuffers s t where
  host := hhost
  slot j := by
    by_cases hj : j = h
    · subst hj
      obtain ⟨hlt, -⟩ := List.getElem?_eq_some_iff.1 (ctx?_eq_some.1 hc).1
      have hslot : t.slot j = d := slot_of_getElem? (by rw [hctxs, List.getElem?_set_self hlt])
      rwa [hslot, slot_of_ctx? hc]
    · have hslot : t.slot j = s.slot j := by simp [State.slot, List.getD, hctxs, Ne.symm hj]
      rw [hslot]
      exact ⟨rfl, rfl, rfl, rfl⟩

section buffers
variable {s t : State} (hb : SameBuffers s t)
include hb

theorem SameBuffers.bufLoc (h k : Nat) : t.bufLoc h k = s.bufLoc h k := by
  obtain ⟨hown, hbase, -, -⟩ := hb.slot h
  rw [State.bufLoc, State.bufLoc, hown, hbase]

theorem SameBuffers.locRead (l : Loc) : t.locRead l = s.locRead l := by
  cases l with
  | own h k =>
    obtain ⟨-, -, hstore, hid⟩ := hb.slot h
    rw [State.locRead, State.locRead, hstore, hid]
  | host a => rw [State.locRead, State.locRead, hb.host]

theorem SameBuffers.bufBit (h q : Nat) : t.bufBit h q = s.bufBit h q := by
  rw [State.bufBit, State.bufBit, State.bufRead, State.bufRead, hb.bufLoc, hb.locRead]

end buffers

/-- The context in the slot of a valid handle after it was changed. -/
theorem ctx?_of_set {s t : State} {h : Nat} {c d : Ctx} (hc : s.ctx? h = some c)
    (hctxs : t.ctxs = s.ctxs.set h d) (hv : d.valid = c.valid) : t.ctx? h = some d := by
  obtain ⟨hslot, hvalid⟩ := ctx?_eq_some.1 hc
  obtain ⟨hlt, -⟩ := List.getElem?_eq_some_iff.1 hslot
  exact ctx?_eq_some.2 ⟨by rw [hctxs, List.getElem?_set_self hlt], hv.trans hvalid⟩

theorem SameBuffers.mapCtx {s : State} {h : Nat} {c : Ctx} {f : Ctx → Ctx} (hc : s.ctx? h = some c)
    (hf : c.sameStorage (f c)) : SameBuffers s (s.mapCtx h f) := by
  rw [mapCtx_of_ctx? f hc]
  exact .of_set hc rfl rfl hf

theorem ctx?_mapCtx {s : State} {h : Nat} {c : Ctx} {f : Ctx → Ctx} (hc : s.ctx? h = some c)
    (hv : (f c).valid = c.valid) : (s.mapCtx h f).ctx? h = some (f c) := by
  rw [mapCtx_of_ctx? f hc]
  exact ctx?_of_set hc rfl hv

/-! ### Making room and appending -/

/-- The context after room was made for `n` bits (R102). -/
def Ctx.withRoom (c : Ctx) (n : Nat) : Ctx := { c with cap := BitVec.ofNat 16 (capAfter c n) }

/-- Making room succeeds exactly as `capAfter` says: with the capacity there is, or grown to the capacity needed
(R102). -/
theorem ensureRoom_of_roomFor {s : State} {h n : Nat} {c : Ctx} (hc : s.ctx? h = some c) (hroom : roomFor s c n) :
    ensureRoom s h c n = .ok (s.putCtx h (c.withRoom n)) := by
  rw [roomFor_iff] at hroom
  by_cases hlim : c.wc + n ≤ c.lim
  · have hcap : c.withRoom n = c := by
      rw [Ctx.withRoom, capAfter, if_pos hlim, BitVec.ofNat_toNat, BitVec.setWidth_eq]
    have hsame : s.putCtx h c = s := by
      obtain ⟨hlt, hget⟩ := List.getElem?_eq_some_iff.1 (ctx?_eq_some.1 hc).1
      rw [State.putCtx, ← hget, List.set_getElem_self]
    rw [ensureRoom, if_pos hlim, hcap, hsame]
  · obtain ⟨ho, hmax, hpool⟩ := hroom.resolve_left hlim
    have hcap : ¬ ceil8 (c.wc + n - c.ps) > Config.capMax := Nat.not_lt.2 hmax
    rw [ensureRoom, if_neg hlim, if_neg (not_not.2 ho), if_neg hcap, if_neg (not_not.2 hpool), mapCtx_of_ctx? _ hc,
      Ctx.withRoom, capAfter, if_neg hlim]

/-- The capacity after making room is a legal one, and the storage it gives holds the bits. -/
theorem capAfter_of_roomFor {s : State} {m n : Nat} {c : Ctx} (hwf : c.wf m) (ho : c.own ≠ .detached)
    (hroom : roomFor s c n) : capAfter c n ≤ 65532 ∧ c.wc + n ≤ 8 * (c.dataOff.toNat + capAfter c n) := by
  unfold capAfter
  split
  next hlim => exact ⟨(storage_of_wf hwf ho).2.1, hlim⟩
  next hlim =>
    obtain ⟨-, hmax, -⟩ := hroom.resolve_left hlim
    refine ⟨hmax, ?_⟩
    unfold neededCap ceil8 Ctx.ps
    omega

/-- The claim about an append depends on the appended bits alone, not on how they are given. -/
theorem appended_congr {s t : State} {h n : Nat} {c : Ctx} {bit bit' : Nat → Bool}
    (hbit : ∀ i, i < n → bit i = bit' i) (happ : appended s t h c n bit) : appended s t h c n bit' := by
  obtain ⟨hctx, hbits, hrest⟩ := happ
  exact ⟨hctx, fun i hi => (hbits i hi).trans (hbit i hi), hrest⟩

section append
variable {s : State} {h p n v : Nat} {c : Ctx}

/-- Bits written to a buffer change nothing of the context but the bytes of an owned buffer. -/
theorem ctx?_putBits (hc : s.ctx? h = some c) (ho : c.own ≠ .detached) :
    ∃ m, (s.putBits h p n v).ctx? h = some { c with store := m } ∧ (c.own ≠ .owned → m = c.store) := by
  have hw := putBits_writes s h p n v
  obtain ⟨m, hm⟩ := hw.ctx? hc
  refine ⟨m, hm, fun hown => ?_⟩
  have hlent : (s.slot h).own = .borrowed := by
    rw [slot_of_ctx? hc]
    cases hc' : c.own <;> simp_all
  have hsame : (s.putBits h p n v).ctx? h = s.ctx? h := by rw [State.ctx?, State.ctx?, hw.ctxs_of_borrowed hlent]
  rw [hsame, hc] at hm
  exact congrArg Ctx.store (Option.some.inj hm).symm

/-- An append to a context with room: the context changes outside its storage, its bits are written, and its write
cursor moves. -/
theorem appendBits_of_roomFor (v : Nat) (hi : s.Inv) (hc : s.ctx? h = some c) (ho : c.own ≠ .detached)
    (hroom : roomFor s c n) :
    ∃ t, appendBits s h c n v = .ok t ∧ t.fresh = s.fresh ∧ sameOtherSlots s t h ∧
      appended s t h c n fun i => v.testBit (n - 1 - i) := by
  have hwf := wf_of_ctx? hi hc
  have hoff := dataOff_of_wf hwf
  obtain ⟨hmax, hfits⟩ := capAfter_of_roomFor hwf ho hroom
  refine ⟨_, appendBits_eq_ok.2 ⟨_, ensureRoom_of_roomFor hc hroom, rfl⟩, ?_⟩
  have hc1 : (s.putCtx h (c.withRoom n)).ctx? h = some (c.withRoom n) := ctx?_of_set hc rfl rfl
  have hgrown : SameBuffers s (s.putCtx h (c.withRoom n)) := .of_set hc rfl rfl ⟨rfl, rfl, rfl, rfl⟩
  have hw := putBits_writes (s.putCtx h (c.withRoom n)) h c.wc n v
  obtain ⟨m, hc2, hstore⟩ := ctx?_putBits (p := c.wc) (n := n) (v := v) hc1 ho
  have hmoved := SameBuffers.mapCtx (f := fun d => d.withWC (c.wc + n)) hc2 ⟨rfl, rfl, rfl, rfl⟩
  have hlast := ctx?_mapCtx (f := fun d => d.withWC (c.wc + n)) hc2 rfl
  obtain ⟨hlt, -⟩ := List.getElem?_eq_some_iff.1 (ctx?_eq_some.1 hc1).1
  have hwc := withWC_wc ({ c.withRoom n with store := m } : Ctx) (c.wc + n) (by omega)
  refine ⟨hw.fresh, ⟨by simp, fun j hj => ?_⟩,
    ⟨_, (ctx?_eq_some.1 hlast).1, hwc, toNat_cap hmax, hstore, rfl⟩, fun i hi => ?_, fun q hq => ?_, fun l hl => ?_,
    fun hown => ?_, by simp, hw.params, hw.inbox, hw.hostData⟩
  · simp [Ne.symm hj, hw.other hj]
  · rw [hmoved.bufBit, bufBit_putBits _ _ _ _ _ hlt, if_pos (by omega), Nat.add_sub_cancel_left]
  · rw [hmoved.bufBit, bufBit_putBits _ _ _ _ _ hlt, if_neg (by omega), hgrown.bufBit]
  · rw [hmoved.locRead, hw.locRead l, hgrown.locRead]
    rintro k ⟨hlo, hhi⟩
    rw [hgrown.bufLoc]
    exact hl k hlo (by unfold ceil8; omega)
  · exact hw.host_of_not_borrowed (by rwa [slot_of_ctx? hc1])

end append

/-- An append command whose checks passed, on a context with storage and room (R121, R122, R141). -/
theorem complete_append_ok {s : State} {h n : Nat} {c : Ctx} (v : Nat) (hi : s.Inv) (hc : s.ctx? h = some c)
    (ho : c.own ≠ .detached) (hroom : roomFor s c n) :
    ∃ t, (complete s do needStore c; let t ← appendBits s h c n v; .ok (t, 0)) = .next t ∧
      t.resp = some ⟨.ok, 0⟩ ∧ t.fresh = s.fresh ∧ sameOtherSlots s t h ∧
      appended s t h c n fun i => v.testBit (n - 1 - i) := by
  obtain ⟨t, ht, hfresh, hother, happ⟩ := appendBits_of_roomFor v hi hc ho hroom
  refine ⟨{ t with resp := some ⟨.ok, 0⟩ }, ?_, rfl, hfresh, hother, happ⟩
  rw [complete_bind_ok (needStore_pos ho), complete_bind_ok ht, complete_ok, respond]

/-! ### The bits of a byte string (R122) -/

theorem bytesString_append_singleton (data : List Byte) (b : Byte) :
    bytesString (data ++ [b]) = 2 ^ 8 * bytesString data + b.toNat := by
  rw [bytesString, List.foldl_append, ← bytesString, Nat.mul_comm]
  rfl

/-- Bit `i` of the string, counted from its start, is bit `i % 8` of byte `i / 8`, most significant first. -/
theorem bytesString_testBit (data : List Byte) {i : Nat} (hi : i < 8 * data.length) :
    (bytesString data).testBit (8 * data.length - 1 - i) = (data.getD (i / 8) 0).getLsbD (7 - i % 8) := by
  induction data using List.reverseRecOn with
  | nil => simp at hi
  | append_singleton data b ih =>
    rw [List.length_append, List.length_singleton] at hi ⊢
    rw [bytesString_append_singleton, Nat.testBit_two_pow_mul_add _ b.isLt]
    by_cases hlast : 8 * data.length ≤ i
    · have hbyte : i / 8 = data.length := by omega
      rw [if_pos (by omega), List.getD_append_right _ _ _ _ hbyte.ge, hbyte, Nat.sub_self, List.getD_cons_zero,
        BitVec.testBit_toNat]
      congr 1
      omega
    · rw [if_neg (by omega), List.getD_append _ _ _ _ (by omega), ← ih (by omega)]
      congr 1
      omega

/-! ### The bits of a chunk (R125) -/

/-- Bits read to the top of a chunk of `w` bits: the first bit read is the chunk's first, and the missing ones are 0. -/
theorem getBits_shiftLeft_testBit (s : State) (h p : Nat) {r w i : Nat} (hr : r ≤ w) (hi : i < w) :
    (s.getBits h p r <<< (w - r)).testBit (w - 1 - i) = (decide (i < r) && s.bufBit h (p + i)) := by
  rw [Nat.testBit_shiftLeft, getBits_testBit]
  by_cases hir : i < r
  · have hidx : r - 1 - (w - 1 - i - (w - r)) = i := by omega
    simp [hir, hidx, show w - r ≤ w - 1 - i by omega, show w - 1 - i - (w - r) < r by omega]
  · simp [hir, show ¬ w - r ≤ w - 1 - i by omega]

theorem shortChunk_testBit (w r bits i : Nat) :
    (shortChunk w r bits).testBit i = (decide (i = w) || (bits <<< (w - r)).testBit i) := by
  rw [shortChunk, Nat.testBit_or, Nat.testBit_two_pow]
  simp [eq_comm]

/-- The three parts of an answer that is `r` bits of the buffer at the top of a chunk of `w` bits, and the marker above
when they are fewer than `w`: the chunk, the marker, and nothing else. -/
theorem chunkWord_getLsbD {s : State} {h p r w m : Nat} (hr : r ≤ w) (hw : w ≤ 16)
    (hm : ∀ i, m.testBit i = (decide (i = w ∧ r < w) || (s.getBits h p r <<< (w - r)).testBit i)) :
    (∀ i, i < w → (BitVec.ofNat 32 m).getLsbD (w - 1 - i) = (decide (i < r) && s.bufBit h (p + i))) ∧
    (BitVec.ofNat 32 m).getLsbD w = decide (r < w) ∧
    ∀ i, w < i → (BitVec.ofNat 32 m).getLsbD i = false := by
  have hchunk : s.getBits h p r <<< (w - r) < 2 ^ w := by
    have := Nat.mul_lt_mul_of_pos_right (getBits_lt s h p r) (Nat.two_pow_pos (w - r))
    rwa [← Nat.shiftLeft_eq, ← Nat.pow_add, Nat.add_sub_cancel' hr] at this
  have hhigh {i : Nat} (hi : w ≤ i) : (s.getBits h p r <<< (w - r)).testBit i = false :=
    Nat.testBit_eq_false_of_lt (hchunk.trans_le (Nat.pow_le_pow_right (by decide) hi))
  simp only [BitVec.getLsbD_ofNat, hm]
  refine ⟨fun i hi => ?_, ?_, fun i hi => ?_⟩
  · rw [getBits_shiftLeft_testBit s h p hr hi]
    simp [show w - 1 - i < 32 by omega, show w - 1 - i ≠ w by omega]
  · simp [hhigh le_rfl, show w < 32 by omega]
  · simp [hhigh hi.le, show i ≠ w by omega]

/-- The answer of EXTRACT_CHUNK to a width of `w` bits: a full chunk, or what is left and the marker (R125). -/
def State.nextChunk (s : State) (h : Nat) (c : Ctx) (w : Nat) : Nat :=
  if w ≤ c.wc - c.rc then s.getBits h c.rc w else shortChunk w (c.wc - c.rc) (s.getBits h c.rc (c.wc - c.rc))

theorem nextChunk_of_le {s : State} {h w : Nat} {c : Ctx} (hw : w ≤ c.wc - c.rc) :
    s.nextChunk h c w = s.getBits h c.rc w := if_pos hw

theorem nextChunk_getLsbD {s : State} {h w : Nat} {c : Ctx} (hw : w ≤ 16) :
    (∀ i, i < w → (BitVec.ofNat 32 (s.nextChunk h c w)).getLsbD (w - 1 - i) =
      (decide (c.rc + i < c.wc) && s.bufBit h (c.rc + i))) ∧
    (BitVec.ofNat 32 (s.nextChunk h c w)).getLsbD w = decide (c.wc - c.rc < w) ∧
    ∀ i, w < i → (BitVec.ofNat 32 (s.nextChunk h c w)).getLsbD i = false := by
  unfold State.nextChunk
  split
  next hfull =>
    obtain ⟨hbits, hmark, hhigh⟩ := chunkWord_getLsbD (s := s) (h := h) (p := c.rc) (m := s.getBits h c.rc w)
      le_rfl hw fun i => by simp
    refine ⟨fun i hi => ?_, ?_, hhigh⟩
    · rw [hbits i hi, decide_eq_true hi, decide_eq_true (by omega)]
    · rw [hmark, decide_eq_false (Nat.lt_irrefl w), decide_eq_false (Nat.not_lt.2 hfull)]
  next hshort =>
    have hlt : c.wc - c.rc < w := Nat.lt_of_not_le hshort
    obtain ⟨hbits, hmark, hhigh⟩ := chunkWord_getLsbD (s := s) (h := h) (p := c.rc)
      (m := shortChunk w (c.wc - c.rc) (s.getBits h c.rc (c.wc - c.rc))) hlt.le hw fun i => by
        simp only [shortChunk_testBit, and_iff_left hlt]
    refine ⟨fun i hi => ?_, hmark, hhigh⟩
    rw [hbits i hi, decide_eq_decide.2 (by omega : i < c.wc - c.rc ↔ c.rc + i < c.wc)]

/-- EXTRACT_CHUNK whose checks have passed: the next chunk, and the read cursor behind it or at the write cursor. -/
theorem exec_extractChunk_of_unread {s : State} {ha w : Byte} {c : Ctx} (hc : s.ctx? ha.toNat = some c)
    (hw : 1 ≤ w.toNat ∧ w.toNat ≤ 16) (ho : c.own ≠ .detached) (hunread : c.rc < c.wc) :
    exec (.extractChunk ha w) s = .next { s with
      ctxs := s.ctxs.set ha.toNat (c.withRC (min (c.rc + w.toNat) c.wc))
      resp := some ⟨.ok, BitVec.ofNat 32 (s.nextChunk ha.toNat c w.toNat)⟩ } := by
  rw [exec, execExtractChunk, complete_needCtx hc, complete_bind_ok (needWidth_pos hw),
    complete_bind_ok (needStore_pos ho), complete_bind_ok (need_pos hunread), State.nextChunk]
  by_cases hfull : w.toNat ≤ c.wc - c.rc
  · rw [if_pos hfull, if_pos hfull, complete_mapCtx hc, Nat.min_eq_left (by omega)]
  · rw [if_neg hfull, if_neg hfull, complete_mapCtx hc, Nat.min_eq_right (by omega)]

/-! ### Extracting bytes (R126) -/

/-- The bits of `BUF[h]` from position `p` on are those of the bytes, first byte first. -/
def State.holdsBytes (s : State) (h p : Nat) (data : List Byte) : Prop :=
  ∀ i, i < 8 * data.length → s.bufBit h (p + i) = (data.getD (i / 8) 0).getLsbD (7 - i % 8)

section holdsBytes
variable {s : State} {h p : Nat} {b : Byte} {data : List Byte}

/-- The first of the bytes is what `getbits` reads. -/
theorem State.holdsBytes.getBits (hb : s.holdsBytes h p (b :: data)) : s.getBits h p 8 = b.toNat := by
  refine Nat.eq_of_testBit_eq fun i => ?_
  rw [getBits_testBit, BitVec.testBit_toNat]
  by_cases hi : i < 8
  · have hbyte : (8 - 1 - i) / 8 = 0 := by omega
    have hbit : 7 - (8 - 1 - i) % 8 = i := by omega
    rw [hb (8 - 1 - i) (by rw [List.length_cons]; omega), hbyte, hbit, List.getD_cons_zero, decide_eq_true hi,
      Bool.true_and]
  · rw [decide_eq_false hi, Bool.false_and, BitVec.getLsbD_of_ge _ _ (Nat.le_of_not_lt hi)]

/-- The others stand behind it. -/
theorem State.holdsBytes.tail (hb : s.holdsBytes h p (b :: data)) : s.holdsBytes h (p + 8) data := by
  intro i hi
  have hbyte : (8 + i) / 8 = i / 8 + 1 := by omega
  have hbit : (8 + i) % 8 = i % 8 := by omega
  rw [Nat.add_assoc, hb (8 + i) (by rw [List.length_cons]; omega), hbyte, hbit, List.getD_cons_succ]

theorem SameBuffers.holdsBytes {t : State} (hsame : SameBuffers s t) (hb : s.holdsBytes h p data) :
    t.holdsBytes h p data :=
  fun i hi => (hsame.bufBit h (p + i)).trans (hb i hi)

end holdsBytes

/-- An 8-bit chunk is the next byte, without a marker. -/
theorem exec_extractChunk_of_holdsBytes {s : State} {ha b : Byte} {c : Ctx} {data : List Byte}
    (hc : s.ctx? ha.toNat = some c) (ho : c.own ≠ .detached) (hle : c.rc + 8 ≤ c.wc)
    (hb : s.holdsBytes ha.toNat c.rc (b :: data)) :
    ∃ t, exec (.extractChunk ha 8) s = .next t ∧ t.resp = some ⟨.ok, b.setWidth 32⟩ ∧
      t.ctx? ha.toNat = some (c.withRC (c.rc + 8)) ∧ SameBuffers s t := by
  have hexec := exec_extractChunk_of_unread (w := 8) hc (by decide) ho (by omega)
  rw [show (8 : Byte).toNat = 8 from rfl, Nat.min_eq_left hle, nextChunk_of_le (Nat.le_sub_of_add_le' hle), hb.getBits,
    BitVec.ofNat_toNat] at hexec
  exact ⟨_, hexec, rfl, ctx?_of_set hc rfl rfl, .of_set hc rfl rfl ⟨rfl, rfl, rfl, rfl⟩⟩

/-- As many 8-bit chunks as there are unread bytes are these bytes, and nothing is left unread. -/
theorem extractRun_of_holdsBytes {s : State} {ha : Byte} {c : Ctx} {data : List Byte} (hc : s.ctx? ha.toNat = some c)
    (ho : c.own ≠ .detached) (hwc : c.wc = c.rc + 8 * data.length) (hb : s.holdsBytes ha.toNat c.rc data) :
    ∃ v d, extractRun ha 8 data.length s = some (data.map fun b => b.setWidth 32, v) ∧
      v.ctx? ha.toNat = some d ∧ d.rc = d.wc := by
  induction data generalizing s c with
  | nil => exact ⟨s, c, rfl, hc, hwc.symm⟩
  | cons b data ih =>
    rw [List.length_cons] at hwc
    have hle : c.rc + 8 ≤ c.wc := by omega
    have hrc : (c.withRC (c.rc + 8)).rc = c.rc + 8 := withRC_rc c _ (hle.trans_lt (wc_lt c))
    obtain ⟨t, hexec, hresp, hct, hsame⟩ := exec_extractChunk_of_holdsBytes hc ho hle hb
    obtain ⟨v, d, hrun, hd, hleft⟩ := ih hct ho (by rw [withRC_wc, hrc]; omega)
      (by rw [hrc]; exact hsame.holdsBytes hb.tail)
    exact ⟨v, d, by simp only [List.length_cons, extractRun, hexec, hresp, hrun, List.map_cons], hd, hleft⟩

end Sys2Proof.Machine
end

section
/-! The statements about the sender and extraction side (42_msg_send.md R120 to R126, 43_msg_receive.md R140). -/

namespace Sys2Proof.Machine

/-! ### The cursors -/

theorem withRC_atStart (c : Ctx) : c.withRC c.ps = { c with dataPos := c.dataOff, dataPosOff := 0 } := by
  simp [Ctx.withRC, Ctx.ps]

theorem withCursors_atStart (c : Ctx) : (c.withWC c.ps).withRC c.ps =
    { c with dataEnd := c.dataOff, dataEndOff := 0, dataPos := c.dataOff, dataPosOff := 0 } := by
  simp [Ctx.withWC, Ctx.withRC, Ctx.ps]

/-- Settles O16: START_SEND and START_ADD are one operation, and a cursor at the payload start has bit part 0. -/
theorem startCommandsResetTheCursors : Obligations.StartCommandsResetTheCursors := by
  intro s ha
  refine ⟨fun hn i hi => ?_, fun c hc => ?_⟩
  · have hnamed : ha ∈ handlesOf i := by
      simp only [List.mem_cons, List.not_mem_nil, or_false] at hi
      rcases hi with rfl | rfl | rfl <;> exact List.mem_singleton_self ha
    exact badHandleIsBadOperand i s ha hnamed hn
  · have hreset : complete s (resetCursors s ha) = .next { s with
        ctxs := s.ctxs.set ha.toNat
          { c with dataEnd := c.dataOff, dataEndOff := 0, dataPos := c.dataOff, dataPosOff := 0 },
        resp := some ⟨.ok, 0⟩ } := by
      rw [resetCursors, complete_needCtx hc, complete_mapCtx hc, withCursors_atStart]
    refine ⟨?_, ?_⟩
    · simp only [List.forall_mem_cons]
      exact ⟨hreset, hreset, List.forall_mem_nil _⟩
    · rw [exec, execStartExtract, complete_needCtx hc, complete_mapCtx hc, withRC_atStart]

/-- The order of the cursors is that of their byte parts, and of their bit parts within one byte (00_scope.md R7). -/
theorem rc_lt_wc_iff (c : Ctx) : c.rc < c.wc ↔
    c.dataPos.toNat < c.dataEnd.toNat ∨ (c.dataPos = c.dataEnd ∧ c.dataPosOff.toNat < c.dataEndOff.toNat) := by
  rw [← BitVec.toNat_inj, Ctx.rc, Ctx.wc]
  omega

theorem exec_hasMore {s : State} {ha : Byte} {c : Ctx} (hc : s.ctx? ha.toNat = some c) :
    exec (.hasMore ha) s = .next (answered s (if c.rc < c.wc then 1 else 0)) := by
  rw [exec, execHasMore, complete_needCtx hc, complete_ok, respond]

/-- Settles O17. -/
theorem hasMoreComparesTheCursors : Obligations.HasMoreComparesTheCursors := by
  intro s ha
  refine ⟨badHandleIsBadOperand (.hasMore ha) s ha (List.mem_singleton_self ha), fun c hc => ?_⟩
  simp only [exec_hasMore hc, rc_lt_wc_iff]

/-! ### Appending -/

/-- Settles O18: an append of the eight bits of the byte operand. -/
theorem appendByteAppendsEightBits : Obligations.AppendByteAppendsEightBits := by
  intro s ha x c hi hc ho hroom
  rw [exec, execAppendByte, complete_needCtx hc]
  obtain ⟨t, hexec, hresp, hfresh, hother, happ⟩ := complete_append_ok (byteOperand x).toNat hi hc ho hroom
  refine ⟨t, hexec, hresp, hfresh, hother, appended_congr (fun i hi => ?_) happ⟩
  rw [byteOperand, BitVec.ofNat_toNat, BitVec.testBit_toNat, BitVec.getLsbD_setWidth, decide_eq_true (by omega),
    Bool.true_and]

/-- Settles O19: an append of the bits of the byte string, which are those of its bytes in order. -/
theorem appendBytesAppendsEveryByte : Obligations.AppendBytesAppendsEveryByte := by
  intro s ha x data c hi hc ho hx _ hroom
  rw [exec, execAppendBytes, complete_needCtx hc, complete_bind_ok (needCount_pos hx)]
  obtain ⟨t, hexec, hresp, hfresh, hother, happ⟩ := complete_append_ok (bytesString data) hi hc ho hroom
  exact ⟨t, hexec, hresp, hfresh, hother, appended_congr (fun i hi => bytesString_testBit data hi) happ⟩

/-! ### Extracting -/

/-- Settles O21: the checks in their order, and then the next chunk. -/
theorem extractChunkReadsTheNextBits : Obligations.ExtractChunkReadsTheNextBits := by
  intro s ha w hi
  refine ⟨badHandleIsBadOperand (.extractChunk ha w) s ha (List.mem_singleton_self ha), fun c hc => ?_⟩
  obtain ⟨-, -, -, hrc, -⟩ := wf_of_ctx? hi hc
  split
  next hw => rw [exec, execExtractChunk, complete_needCtx hc, complete_bind_error (needWidth_neg hw)]
  next hw =>
    rw [not_not] at hw
    split
    next ho =>
      rw [exec, execExtractChunk, complete_needCtx hc, complete_bind_ok (needWidth_pos hw),
        complete_bind_error (needStore_neg ho)]
    next ho =>
      split
      next hend =>
        rw [exec, execExtractChunk, complete_needCtx hc, complete_bind_ok (needWidth_pos hw),
          complete_bind_ok (needStore_pos ho), complete_bind_error (need_neg (by omega))]
      next hend =>
        exact ⟨_, _, exec_extractChunk_of_unread hc hw ho (by omega), rfl,
          withRC_rc c _ ((Nat.min_le_right _ _).trans_lt (wc_lt c)), nextChunk_getLsbD hw.2⟩

theorem roomStatus_ne_ok (c : Ctx) (n : Nat) : roomStatus c n ≠ .ok := by
  unfold roomStatus
  split <;> decide

/-- A command that answered OK was not refused. -/
theorem status_of_raised {s t : State} {i : Instr} {st : Status} {v : Word} (hexec : exec i s = .next t)
    (hresp : t.resp = some ⟨.ok, v⟩) (hraised : exec i s = .next (raised s st)) : st = .ok := by
  rw [hexec] at hraised
  obtain rfl := Host.Outcome.next.inj hraised
  exact congrArg Response.status (Option.some.inj hresp)

/-- START_EXTRACT moves the read cursor to the payload start and keeps every byte (R123). -/
theorem startExtract_keepsBuffers {s t : State} {ha : Byte} {c : Ctx} (hc : s.ctx? ha.toNat = some c)
    (hexec : exec (.startExtract ha) s = .next t) :
    t.ctx? ha.toNat = some { c with dataPos := c.dataOff, dataPosOff := 0 } ∧ SameBuffers s t := by
  obtain ⟨-, hcursors⟩ := startCommandsResetTheCursors s ha
  obtain ⟨-, hextract⟩ := hcursors c hc
  have ht := Host.Outcome.next.inj (hexec.symm.trans hextract)
  have hctxs : t.ctxs = s.ctxs.set ha.toNat { c with dataPos := c.dataOff, dataPosOff := 0 } := by rw [ht]
  exact ⟨ctx?_of_set hc hctxs rfl, .of_set hc hctxs (by rw [ht]) ⟨rfl, rfl, rfl, rfl⟩⟩

/-- Settles O22: an append that answered OK had storage and room, so it wrote the bytes where the extraction starts. -/
theorem appendedBytesAreExtractedAgain : Obligations.AppendedBytesAreExtractedAgain := by
  intro s t u ha x data c hi hc hempty hx hlen happend hresp hstart
  have ho : c.own ≠ .detached := fun ho => by
    obtain ⟨-, hrefused, -⟩ := detachedContextHasNoBytes s ha 0 x data c hc ho
    cases status_of_raised happend hresp (hrefused hx)
  have hroom : roomFor s c (8 * data.length) := by
    by_contra hroom
    obtain ⟨-, -, hrefused⟩ := appendsWithoutRoomAreRefused s ha 0 x data
    obtain ⟨-, hbytes, -⟩ := hrefused c hc ho
    exact roomStatus_ne_ok _ _ (status_of_raised happend hresp (hbytes hx hlen hroom))
  obtain ⟨t', ht', -, -, -, ⟨d, hslot, hwc, -, -, hd⟩, hbits, -⟩ :=
    appendBytesAppendsEveryByte s ha x data c hi hc ho hx hlen hroom
  obtain rfl := Host.Outcome.next.inj (happend.symm.trans ht')
  have hdt : t.ctx? ha.toNat = some d := ctx?_eq_some.2 ⟨hslot, by rw [hd]; exact (ctx?_eq_some.1 hc).2⟩
  obtain ⟨hdu, hsame⟩ := startExtract_keepsBuffers hdt hstart
  have hrc : ({ d with dataPos := d.dataOff, dataPosOff := 0 } : Ctx).rc = c.wc := by
    rw [hempty, hd]
    exact Nat.add_zero _
  have hread : u.holdsBytes ha.toNat ({ d with dataPos := d.dataOff, dataPosOff := 0 } : Ctx).rc data := by
    rw [hrc]
    exact hsame.holdsBytes hbits
  obtain ⟨v, e, hrun, he, hleft⟩ :=
    extractRun_of_holdsBytes hdu (by rw [hd]; exact ho) (hwc.trans (by rw [hrc])) hread
  exact ⟨v, hrun, by rw [exec_hasMore he, if_neg hleft.not_lt]⟩

end Sys2Proof.Machine
end

section
/-! SUPPORT. What changes of a buffer leave of its bytes, what `writeBytes` leaves to be read, when two windows share a
byte (20_memory.md R43, R46, R53), and the bits of chunks that are extracted and added one after the other
(43_msg_receive.md R159). -/

namespace Sys2Proof.Machine

/-! ### Handles and cursors -/

theorem toNat_ne_of_ne {ha hb : Byte} (hne : ha ≠ hb) : ha.toNat ≠ hb.toNat := mt BitVec.eq_of_toNat_eq hne

/-- The write cursor determines its two fields (00_scope.md R7). -/
theorem writeCursor_of_wc {c d : Ctx} (hwc : d.wc = c.wc) : d.dataEnd = c.dataEnd ∧ d.dataEndOff = c.dataEndOff := by
  unfold Ctx.wc at hwc
  exact ⟨BitVec.eq_of_toNat_eq (by omega), BitVec.eq_of_toNat_eq (by omega)⟩

/-- A write cursor put `n` bits behind the payload start, field by field (R7). -/
theorem withWC_bits (c : Ctx) (n : Nat) : c.withWC (c.ps + n) =
    { c with dataEnd := BitVec.ofNat 16 (c.dataOff.toNat + n / 8), dataEndOff := BitVec.ofNat 3 (n % 8) } := by
  have hbytes : (8 * c.dataOff.toNat + n) / 8 = c.dataOff.toNat + n / 8 := by omega
  have hbits : (8 * c.dataOff.toNat + n) % 8 = n % 8 := by omega
  rw [Ctx.withWC, Ctx.ps, hbytes, hbits]

/-! ### Bytes read after changes of a buffer -/

/-- A byte is its eight bits (20_memory.md R44). -/
theorem bufRead_congr {s t : State} {h k : Nat} (hbits : ∀ q, t.bufBit h q = s.bufBit h q) :
    t.bufRead h k = s.bufRead h k := by
  refine BitVec.eq_of_getLsbD_eq fun i hi => ?_
  have hq := hbits (8 * k + (7 - i))
  have hbyte : (8 * k + (7 - i)) / 8 = k := by omega
  have hbit : 7 - (8 * k + (7 - i)) % 8 = i := by omega
  rwa [State.bufBit, State.bufBit, hbyte, hbit] at hq

/-- Every place reads as before when all bits of the one buffer do, and so does every place outside it. -/
theorem locRead_of_bits {s t : State} {h : Nat} (hloc : ∀ k, t.bufLoc h k = s.bufLoc h k)
    (hbits : ∀ q, t.bufBit h q = s.bufBit h q)
    (hout : ∀ l, (∀ k, l ≠ s.bufLoc h k) → t.locRead l = s.locRead l) (l : Loc) : t.locRead l = s.locRead l := by
  by_cases hl : ∃ k, l = s.bufLoc h k
  · obtain ⟨k, rfl⟩ := hl
    have hread := bufRead_congr (k := k) hbits
    rwa [State.bufRead, State.bufRead, hloc] at hread
  · exact hout l (not_exists.1 hl)

section writes
variable {h : Nat} {P : Nat → Prop} {s t : State}

theorem Writes.bufRead_other (hw : Writes h P s t) {k : Nat} (hk : ¬ P k) : t.bufRead h k = s.bufRead h k := by
  rw [State.bufRead, State.bufRead, hw.bufLoc]
  refine hw.locRead _ fun j hj heq => hk ?_
  rwa [bufLoc_injective s h heq]

/-- All that writes into one buffer change of the contexts is the store of its own. -/
theorem Writes.ctxs_eq_set {c : Ctx} (hw : Writes h P s t) (hc : s.ctxs[h]? = some c) :
    ∃ m, t.ctxs = s.ctxs.set h { c with store := m } := by
  obtain ⟨m, hm⟩ := hw.self hc
  refine ⟨m, List.ext_getElem? fun j => ?_⟩
  by_cases hj : h = j
  · subst hj
    rw [hm, List.getElem?_set_self (List.getElem?_eq_some_iff.1 hc).1]
  · rw [hw.other (Ne.symm hj), List.getElem?_set_ne hj]

end writes

@[simp] theorem writeBytes_length (s : State) (h k : Nat) (data : List Byte) :
    (s.writeBytes h k data).ctxs.length = s.ctxs.length := (writeBytes_writes s h k data).length

/-- What `writeBytes` leaves at each index: the byte it was given for it, or what stood there. -/
theorem bufRead_writeBytes (s : State) {h : Nat} (k j : Nat) (data : List Byte) (hh : h < s.ctxs.length) :
    (s.writeBytes h k data).bufRead h j =
      if k ≤ j ∧ j < k + data.length then data.getD (j - k) 0 else s.bufRead h j := by
  induction data generalizing s k with
  | nil => rw [if_neg (by rw [List.length_nil]; omega), State.writeBytes]
  | cons v vs ih =>
    rw [State.writeBytes, ih _ _ (by rwa [bufWrite_length]), bufRead_bufWrite _ _ _ _ hh, List.length_cons]
    by_cases hj : j = k
    · subst hj
      rw [if_neg (by omega), if_pos rfl, if_pos (by omega), Nat.sub_self, List.getD_cons_zero]
    · rw [if_neg hj]
      by_cases hlater : k + 1 ≤ j ∧ j < k + 1 + vs.length
      · rw [if_pos hlater, if_pos (by omega), show j - k = j - (k + 1) + 1 by omega, List.getD_cons_succ]
      · rw [if_neg hlater, if_neg (by omega)]

/-- An append stays one when afterwards nothing changes but fields of other contexts. -/
theorem appended_of_sameBuffers {s t u : State} {h n : Nat} {c : Ctx} {bit : Nat → Bool}
    (hsame : SameBuffers t u) (hslot : u.ctxs[h]? = t.ctxs[h]?) (hlen : u.ctxs.length = t.ctxs.length)
    (hparams : u.params = t.params) (hinbox : u.inbox = t.inbox) (hdata : u.hostData = t.hostData)
    (happ : appended s t h c n bit) : appended s u h c n bit := by
  obtain ⟨hctx, hbits, hkept, hbytes, hhost, htlen, htparams, htinbox, htdata⟩ := happ
  exact ⟨by rwa [hslot], fun i hi => (hsame.bufBit _ _).trans (hbits i hi),
    fun q hq => (hsame.bufBit _ _).trans (hkept q hq), fun l hl => (hsame.locRead l).trans (hbytes l hl),
    fun ho => hsame.host.trans (hhost ho), hlen.trans htlen, hparams.trans htparams, hinbox.trans htinbox,
    hdata.trans htdata⟩

/-! ### Two windows of host memory -/

/-- Two windows that overlap have a byte in common (20_memory.md R43, R53): the first of the one that starts later. -/
theorem exists_shared_of_windowsOverlap {s : State} {a b : Nat} {c d : Ctx} (hi : s.Inv) (hc : s.ctx? a = some c)
    (hd : s.ctx? b = some d) (hover : windowsOverlap c d = true) :
    ∃ j k, j < c.cap.toNat + 3 ∧ k < d.cap.toNat + 3 ∧ s.bufLoc a j = s.bufLoc b k := by
  have hbase {e : Ctx} (he : e.wf s.ctxs.length) (ho : e.own = .borrowed) : 3 ≤ e.base.toNat := by
    obtain ⟨-, -, -, -, -, -, -, -, -, -, -, hwin, -⟩ := he
    exact (hwin ho).2.1
  obtain ⟨hco, hdo, hcd, hdc⟩ := of_decide_eq_true hover
  have hcb := hbase (wf_of_ctx? hi hc) hco
  have hdb := hbase (wf_of_ctx? hi hd) hdo
  refine ⟨d.base.toNat - c.base.toNat, c.base.toNat - d.base.toNat, by omega, by omega, ?_⟩
  rw [State.bufLoc, State.bufLoc, slot_of_ctx? hc, slot_of_ctx? hd, if_pos hco, if_pos hdo, Loc.host.injEq]
  omega

/-- Windows without a common byte: the copied bits are the unread ones of the source (R142). -/
theorem copiedBits_testBit {s : State} {hb n i : Nat} {c d : Ctx} (hover : windowsOverlap c d = false) (hi : i < n) :
    (copiedBits s hb c d n).testBit (n - 1 - i) = s.bufBit hb (d.rc + i) := by
  rw [copiedBits, if_neg (by rw [hover]; decide), getBits_testBit, decide_eq_true (by omega), Bool.true_and]
  congr 2
  omega

/-! ### The bits of chunks (R141, R159) -/

theorem valueOperand_testBit {x : Word} {w : Byte} {i : Nat} (hi : i < w.toNat) :
    (valueOperand x w).testBit i = x.getLsbD i := by
  rw [valueOperand, Nat.testBit_mod_two_pow, decide_eq_true hi, Bool.true_and, BitVec.testBit_toNat]

/-- Bit `i` of chunks of `w` bits put one after the other, each most significant bit first, markers left out. -/
def chunkBit (w : Nat) (chunks : List Word) (i : Nat) : Bool := (chunks.getD (i / w) 0).getLsbD (w - 1 - i % w)

theorem chunkBit_first {w i : Nat} (x : Word) (xs : List Word) (hi : i < w) :
    chunkBit w (x :: xs) i = x.getLsbD (w - 1 - i) := by
  rw [chunkBit, Nat.div_eq_of_lt hi, Nat.mod_eq_of_lt hi, List.getD_cons_zero]

theorem chunkBit_later {w : Nat} (x : Word) (xs : List Word) (i : Nat) (hw : 0 < w) :
    chunkBit w (x :: xs) (w + i) = chunkBit w xs i := by
  rw [chunkBit, Nat.add_div_left i hw, Nat.add_mod_left, List.getD_cons_succ, chunkBit]

end Sys2Proof.Machine
end

section
/-! The statements about the receiver and editing side (43_msg_receive.md R140 to R145, R158, R159). -/

namespace Sys2Proof.Machine

/-! ### Commands that read or move cursors alone -/

/-- Settles O32: the opcode has no meaning, so no field is read. -/
theorem fillCrcIsIllegal : Obligations.FillCrcIsIllegal := fun _ _ _ _ _ => rfl

/-- Settles O29: the one check is that the read cursor stays at or before the byte the write cursor goes back to. -/
theorem alignDropsThePartialByte : Obligations.AlignDropsThePartialByte := by
  intro s ha
  refine ⟨badHandleIsBadOperand (.align ha) s ha (List.mem_singleton_self ha), fun c hc => ?_⟩
  rw [exec, execAlign, complete_needCtx hc]
  split
  next hpast => exact complete_bind_error (need_neg (Nat.not_le_of_lt hpast)) _
  next hpast => rw [complete_bind_ok (need_pos (Nat.le_of_not_lt hpast)), complete_mapCtx hc]

/-- Settles O27: the checks in their order, and then the last `w` bits as they stand in the buffer. -/
theorem dropRemovesTheLastBits : Obligations.DropRemovesTheLastBits := by
  intro s ha w _
  refine ⟨badHandleIsBadOperand (.drop ha w) s ha (List.mem_singleton_self ha), fun c hc => ?_⟩
  rw [exec, execDrop, complete_needCtx hc]
  split
  next hw => exact complete_bind_error (needWidth_neg hw) _
  next hw =>
    rw [not_not] at hw
    rw [complete_bind_ok (needWidth_pos hw)]
    split
    next ho => exact complete_bind_error (needStore_neg ho) _
    next ho =>
      rw [complete_bind_ok (needStore_pos ho)]
      split
      next hpast => exact complete_bind_error (need_neg (Nat.not_le_of_lt hpast)) _
      next hpast =>
        rw [complete_bind_ok (need_pos (Nat.le_of_not_lt hpast)), complete_mapCtx hc]
        obtain ⟨hbits, hmark, hhigh⟩ := chunkWord_getLsbD (s := s) (h := ha.toNat) (p := c.wc - w.toNat)
          (m := s.getBits ha.toNat (c.wc - w.toNat) w.toNat) le_rfl hw.2 fun i => by simp
        refine ⟨_, _, rfl, rfl, withWC_wc c _ ((Nat.sub_le _ _).trans_lt (wc_lt c)), fun i hi => ?_, fun i hi => ?_⟩
        · rw [hbits i hi, decide_eq_true hi, Bool.true_and]
        · rcases hi.eq_or_lt with rfl | hi
          · rw [hmark, decide_eq_false (Nat.lt_irrefl _)]
          · exact hhigh i hi

/-! ### Adding -/

/-- Settles O23: an append of the `w` bits the value is cut to. -/
theorem addChunkAppendsItsBits : Obligations.AddChunkAppendsItsBits := by
  intro s ha w x c hi hc ho hlo hhi hroom
  rw [exec, execAddChunk, complete_needCtx hc, complete_bind_ok (needWidth_pos ⟨hlo, hhi⟩)]
  obtain ⟨t, hexec, hresp, hfresh, hother, happ⟩ := complete_append_ok (valueOperand x w) hi hc ho hroom
  exact ⟨t, hexec, hresp, hfresh, hother, appended_congr (fun i hi => valueOperand_testBit (by omega)) happ⟩

/-- ADD_FROM whose checks of handles, count and storage have passed: the source's unread bits, the destination's room,
and the two cursors (R142). -/
theorem exec_addFrom_ready {s : State} {ha hb : Byte} {x : Word} {c d : Ctx} (hc : s.ctx? ha.toNat = some c)
    (hd : s.ctx? hb.toNat = some d) (hne : ha ≠ hb) (hx : x.toNat ≤ 65535) (hoc : c.own ≠ .detached)
    (hod : d.own ≠ .detached) :
    exec (.addFrom ha hb x) s = complete s (do
      need (x.toNat ≤ d.wc - d.rc) .cursorOverflow
      let t ← appendBits s ha.toNat c x.toNat (copiedBits s hb.toNat c d x.toNat)
      .ok ({ t.mapCtx hb.toNat fun e => e.withRC (d.rc + x.toNat) with
        fresh := if windowsOverlap c d then s.fresh + 1 else s.fresh }, 0)) := by
  rw [exec, execAddFrom, complete_needCtx hc, complete_needCtx hd, complete_bind_ok (need_pos hne),
    complete_bind_ok (needCount_pos hx), complete_bind_ok (needStore_pos hoc), complete_bind_ok (needStore_pos hod)]

/-- Settles O26: the handles and the count first, then the storage of both, the source's bits and the destination's
room. -/
theorem addFromIsRefusedInOrder : Obligations.AddFromIsRefusedInOrder := by
  intro s ha hb x
  refine ⟨fun hbad => ?_, fun c d hc hd hne hx => ⟨fun hdet => ?_, fun hoc hod =>
    ⟨fun hfew => ?_, fun hlen hroom => ?_⟩⟩⟩
  · rcases hbad with hn | hn | heq | hx
    · exact badHandleIsBadOperand (.addFrom ha hb x) s ha List.mem_cons_self hn
    · exact badHandleIsBadOperand (.addFrom ha hb x) s hb (List.mem_cons_of_mem _ (List.mem_singleton_self hb)) hn
    · exact complete_needCtx_badOperand fun c => complete_needCtx_badOperand fun d =>
        complete_bind_error (need_neg (not_not.2 heq)) _
    · refine complete_needCtx_badOperand fun c => complete_needCtx_badOperand fun d => ?_
      by_cases hne : ha ≠ hb
      · rw [complete_bind_ok (need_pos hne), complete_bind_error (needCount_neg (Nat.not_le_of_lt hx))]
      · exact complete_bind_error (need_neg hne) _
  · rcases hdet with ho | ho
    · obtain ⟨-, -, -, -, hdest⟩ := detachedContextHasNoBytes s ha 0 x [] c hc ho
      exact (hdest hb d hd hne hx).1
    · obtain ⟨-, -, -, -, hsource⟩ := detachedContextHasNoBytes s hb 0 x [] d hd ho
      exact (hsource ha c hc hne.symm hx).2
  · rw [exec_addFrom_ready hc hd hne hx hoc hod, complete_bind_error (need_neg (Nat.not_le_of_lt hfew))]
  · have happend : appendBits s ha.toNat c x.toNat (copiedBits s hb.toNat c d x.toNat) =
        .error (roomStatus c x.toNat) := bind_eq_error.2 (.inl (ensureRoom_of_not_roomFor ha.toNat hroom))
    rw [exec_addFrom_ready hc hd hne hx hoc hod, complete_bind_ok (need_pos hlen), complete_bind_error happend]

/-- Settles O25: an append of the copied bits to the destination, and then the source's read cursor moves, which no
buffer sees. -/
theorem addFromCopiesUnreadBits : Obligations.AddFromCopiesUnreadBits := by
  intro s ha hb x c d hi hc hd hne hx hoc hod hlen hroom
  have hneq := toNat_ne_of_ne hne
  have hrc : d.rc + x.toNat < 524288 := by
    obtain ⟨-, -, -, hcursors, -⟩ := wf_of_ctx? hi hd
    have := wc_lt d
    omega
  obtain ⟨t, happend, -, ⟨hlength, hother⟩, happ⟩ :=
    appendBits_of_roomFor (copiedBits s hb.toNat c d x.toNat) hi hc hoc hroom
  have hdt : t.ctx? hb.toNat = some d := by rw [State.ctx?, hother _ hneq.symm, ← State.ctx?, hd]
  have hsame : SameBuffers t (t.mapCtx hb.toNat fun e => e.withRC (d.rc + x.toNat)) :=
    .mapCtx hdt ⟨rfl, rfl, rfl, rfl⟩
  have hsource := ctx?_mapCtx (f := fun e => e.withRC (d.rc + x.toNat)) hdt rfl
  have hexec := exec_addFrom_ready hc hd hne hx hoc hod
  rw [complete_bind_ok (need_pos hlen), complete_bind_ok happend, complete_ok, respond] at hexec
  refine ⟨_, hexec, rfl,
    ⟨_, appended_of_sameBuffers ⟨hsame.host, hsame.slot⟩ ?_ ?_ rfl rfl rfl happ, fun hapart i hlt => ?_⟩,
    ⟨_, (ctx?_eq_some.1 hsource).1, withRC_rc d _ hrc, rfl⟩, fun j hja hjb => ?_⟩
  · simp [hneq.symm]
  · simp
  · refine copiedBits_testBit (Bool.eq_false_iff.2 fun hover => ?_) hlt
    obtain ⟨j, k, hj, hk, hshared⟩ := exists_shared_of_windowsOverlap hi hc hd hover
    exact hapart j k hj hk hshared
  · simp [Ne.symm hjb, hother j hja]

/-! ### Dropping and adding back -/

/-- A DROP that answered OK passed its checks, and did what R143 says. -/
theorem exec_drop_of_ok {s t : State} {ha w : Byte} {c : Ctx} {v : Word} (hi : s.Inv) (hc : s.ctx? ha.toNat = some c)
    (hdrop : exec (.drop ha w) s = .next t) (hresp : t.resp = some ⟨.ok, v⟩) :
    (1 ≤ w.toNat ∧ w.toNat ≤ 16) ∧ c.own ≠ .detached ∧ c.rc + w.toNat ≤ c.wc ∧
    ∃ d, t = { s with ctxs := s.ctxs.set ha.toNat d, resp := some ⟨.ok, v⟩ } ∧
      d = { c with dataEnd := d.dataEnd, dataEndOff := d.dataEndOff } ∧ d.wc + w.toNat = c.wc ∧
      ∀ i, i < w.toNat → v.getLsbD (w.toNat - 1 - i) = s.bufBit ha.toNat (d.wc + i) := by
  obtain ⟨-, hall⟩ := dropRemovesTheLastBits s ha w hi
  have hcases := hall c hc
  split at hcases
  next => cases status_of_raised hdrop hresp hcases
  next hw =>
    split at hcases
    next => cases status_of_raised hdrop hresp hcases
    next ho =>
      split at hcases
      next => cases status_of_raised hdrop hresp hcases
      next hle =>
        obtain ⟨d, v', hexec, hd, hdwc, hbits, -⟩ := hcases
        obtain rfl := Host.Outcome.next.inj (hdrop.symm.trans hexec)
        obtain rfl : v' = v := congrArg Response.value (Option.some.inj hresp)
        exact ⟨not_not.1 hw, ho, by omega, d, rfl, hd, by omega, fun i hlt => by rw [hbits i hlt, hdwc]⟩

/-- Settles O28: the dropped bits fit where they stood, and with them every bit of the buffer is as it was. -/
theorem addChunkUndoesDrop : Obligations.AddChunkUndoesDrop := by
  intro s t ha w c v hi hc hdrop hresp
  obtain ⟨⟨hlo, hhi⟩, ho, -, d, ht, hd, hdwc, hbits⟩ := exec_drop_of_ok hi hc hdrop hresp
  have hctxs : t.ctxs = s.ctxs.set ha.toNat d := by rw [ht]
  have hct : t.ctx? ha.toNat = some d := ctx?_of_set hc hctxs (by rw [hd])
  have hsame : SameBuffers s t := .of_set hc hctxs (by rw [ht]) (by rw [hd]; exact ⟨rfl, rfl, rfl, rfl⟩)
  have hfits : d.wc + w.toNat ≤ d.lim := by
    have hlim : d.lim = c.lim := by rw [hd]; rfl
    obtain ⟨-, -, hwc⟩ := storage_of_wf (wf_of_ctx? hi hc) ho
    omega
  obtain ⟨u, hadd, hok, -, ⟨hlen, hother⟩, ⟨e, hslot, hewc, hecap, -, he⟩, hnew, hkept, hbytes, -⟩ :=
    addChunkAppendsItsBits t ha w v d ((exec_keepsBut hdrop).inv hi) hct (by rw [hd]; exact ho) hlo hhi (.inl hfits)
  have hec : e = { c with store := e.store } := by
    obtain ⟨hend, hoff⟩ := writeCursor_of_wc (hewc.trans hdwc)
    have hcap : e.cap = c.cap := by
      rw [capAfter, if_pos hfits] at hecap
      rw [BitVec.eq_of_toNat_eq hecap, hd]
    rw [hcap, hend, hoff, hd] at he
    exact he
  refine ⟨u, e, hadd, hok, hslot, hec, ⟨by rw [hlen, hctxs, List.length_set], fun j hj => ?_⟩,
    locRead_of_bits (h := ha.toNat) (fun k => ?_) (fun q => ?_) fun l hl => ?_⟩
  · rw [hother j hj, hctxs, List.getElem?_set_ne hj.symm]
  · rw [State.bufLoc, slot_of_getElem? hslot, hec, State.bufLoc, slot_of_ctx? hc]
  · by_cases hq : d.wc ≤ q ∧ q < d.wc + w.toNat
    · obtain ⟨i, rfl⟩ := Nat.exists_eq_add_of_le hq.1
      exact (hnew i (by omega)).trans (hbits i (by omega))
    · rw [hkept q (by omega), hsame.bufBit]
  · rw [hbytes l fun k _ _ => by rw [hsame.bufLoc]; exact hl k, hsame.locRead]

/-! ### Chunks extracted and added again (R159) -/

/-- An EXTRACT_CHUNK that answered OK: the chunk's bits are the next unread ones, then zeros, and no byte changed. -/
theorem exec_extractChunk_of_ok {s t : State} {ha w : Byte} {c : Ctx} {v : Word} (hi : s.Inv)
    (hc : s.ctx? ha.toNat = some c) (hexec : exec (.extractChunk ha w) s = .next t) (hresp : t.resp = some ⟨.ok, v⟩) :
    ∃ d, t.ctx? ha.toNat = some d ∧ SameBuffers s t ∧ d.wc = c.wc ∧ d.rc = min (c.rc + w.toNat) c.wc ∧
      ∀ i, i < w.toNat → v.getLsbD (w.toNat - 1 - i) = (decide (c.rc + i < c.wc) && s.bufBit ha.toNat (c.rc + i)) := by
  obtain ⟨-, hall⟩ := extractChunkReadsTheNextBits s ha w hi
  have hcases := hall c hc
  split at hcases
  next => cases status_of_raised hexec hresp hcases
  next =>
    split at hcases
    next => cases status_of_raised hexec hresp hcases
    next =>
      split at hcases
      next => cases status_of_raised hexec hresp hcases
      next =>
        obtain ⟨d, v', hexec', hd, hrc, hbits, -⟩ := hcases
        obtain rfl := Host.Outcome.next.inj (hexec.symm.trans hexec')
        obtain rfl : v' = v := congrArg Response.value (Option.some.inj hresp)
        exact ⟨d, ctx?_of_set hc rfl (by rw [hd]), .of_set hc rfl rfl (by rw [hd]; exact ⟨rfl, rfl, rfl, rfl⟩),
          by rw [hd]; rfl, hrc, hbits⟩

/-- The first command of a run that succeeded, and the rest of the run. -/
theorem extractRun_succ {s u : State} {ha w : Byte} {n : Nat} {chunks : List Word}
    (hrun : extractRun ha w (n + 1) s = some (chunks, u)) :
    ∃ t v vs, exec (.extractChunk ha w) s = .next t ∧ t.resp = some ⟨.ok, v⟩ ∧
      extractRun ha w n t = some (vs, u) ∧ chunks = v :: vs := by
  rw [extractRun] at hrun
  split at hrun
  next t hexec =>
    split at hrun
    next v vs u' hresp hrest =>
      cases hrun
      exact ⟨t, v, vs, hexec, hresp, hrest, rfl⟩
    next => cases hrun
  next => cases hrun

/-- The chunks of a run are the content from the read cursor on, and zeros behind its end. -/
theorem extractRun_chunkBit {s u : State} {ha w : Byte} {c : Ctx} {n : Nat} {chunks : List Word} (hw : 1 ≤ w.toNat)
    (hi : s.Inv) (hc : s.ctx? ha.toNat = some c) (hrun : extractRun ha w n s = some (chunks, u)) :
    u.Inv ∧ chunks.length = n ∧ ∀ i, i < n * w.toNat →
      chunkBit w.toNat chunks i = (decide (c.rc + i < c.wc) && s.bufBit ha.toNat (c.rc + i)) := by
  induction n generalizing s c chunks with
  | zero =>
    cases hrun
    exact ⟨hi, rfl, fun i hlt => by omega⟩
  | succ n ih =>
    obtain ⟨t, v, vs, hexec, hresp, hrest, rfl⟩ := extractRun_succ hrun
    obtain ⟨d, hd, hsame, hwc, hrc, hbits⟩ := exec_extractChunk_of_ok hi hc hexec hresp
    obtain ⟨hu, hlen, hlater⟩ := ih ((exec_keepsBut hexec).inv hi) hd hrest
    refine ⟨hu, by rw [List.length_cons, hlen], fun i hlt => ?_⟩
    by_cases hfirst : i < w.toNat
    · rw [chunkBit_first v vs hfirst, hbits i hfirst]
    · obtain ⟨j, rfl⟩ := Nat.exists_eq_add_of_le (Nat.le_of_not_lt hfirst)
      rw [Nat.succ_mul] at hlt
      rw [chunkBit_later v vs j hw, hlater j (by omega), hsame.bufBit, hwc, hrc, ← Nat.add_assoc]
      by_cases hfull : c.rc + w.toNat ≤ c.wc
      · rw [Nat.min_eq_left hfull]
      · rw [Nat.min_eq_right (by omega), decide_eq_false (by omega), decide_eq_false (by omega), Bool.false_and,
          Bool.false_and]

/-- An ADD_CHUNK that answered OK had storage and room, so it appended the bits of its chunk. -/
theorem exec_addChunk_of_ok {s t : State} {ha w : Byte} {x : Word} {c : Ctx} (hi : s.Inv)
    (hc : s.ctx? ha.toNat = some c) (hw : 1 ≤ w.toNat ∧ w.toNat ≤ 16) (hexec : exec (.addChunk ha w x) s = .next t)
    (hresp : t.resp = some ⟨.ok, 0⟩) :
    appended s t ha.toNat c w.toNat fun i => x.getLsbD (w.toNat - 1 - i) := by
  have ho : c.own ≠ .detached := fun ho => by
    obtain ⟨-, -, hrefused, -⟩ := detachedContextHasNoBytes s ha w x [] c hc ho
    cases status_of_raised hexec hresp (hrefused hw.1 hw.2 _ (by simp))
  have hroom : roomFor s c w.toNat := by
    by_contra hroom
    obtain ⟨-, -, hrefused⟩ := appendsWithoutRoomAreRefused s ha w x []
    obtain ⟨-, -, hchunk⟩ := hrefused c hc ho
    exact roomStatus_ne_ok _ _ (status_of_raised hexec hresp (hchunk hw.1 hw.2 hroom))
  obtain ⟨t', hexec', -, -, -, happ⟩ := addChunkAppendsItsBits s ha w x c hi hc ho hw.1 hw.2 hroom
  obtain rfl := Host.Outcome.next.inj (hexec.symm.trans hexec')
  exact happ

/-- The first command of a run that succeeded, and the rest of the run. -/
theorem addRun_cons {s u : State} {ha w : Byte} {x : Word} {xs : List Word}
    (hrun : addRun ha w (x :: xs) s = some u) :
    ∃ t, exec (.addChunk ha w x) s = .next t ∧ t.resp = some ⟨.ok, 0⟩ ∧ addRun ha w xs t = some u := by
  rw [addRun] at hrun
  split at hrun
  next t hexec =>
    split at hrun
    next hresp => exact ⟨t, hexec, hresp, hrun⟩
    next => cases hrun
  next => cases hrun

/-- Chunks added one after the other put their bits behind the content, which stays. -/
theorem addRun_bufBit {s u : State} {ha w : Byte} {c : Ctx} {chunks : List Word} (hw : 1 ≤ w.toNat ∧ w.toNat ≤ 16)
    (hi : s.Inv) (hc : s.ctx? ha.toNat = some c) (hrun : addRun ha w chunks s = some u) :
    ∃ d, u.ctx? ha.toNat = some d ∧ d.ps = c.ps ∧ d.wc = c.wc + chunks.length * w.toNat ∧
      (∀ q, q < c.wc → u.bufBit ha.toNat q = s.bufBit ha.toNat q) ∧
      ∀ i, i < chunks.length * w.toNat → u.bufBit ha.toNat (c.wc + i) = chunkBit w.toNat chunks i := by
  induction chunks generalizing s c with
  | nil =>
    cases hrun
    exact ⟨c, hc, rfl, by simp, fun _ _ => rfl, fun i hlt => by simp at hlt⟩
  | cons x xs ih =>
    obtain ⟨t, hexec, hresp, hrest⟩ := addRun_cons hrun
    obtain ⟨⟨d, hslot, hdwc, -, -, hd⟩, hnew, hkept, -⟩ := exec_addChunk_of_ok hi hc hw hexec hresp
    have hdt : t.ctx? ha.toNat = some d := ctx?_eq_some.2 ⟨hslot, by rw [hd]; exact (ctx?_eq_some.1 hc).2⟩
    obtain ⟨e, he, hps, hwc, hbefore, hbits⟩ := ih ((exec_keepsBut hexec).inv hi) hdt hrest
    rw [hdwc] at hwc hbefore hbits
    rw [List.length_cons, Nat.succ_mul]
    refine ⟨e, he, by rw [hps, hd]; rfl, by omega, fun q hq => ?_, fun i hlt => ?_⟩
    · rw [hbefore q (by omega), hkept q (.inl hq)]
    · by_cases hfirst : i < w.toNat
      · rw [hbefore _ (by omega), chunkBit_first x xs hfirst]
        exact hnew i hfirst
      · obtain ⟨j, rfl⟩ := Nat.exists_eq_add_of_le (Nat.le_of_not_lt hfirst)
        rw [chunkBit_later x xs j hw.1, ← Nat.add_assoc, hbits j (by omega)]

/-- A START_ADD that answered OK left an empty message (R140). -/
theorem startAdd_of_ok {s t : State} {ha : Byte} (hexec : exec (.startAdd ha) s = .next t)
    (hresp : t.resp = some ⟨.ok, 0⟩) : ∃ d, t.ctx? ha.toNat = some d ∧ d.wc = d.ps := by
  obtain ⟨hnone, hsome⟩ := startCommandsResetTheCursors s ha
  cases hc : s.ctx? ha.toNat with
  | none => cases status_of_raised hexec hresp (hnone hc _ (by simp))
  | some c =>
    obtain ⟨hstart, -⟩ := hsome c hc
    obtain rfl := Host.Outcome.next.inj (hexec.symm.trans (hstart _ (by simp)))
    exact ⟨_, ctx?_of_set hc rfl rfl, rfl⟩

/-- Settles O24: the chunks carry the content and zeros behind it, and adding them puts these bits after the payload
start. -/
theorem reassembledChunksAreTheContent : Obligations.ReassembledChunksAreTheContent := by
  intro s t v u ha hb w c chunks hi hc hrc hlo hhi hextract hstart hresp hadd
  obtain ⟨ht, hlen, hchunks⟩ := extractRun_chunkBit hlo hi hc hextract
  obtain ⟨d, hd, hempty⟩ := startAdd_of_ok hstart hresp
  obtain ⟨e, he, hps, hwc, -, hbits⟩ := addRun_bufBit ⟨hlo, hhi⟩ ((exec_keepsBut hstart).inv ht) hd hadd
  rw [← hlen] at hchunks
  rw [hempty, ← hps] at hwc hbits
  have hcover : c.wc - c.ps ≤ chunks.length * w.toNat := by
    have := Nat.lt_div_mul_add (a := c.wc - c.ps + (w.toNat - 1)) hlo
    rw [hlen]
    omega
  refine ⟨e, he, by omega, fun i hlt => ?_, fun i hge hlt => ?_⟩
  · rw [hbits i (by omega), hchunks i (by omega), hrc, decide_eq_true (by omega), Bool.true_and]
  · rw [hbits i hlt, hchunks i hlt, decide_eq_false (by omega), Bool.false_and]

/-! ### Copying the first bits -/

/-- The state TRUNCATE_COPY leaves but for its answer: the new context in slot `h`, and in its buffer the header bytes,
cleared bytes, and the bits (R145). -/
def State.copyPrefix (s : State) (h : Nat) (c : Ctx) (header : List Byte) (n bits : Nat) : State :=
  (((s.createOwned h (max 1 (ceil8 n)) (c.header.withWC (24 + n))).writeBytes h (3 - c.hdrLen.toNat) header).writeBytes
    h 3 (List.replicate (ceil8 n) 0)).putBits h 24 n bits

/-- TRUNCATE_COPY whose checks of the source have passed: the slot, the pool, and the copy (R145). -/
theorem exec_truncateCopy_ready {s : State} {ha : Byte} {x : Word} {c : Ctx} (hc : s.ctx? ha.toNat = some c)
    (ho : c.own ≠ .detached) (hlen : x.toNat ≤ c.wc - c.ps) :
    exec (.truncateCopy ha x) s = complete s (do
      let h ← newContext s
      need (s.poolHolds (s.poolUsed + max 1 (ceil8 x.toNat) + 3)) .outOfMemory
      .ok (s.copyPrefix h c (s.headerBytes ha.toNat c) x.toNat (s.getBits ha.toNat c.ps x.toNat),
        BitVec.ofNat 32 h)) := by
  rw [exec, execTruncateCopy, complete_needCtx hc, complete_bind_ok (needStore_pos ho),
    complete_bind_ok (need_pos hlen)]
  rfl

/-- Settles O31: the source first, and then the two resources of the copy, which fail alike. -/
theorem truncateCopyIsRefusedInOrder : Obligations.TruncateCopyIsRefusedInOrder := by
  intro s ha x
  refine ⟨badHandleIsBadOperand (.truncateCopy ha x) s ha (List.mem_singleton_self ha), fun c hc =>
    ⟨fun ho => ?_, fun ho => ⟨fun hfew => ?_, fun hlen => ?_⟩⟩⟩
  · rw [exec, execTruncateCopy, complete_needCtx hc, complete_bind_error (needStore_neg ho)]
  · rw [exec, execTruncateCopy, complete_needCtx hc, complete_bind_ok (needStore_pos ho),
      complete_bind_error (need_neg (Nat.not_le_of_lt hfew))]
  · rw [exec_truncateCopy_ready hc ho hlen, ← poolHolds_iff_poolAllows]
    refine ⟨fun hfull => complete_newContext_full hfull _, fun hpool => ?_⟩
    cases hn : newContext s with
    | error st =>
      obtain ⟨-, rfl⟩ := newContext_eq_error.1 hn
      exact complete_bind_error rfl _
    | ok h => exact complete_bind_error (need_neg hpool) _

section copy
variable {s : State} {h n bits : Nat} {c : Ctx} {header : List Byte}

/-- All that the copy changes of the contexts is the slot it takes. -/
theorem copyPrefix_ctxs (hheader : 3 - c.hdrLen.toNat + header.length = 3) (hh : h < s.ctxs.length) :
    ∃ m, (s.copyPrefix h c header n bits).ctxs = s.ctxs.set h { c.header with
      own := .owned, cap := BitVec.ofNat 16 (max 1 (ceil8 n)),
      dataEnd := BitVec.ofNat 16 (3 + n / 8), dataEndOff := BitVec.ofNat 3 (n % 8), store := m, bufId := s.fresh } := by
  have hw := copy_writes (s.createOwned h (max 1 (ceil8 n)) (c.header.withWC (24 + n))) h bits n _ header hheader
  obtain ⟨m, hm⟩ := hw.ctxs_eq_set (by rw [createOwned_ctxs, List.getElem?_set_self hh])
  have hcursor : c.header.withWC (24 + n) =
      { c.header with dataEnd := BitVec.ofNat 16 (3 + n / 8), dataEndOff := BitVec.ofNat 3 (n % 8) } :=
    withWC_bits c.header n
  exact ⟨m, by rw [State.copyPrefix, hm, createOwned_ctxs, List.set_set, hcursor]⟩

/-- The copy changes nothing outside the contexts but the draw counter. -/
theorem copyPrefix_outside (hheader : 3 - c.hdrLen.toNat + header.length = 3) (hh : h < s.ctxs.length) :
    (s.copyPrefix h c header n bits).host = s.host ∧ (s.copyPrefix h c header n bits).params = s.params ∧
    (s.copyPrefix h c header n bits).inbox = s.inbox ∧ (s.copyPrefix h c header n bits).hostData = s.hostData := by
  have hw := copy_writes (s.createOwned h (max 1 (ceil8 n)) (c.header.withWC (24 + n))) h bits n _ header hheader
  have hslot := slot_of_getElem? (s := s.createOwned h (max 1 (ceil8 n)) (c.header.withWC (24 + n)))
    (by rw [createOwned_ctxs, List.getElem?_set_self hh])
  exact ⟨hw.host_of_not_borrowed (by simp [hslot]), hw.params, hw.inbox, hw.hostData⟩

/-- The copied bits, and zeros up to the end of the last byte. -/
theorem copyPrefix_bufBit (hh : h < s.ctxs.length) {i : Nat} (hi : i < 8 * ceil8 n) :
    (s.copyPrefix h c header n bits).bufBit h (24 + i) = (decide (i < n) && bits.testBit (n - 1 - i)) := by
  rw [State.copyPrefix, bufBit_putBits _ _ _ _ _ (by simpa using hh)]
  by_cases hcopied : i < n
  · rw [if_pos (by omega), Nat.add_sub_cancel_left, decide_eq_true hcopied, Bool.true_and]
  · have hcleared : 3 ≤ (24 + i) / 8 ∧ (24 + i) / 8 < 3 + (List.replicate (ceil8 n) (0 : Byte)).length := by
      rw [List.length_replicate]
      omega
    rw [if_neg (by omega), State.bufBit, bufRead_writeBytes _ _ _ _ (by simpa using hh), if_pos hcleared,
      List.getD_replicate _ (by omega), decide_eq_false hcopied, Bool.false_and]
    exact BitVec.getLsbD_zero

/-- The header bytes stand before the payload, which neither the clearing nor the bits leave. -/
theorem copyPrefix_bufRead (hheader : 3 - c.hdrLen.toNat + header.length = 3) (hh : h < s.ctxs.length) {k : Nat}
    (hk : k < header.length) :
    (s.copyPrefix h c header n bits).bufRead h (3 - c.hdrLen.toNat + k) = header.getD k 0 := by
  rw [State.copyPrefix, (putBits_writes _ h 24 n bits).bufRead_other (by omega),
    bufRead_writeBytes _ _ _ _ (by simpa using hh), if_neg (by omega), bufRead_writeBytes _ _ _ _ (by simpa using hh),
    if_pos (by omega), Nat.add_sub_cancel_left]

end copy

/-- Settles O30: what the writes into the new buffer leave there, and that they are all that changes. -/
theorem truncateCopyCopiesThePrefix : Obligations.TruncateCopyCopiesThePrefix := by
  intro s ha x c h hi hc ho hlen hfree hpool
  obtain ⟨⟨old, hslot, -⟩, -⟩ := id hfree
  obtain ⟨hh, -⟩ := List.getElem?_eq_some_iff.1 hslot
  have hheader := headerBytes_length s ha.toNat c
  have hexec := exec_truncateCopy_ready hc ho hlen
  rw [complete_newContext hfree, complete_bind_ok (need_pos ((poolHolds_iff_poolAllows s _).2 hpool)), complete_ok,
    respond] at hexec
  obtain ⟨m, hctxs⟩ := copyPrefix_ctxs (n := x.toNat) (bits := s.getBits ha.toNat c.ps x.toNat) hheader hh
  refine ⟨_, m, s.fresh, hexec, rfl, hctxs, fun i hlt => ?_, fun i hge hlt => ?_, fun k hk => ?_,
    copyPrefix_outside hheader hh⟩
  · refine (copyPrefix_bufBit hh (by unfold ceil8; omega)).trans ?_
    rw [getBits_testBit, decide_eq_true hlt, decide_eq_true (by omega), Bool.true_and, Bool.true_and]
    congr 2
    omega
  · exact (copyPrefix_bufBit hh hlt).trans (by rw [decide_eq_false (by omega), Bool.false_and])
  · have hbyte : (s.headerBytes ha.toNat c).getD k 0 =
        s.bufRead ha.toNat (c.dataOff.toNat - c.hdrLen.toNat + k) := by simp [State.headerBytes, hk]
    exact (copyPrefix_bufRead hheader hh (by simpa [State.headerBytes] using hk)).trans hbyte

end Sys2Proof.Machine
end

section
/-! SUPPORT. The host's fields of the contexts, `result` and `next`, with the `valid` bit, and what every command but
SET_FIELD does to them (10_state.md R11, R16, R17; 44_msg_access.md R176). -/

namespace Sys2Proof.Machine

/-! ### The host's fields of a context -/

/-- The fields of a context that belong to the host (R176), and whether the context is valid. -/
structure HostFields where
  valid : Bool
  result : ResultTag
  next : Byte

def Ctx.hostFields (c : Ctx) : HostFields := ⟨c.valid, c.result, c.next⟩

/-- The host's fields of a context a command creates: WORKING and linked to none (R16, R17). -/
def HostFields.new : HostFields := ⟨true, .working, 0xFF⟩

def State.hostFields (s : State) : List HostFields := s.ctxs.map Ctx.hostFields

theorem hostFields_getElem? {s : State} {j : Nat} {f : HostFields} :
    s.hostFields[j]? = some f ↔ ∃ c, s.ctxs[j]? = some c ∧ c.hostFields = f := by
  rw [State.hostFields, List.getElem?_map, Option.map_eq_some_iff]

/-- The host's fields of one slot replaced: those of another slot are as before. -/
theorem hostFields_set_getElem? {s : State} {h j : Nat} {c : Ctx} {f g : HostFields} (hc : s.ctxs[h]? = some c)
    (hg : (s.hostFields.set h f)[j]? = some g) : ∃ d, s.ctxs[j]? = some d ∧ (g = d.hostFields ∨ d = c ∧ g = f) := by
  by_cases hj : h = j
  · subst hj
    rw [List.getElem?_set_self', hostFields_getElem?.2 ⟨c, hc, rfl⟩] at hg
    exact ⟨c, hc, .inr ⟨rfl, (Option.some.inj hg).symm⟩⟩
  · rw [List.getElem?_set_ne hj] at hg
    obtain ⟨d, hd, heq⟩ := hostFields_getElem?.1 hg
    exact ⟨d, hd, .inl heq.symm⟩

theorem hostFields_putCtx (s : State) (h : Nat) (c : Ctx) :
    (s.putCtx h c).hostFields = s.hostFields.set h c.hostFields :=
  List.map_set

theorem hostFields_createOwned (s : State) (h n : Nat) (c : Ctx) :
    (s.createOwned h n c).hostFields = s.hostFields.set h c.hostFields :=
  List.map_set

/-- A change of a context in other fields, in a state `t` that still has the host's fields of `s`. -/
theorem hostFields_mapCtx {s t : State} {h : Nat} {f : Ctx → Ctx} (ht : t.hostFields = s.hostFields)
    (hf : ∀ c, (f c).hostFields = c.hostFields) : (t.mapCtx h f).hostFields = s.hostFields := by
  rw [← ht]
  refine List.ext_getElem? fun j => ?_
  rw [State.hostFields, State.hostFields, mapCtx_ctxs, List.getElem?_map, List.getElem?_map, List.getElem?_modify]
  cases t.ctxs[j]? with
  | none => rfl
  | some c =>
    by_cases hj : h = j
    · simp [hj, hf]
    · simp [hj]

theorem hostFields_locWrite (s : State) (l : Loc) (v : Byte) : (s.locWrite l v).hostFields = s.hostFields := by
  cases l with
  | own h k => exact hostFields_mapCtx rfl fun _ => rfl
  | host a => rfl

/-- No byte of a buffer is a field of the host. -/
theorem Writes.hostFields {h : Nat} {P : Nat → Prop} {s t : State} (hw : Writes h P s t) :
    t.hostFields = s.hostFields := by
  induction hw with
  | refl => rfl
  | step k v _ _ ih => exact (hostFields_locWrite _ _ v).trans ih

/-- An append changes a capacity, bytes and a write cursor. -/
theorem appendBits_hostFields {s t : State} {h n v : Nat} {c : Ctx} (ha : appendBits s h c n v = .ok t) :
    t.hostFields = s.hostFields := by
  obtain ⟨s1, hr, rfl⟩ := appendBits_eq_ok.1 ha
  have hroom : s1.hostFields = s.hostFields := by
    rcases ensureRoom_eq_ok hr with ⟨-, rfl⟩ | ⟨-, -, -, -, rfl⟩
    · rfl
    · exact hostFields_mapCtx rfl fun _ => rfl
  exact hostFields_mapCtx ((putBits_writes s1 h c.wc n v).hostFields.trans hroom) fun _ => rfl

/-! ### What a command may do to the host's fields

`HostFieldStep s t`: all of them are kept, or one context was released, which ends its validity alone, or one slot
without a valid context got a new one. -/

inductive HostFieldStep (s t : State) : Prop
  | kept : t.hostFields = s.hostFields → HostFieldStep s t
  | released (h : Nat) (c : Ctx) : s.ctxs[h]? = some c →
      t.hostFields = s.hostFields.set h { c.hostFields with valid := false } → HostFieldStep s t
  | created (h : Nat) : newContext s = .ok h → t.hostFields = s.hostFields.set h .new → HostFieldStep s t

/-- Where a context stands after the step, one stood before it. -/
theorem HostFieldStep.slot {s t : State} {j : Nat} {d : Ctx} (hst : HostFieldStep s t) (hd : t.ctxs[j]? = some d) :
    ∃ c, s.ctxs[j]? = some c ∧ (d.hostFields = c.hostFields ∨ d.hostFields = { c.hostFields with valid := false } ∨
      c.valid = false ∧ d.hostFields = .new) := by
  have hfields : t.hostFields[j]? = some d.hostFields := hostFields_getElem?.2 ⟨d, hd, rfl⟩
  cases hst with
  | kept hkept =>
    rw [hkept] at hfields
    obtain ⟨c, hc, heq⟩ := hostFields_getElem?.1 hfields
    exact ⟨c, hc, .inl heq.symm⟩
  | released h c hc hset =>
    rw [hset] at hfields
    obtain ⟨e, he, heq | ⟨rfl, heq⟩⟩ := hostFields_set_getElem? hc hfields
    · exact ⟨e, he, .inl heq⟩
    · exact ⟨e, he, .inr (.inl heq)⟩
  | created h hn hset =>
    obtain ⟨⟨c, hc, hv⟩, -⟩ := newContext_eq_ok.1 hn
    rw [hset] at hfields
    obtain ⟨e, he, heq | ⟨rfl, heq⟩⟩ := hostFields_set_getElem? hc hfields
    · exact ⟨e, he, .inl heq⟩
    · exact ⟨e, he, .inr (.inr ⟨hv, heq⟩)⟩

/-- A command's body whose end, when its checks pass, is a step from `s`. -/
def HostFieldBody (s : State) (r : Except Status (State × Word)) : Prop := ∀ u v, r = .ok (u, v) → HostFieldStep s u

section bodies
variable {s t u : State} {h : Nat} {v : Word}

theorem HostFieldBody.answer (hu : HostFieldStep s u) : HostFieldBody s (.ok (u, v)) := by
  rintro _ _ ⟨⟩
  exact hu

theorem HostFieldBody.kept (hu : u.hostFields = s.hostFields) : HostFieldBody s (.ok (u, v)) := .answer (.kept hu)

/-- A body that changes one context in other fields. -/
theorem HostFieldBody.mapCtx {f : Ctx → Ctx} (hf : ∀ c, (f c).hostFields = c.hostFields) :
    HostFieldBody s (.ok (s.mapCtx h f, v)) := .kept (hostFields_mapCtx rfl hf)

theorem HostFieldBody.check {α : Type} {check : Except Status α} {rest : α → Except Status (State × Word)}
    (hrest : ∀ a, check = .ok a → HostFieldBody s (rest a)) : HostFieldBody s (check >>= rest) := fun u v hr =>
  have ⟨a, hcheck, hok⟩ := bind_eq_ok.1 hr
  hrest a hcheck u v hok

/-- A command that fails keeps all contexts (60_exceptions.md R214). -/
theorem HostFieldStep.of_complete {r : Except Status (State × Word)} (hx : complete s r = .next t)
    (hr : HostFieldBody s r) : HostFieldStep s t := by
  rcases complete_cases hx with ⟨u, v, hok, rfl⟩ | ⟨st, -, rfl⟩
  · cases hr u v hok with
    | kept hkept => exact .kept hkept
    | released h c hc hset => exact .released h c hc hset
    | created h hn hset => exact .created h hn hset
  · exact .kept rfl

end bodies

/-! ### Each command but SET_FIELD -/

section commands
variable {s t : State} {ha hb w : Byte} {x y : Word}

/-- A command that after its one check answers from the state it found. -/
theorem HostFieldStep.of_check {α : Type} {check : Except Status α} {value : α → Word}
    (hx : complete s (check >>= fun a => .ok (s, value a)) = .next t) : HostFieldStep s t :=
  .of_complete hx <| .check fun _ _ => .kept rfl

theorem execAllocate_hostFieldStep (hx : execAllocate x s = .next t) : HostFieldStep s t :=
  .of_complete hx <| .check fun _ _ => .check fun h hn => .check fun _ _ =>
    .answer (.created h hn (hostFields_createOwned s h _ _))

theorem execWrap_hostFieldStep (hx : execWrap x y s = .next t) : HostFieldStep s t :=
  .of_complete hx <| .check fun _ _ => .check fun _ _ => .check fun h hn =>
    .answer (.created h hn (hostFields_putCtx s h _))

theorem execDuplicate_hostFieldStep (hx : execDuplicate ha s = .next t) : HostFieldStep s t :=
  .of_complete hx <| .check fun _ _ => .check fun h hn => .answer (.created h hn (hostFields_putCtx s h _))

theorem execRelease_hostFieldStep (hx : execRelease ha s = .next t) : HostFieldStep s t :=
  .of_complete hx <| .check fun c hc => .answer <| by
    have hc := needCtx_eq_ok.1 hc
    rw [mapCtx_of_ctx? _ hc]
    exact .released ha.toNat c (ctx?_eq_some.1 hc).1 (hostFields_putCtx s ha.toNat _)

theorem execGrow_hostFieldStep (hx : execGrow ha x s = .next t) : HostFieldStep s t :=
  .of_complete hx <| .check fun c _ => .check fun _ _ => .check fun _ _ => by
    split
    · exact .kept rfl
    · exact .check fun _ _ => .mapCtx fun _ => rfl

theorem execAttach_hostFieldStep (hx : execAttach ha x y s = .next t) : HostFieldStep s t :=
  .of_complete hx <| .check fun _ _ => .check fun _ _ => .check fun _ _ => .check fun _ _ => .check fun _ _ =>
    .mapCtx fun _ => rfl

theorem resetCursors_hostFieldBody : HostFieldBody s (resetCursors s ha) := .check fun _ _ => .mapCtx fun _ => rfl

theorem execAppendByte_hostFieldStep (hx : execAppendByte ha x s = .next t) : HostFieldStep s t :=
  .of_complete hx <| .check fun _ _ => .check fun _ _ => .check fun _ happ => .kept (appendBits_hostFields happ)

theorem execAppendBytes_hostFieldStep {data : List Byte} (hx : execAppendBytes ha x data s = .next t) :
    HostFieldStep s t :=
  .of_complete hx <| .check fun _ _ => .check fun _ _ => .check fun _ _ => .check fun _ happ =>
    .kept (appendBits_hostFields happ)

theorem execAddChunk_hostFieldStep (hx : execAddChunk ha w x s = .next t) : HostFieldStep s t :=
  .of_complete hx <| .check fun _ _ => .check fun _ _ => .check fun _ _ => .check fun _ happ =>
    .kept (appendBits_hostFields happ)

theorem execStartExtract_hostFieldStep (hx : execStartExtract ha s = .next t) : HostFieldStep s t :=
  .of_complete hx <| .check fun _ _ => .mapCtx fun _ => rfl

theorem execExtractChunk_hostFieldStep (hx : execExtractChunk ha w s = .next t) : HostFieldStep s t :=
  .of_complete hx <| .check fun _ _ => .check fun _ _ => .check fun _ _ => .check fun _ _ => by
    split
    · exact .mapCtx fun _ => rfl
    · exact .mapCtx fun _ => rfl

theorem execAddFrom_hostFieldStep (hx : execAddFrom ha hb x s = .next t) : HostFieldStep s t :=
  .of_complete hx <| .check fun _ _ => .check fun _ _ => .check fun _ _ => .check fun _ _ => .check fun _ _ =>
    .check fun _ _ => .check fun _ _ => .check fun _ happ =>
      .kept (hostFields_mapCtx (appendBits_hostFields happ) fun _ => rfl)

theorem execDrop_hostFieldStep (hx : execDrop ha w s = .next t) : HostFieldStep s t :=
  .of_complete hx <| .check fun _ _ => .check fun _ _ => .check fun _ _ => .check fun _ _ => .mapCtx fun _ => rfl

theorem execAlign_hostFieldStep (hx : execAlign ha s = .next t) : HostFieldStep s t :=
  .of_complete hx <| .check fun _ _ => .check fun _ _ => .mapCtx fun _ => rfl

/-- The new context has the host's fields of `init_ctx`; what is written after that are bytes (R145). -/
theorem execTruncateCopy_hostFieldStep (hx : execTruncateCopy ha x s = .next t) : HostFieldStep s t :=
  .of_complete hx <| .check fun c _ => .check fun _ _ => .check fun _ _ => .check fun h hn => .check fun _ _ =>
    have hbytes := copy_writes _ h _ x.toNat _ _ (headerBytes_length s ha.toNat c)
    .answer (.created h hn (hbytes.hostFields.trans (hostFields_createOwned s h _ _)))

theorem execGetField_hostFieldStep (hx : execGetField ha hb s = .next t) : HostFieldStep s t :=
  .of_complete hx <| .check fun c _ => by
    cases c.field hb.toNat with
    | none => exact nofun
    | some v => exact .kept rfl

theorem execHdrEncode_hostFieldStep (hx : execHdrEncode ha s = .next t) : HostFieldStep s t :=
  .of_complete hx <| .check fun _ _ => .check fun _ _ => .check fun _ _ =>
    .kept (hostFields_mapCtx (writeBytes_writes s ha.toNat _ _).hostFields fun _ => rfl)

theorem execHdrDecode_hostFieldStep (hx : execHdrDecode ha s = .next t) : HostFieldStep s t :=
  .of_complete hx <| .check fun _ _ => .check fun _ _ => .check fun _ _ => .mapCtx fun _ => rfl

/-- No command but SET_FIELD does more to the host's fields than to release a context or to create one (R176). -/
theorem exec_hostFieldStep {i : Instr} (hi : ∀ ha hb x, i ≠ .setField ha hb x) (hx : exec i s = .next t) :
    HostFieldStep s t := by
  cases i with
  | setField ha hb x => exact absurd rfl (hi ha hb x)
  | crc8Init | crc8Update x y | crc8Finish y | crc16Init | crc16Update x y | crc16Finish y | fillCrc ha hb w x =>
    cases hx
    exact .kept rfl
  | crc8UpdateV w x y | crc8Block x data | crc16UpdateV w x y | crc16Block x data | hasMore ha | start ha
  | length ha | bitLength ha | sentBits ha => exact .of_check hx
  | allocate x => exact execAllocate_hostFieldStep hx
  | wrap x y => exact execWrap_hostFieldStep hx
  | duplicate ha => exact execDuplicate_hostFieldStep hx
  | release ha => exact execRelease_hostFieldStep hx
  | grow ha x => exact execGrow_hostFieldStep hx
  | attach ha x y => exact execAttach_hostFieldStep hx
  | startSend ha | startAdd ha => exact .of_complete hx resetCursors_hostFieldBody
  | appendByte ha x => exact execAppendByte_hostFieldStep hx
  | appendBytes ha x data => exact execAppendBytes_hostFieldStep hx
  | startExtract ha => exact execStartExtract_hostFieldStep hx
  | extractChunk ha w => exact execExtractChunk_hostFieldStep hx
  | addChunk ha w x => exact execAddChunk_hostFieldStep hx
  | addFrom ha hb x => exact execAddFrom_hostFieldStep hx
  | drop ha w => exact execDrop_hostFieldStep hx
  | align ha => exact execAlign_hostFieldStep hx
  | truncateCopy ha x => exact execTruncateCopy_hostFieldStep hx
  | getField ha hb => exact execGetField_hostFieldStep hx
  | hdrEncode ha => exact execHdrEncode_hostFieldStep hx
  | hdrDecode ha => exact execHdrDecode_hostFieldStep hx

end commands

end Sys2Proof.Machine
end

section
/-! The statements about the accessors and the fields of a context (44_msg_access.md R170 to R176). -/

namespace Sys2Proof.Machine

/-! ### The cursors as answers (R170 to R173) -/

/-- The bits from the payload start up to a cursor behind it, by the cursor's byte and bit parts (00_scope.md R7). -/
theorem bits_sub_payloadStart {first byte : Nat} {bit : BitVec 3} (hle : 8 * first ≤ 8 * byte + bit.toNat) :
    8 * byte + bit.toNat - 8 * first = 8 * (byte - first) + bit.toNat := by
  have hbit := bit.isLt
  omega

/-- `ceil8` counts the bits of a partial byte as one byte more (R6). -/
theorem ceil8_bytes_and_bits (bytes : Nat) (bit : BitVec 3) :
    ceil8 (8 * bytes + bit.toNat) = bytes + if 0 < bit.toNat then 1 else 0 := by
  have hbit := bit.isLt
  unfold ceil8
  split <;> omega

/-- Settles O33: both cursors stand at the payload start or behind it, so nothing is cut off by the subtractions. -/
theorem accessorsAnswerTheCursors : Obligations.AccessorsAnswerTheCursors := by
  intro s ha hi
  refine ⟨fun hn i hmem => ?_, fun c hc => ?_⟩
  · have hnamed : ha ∈ handlesOf i := by
      simp only [List.mem_cons, List.not_mem_nil, or_false] at hmem
      rcases hmem with rfl | rfl | rfl | rfl <;> exact List.mem_singleton_self ha
    exact badHandleIsBadOperand i s ha hnamed hn
  · obtain ⟨hoff, -, hps, hrc, -⟩ := wf_of_ctx? hi hc
    have hcontent : c.wc - c.ps = 8 * (c.dataEnd.toNat - c.dataOff.toNat) + c.dataEndOff.toNat :=
      bits_sub_payloadStart (hps.trans hrc)
    have hsent : c.rc - c.ps = 8 * (c.dataPos.toNat - c.dataOff.toNat) + c.dataPosOff.toNat :=
      bits_sub_payloadStart hps
    have hanswer (value : Ctx → Word) :
        complete s (do let c ← needCtx s ha; .ok (s, value c)) = .next (answered s (value c)) := complete_needCtx hc _
    have hstart : c.dataOff.setWidth 32 = (3 : Word) := by
      rw [← BitVec.ofNat_toNat, hoff]
      rfl
    rw [← ceil8_bytes_and_bits, ← hcontent, ← hsent, ← hstart]
    exact ⟨hanswer _, hanswer _, hanswer _, hanswer _⟩

/-! ### Reading a field (R174) -/

theorem field_eq_none {c : Ctx} {no : Nat} (hno : 14 < no) : c.field no = none := by
  obtain ⟨k, rfl⟩ := Nat.exists_eq_add_of_le' hno
  rfl

/-- Settles O34: one row of the field table after the other. -/
theorem getFieldAnswersEveryField : Obligations.GetFieldAnswersEveryField := by
  intro s ha hb
  refine ⟨badHandleIsBadOperand (.getField ha hb) s ha (List.mem_singleton_self ha), fun c hc => ?_⟩
  have habsent (hno : 14 < hb.toNat) : exec (.getField ha hb) s = .next (raised s .badOperand) := by
    rw [exec, execGetField, complete_needCtx hc, field_eq_none hno, complete_error, raise]
  have hvalue {v : Word} (no : Byte) (hv : c.field no.toNat = some v) :
      hb = no → exec (.getField ha hb) s = .next (answered s v) := by
    rintro rfl
    rw [exec, execGetField, complete_needCtx hc, hv, complete_ok, respond]
  have hunsigned {k : Nat} {b : BitVec k} (no : Byte) (hv : c.field no.toNat = some (b.setWidth 32)) :=
    hvalue no (hv.trans (congrArg some (BitVec.ofNat_toNat 32 b).symm))
  have hmax : c.dataMax.toNat = if c.own = .owned then c.cap.toNat else 0 := by
    rw [Ctx.dataMax, apply_ite BitVec.toNat]
    rfl
  rw [← hmax]
  refine ⟨habsent, hvalue 0 rfl, hvalue 1 rfl, hunsigned 2 rfl, hunsigned 3 rfl, hunsigned 4 rfl, hunsigned 5 rfl,
    hunsigned 6 rfl, hunsigned 7 rfl, hunsigned 8 rfl, hunsigned 9 rfl, hvalue 10 ?_, hunsigned 11 rfl, hvalue 12 ?_,
    hunsigned 13 rfl, hvalue 14 rfl⟩
  · cases hr : c.result <;> simp [Ctx.field, hr, ResultTag.code]
  · cases ho : c.own <;> simp [Ctx.field, ho, Own.code]

/-! ### Writing a field (R175) -/

theorem resultOf_code (r : ResultTag) : resultOf r.code = some r := by
  cases r <;> rfl

theorem resultOf_eq_none {n : Nat} (hn : 5 < n) : resultOf n = none := by
  obtain ⟨k, rfl⟩ := Nat.exists_eq_add_of_le' hn
  rfl

/-- A legal address cut to eight bits is the same address. -/
theorem toInt_cut_address {x : Word} (hlo : -4 ≤ x.toInt) (hhi : x.toInt ≤ 127) :
    (BitVec.ofNat 8 x.toNat).toInt = x.toInt := by
  rw [BitVec.toInt_eq_toNat_cond] at *
  rw [BitVec.toInt_eq_toNat_cond, BitVec.toNat_ofNat]
  split at hlo <;> split <;> omega

/-- A field that SET_FIELD does not write: read-only, or absent. -/
theorem withField_readOnly (c : Ctx) (n : Nat) (x : Word) {hb : Byte}
    (hno : hb ∉ ([0, 1, 2, 5, 10, 11] : List Byte)) : c.withField n hb.toNat x = .error .badOperand := by
  have hne (no : Byte) (hmem : no ∈ ([0, 1, 2, 5, 10, 11] : List Byte)) : hb.toNat ≠ no.toNat := fun heq =>
    hno (BitVec.eq_of_toNat_eq heq ▸ hmem)
  unfold Ctx.withField
  split
  next h => exact absurd h (hne 0 (by decide))
  next h => exact absurd h (hne 1 (by decide))
  next h => exact absurd h (hne 2 (by decide))
  next h => exact absurd h (hne 5 (by decide))
  next h => exact absurd h (hne 10 (by decide))
  next h => exact absurd h (hne 11 (by decide))
  next => rfl

/-- A value outside the range of its field, with the fields by number. -/
theorem withField_outOfRange {c : Ctx} {n : Nat} {x : Word} {hb : Byte}
    (hx : (hb.toNat < 2 ∧ (x.toInt < -4 ∨ 127 < x.toInt)) ∨ (hb = 2 ∧ 255 < x.toNat) ∨ (hb = 5 ∧ 3 < x.toNat) ∨
      (hb = 10 ∧ 5 < x.toNat) ∨ (hb = 11 ∧ n ≤ x.toNat ∧ x.toNat ≠ 255)) :
    c.withField n hb.toNat x = .error .badOperand := by
  rcases hx with ⟨hno, hx⟩ | ⟨rfl, hx⟩ | ⟨rfl, hx⟩ | ⟨rfl, hx⟩ | ⟨rfl, hlen, hnone⟩
  · have haddress : ¬ addressInRange x.toInt := by
      unfold addressInRange
      omega
    interval_cases hb.toNat
    · exact if_neg haddress
    · exact if_neg haddress
  · exact if_neg (Nat.not_le_of_lt hx)
  · exact if_neg fun h => Nat.not_le_of_lt hx h.1
  · have hresult := resultOf_eq_none hx
    simp [Ctx.withField, hresult]
  · exact if_neg (not_or.2 ⟨Nat.not_lt_of_le hlen, hnone⟩)

/-- SET_FIELD of a field and a value that the table of R175 allows. -/
theorem exec_setField_of_ok {s : State} {ha hb : Byte} {x : Word} {c d : Ctx} (hc : s.ctx? ha.toNat = some c)
    (hd : c.withField s.ctxs.length hb.toNat x = .ok d) : exec (.setField ha hb x) s =
      .next { s with ctxs := s.ctxs.set ha.toNat d, resp := some ⟨.ok, 0⟩ } := by
  rw [exec, execSetField, complete_needCtx hc, complete_bind_ok hd, complete_ok, respond, State.putCtx]

/-- Settles O35: the table of R175, first its refusals and then each field with a value in range. -/
theorem setFieldWritesTheOneField : Obligations.SetFieldWritesTheOneField := by
  intro s ha x hi
  refine ⟨fun hn hb => badHandleIsBadOperand (.setField ha hb x) s ha (List.mem_singleton_self ha) hn,
    fun hb hbad => complete_needCtx_badOperand fun c => complete_bind_error
      (hbad.elim (withField_readOnly c _ x) withField_outOfRange) _, fun c hc => ?_⟩
  have hoff := dataOff_of_wf (wf_of_ctx? hi hc)
  have hcut (k : Nat) : x.setWidth k = BitVec.ofNat k x.toNat := (BitVec.ofNat_toNat k x).symm
  rw [hcut, hcut]
  refine ⟨fun hlo hhi => ⟨BitVec.ofNat 8 x.toNat, toInt_cut_address hlo hhi, ?_, ?_⟩, fun hx => ?_, fun hx => ?_,
    fun r hx => ?_, fun hx => ?_⟩
  · exact exec_setField_of_ok hc (if_pos ⟨hlo, hhi⟩)
  · exact exec_setField_of_ok hc (if_pos ⟨hlo, hhi⟩)
  · exact exec_setField_of_ok hc (if_pos hx)
  · exact exec_setField_of_ok hc (if_pos ⟨hx, hx.trans hoff.ge⟩)
  · have hresult : resultOf x.toNat = some r := hx ▸ resultOf_code r
    exact exec_setField_of_ok hc (by simp [Ctx.withField, hresult])
  · exact exec_setField_of_ok hc (if_pos hx)

/-! ### The host's fields (R176) -/

/-- Settles O47: a valid context keeps its fields also when it is released, and a context that is valid only afterwards
is one that was created. -/
theorem resultAndNextAreTheHosts : Obligations.ResultAndNextAreTheHosts := by
  intro i s t j hx hi
  have hstep := exec_hostFieldStep hi hx
  refine ⟨fun c d hc hd => ?_, fun d hn hd => ?_⟩
  · obtain ⟨hslot, hv⟩ := ctx?_eq_some.1 hc
    obtain ⟨c', hc', hfields⟩ := hstep.slot hd
    obtain rfl : c = c' := Option.some.inj (hslot.symm.trans hc')
    rcases hfields with hf | hf | ⟨hfree, -⟩
    · exact ⟨congrArg HostFields.result hf, congrArg HostFields.next hf⟩
    · exact ⟨congrArg HostFields.result hf, congrArg HostFields.next hf⟩
    · cases hv.symm.trans hfree
  · obtain ⟨hslot, hv⟩ := ctx?_eq_some.1 hd
    obtain ⟨c, hc, hfields⟩ := hstep.slot hslot
    rcases hfields with hf | hf | ⟨-, hf⟩
    · have hvalid : c.valid = true := (congrArg HostFields.valid hf).symm.trans hv
      cases hn.symm.trans (ctx?_eq_some.2 ⟨hc, hvalid⟩)
    · cases hv.symm.trans (congrArg HostFields.valid hf)
    · exact ⟨congrArg HostFields.result hf, congrArg HostFields.next hf⟩

end Sys2Proof.Machine
end

section
/-! SUPPORT. The header codec without a machine (45_header_codec.md R191 to R195): a byte string as one number, an
address as the bits behind its flag, and decoding as the inverse of encoding. -/

namespace Sys2Proof.Machine

/-! ### A byte string as one number (R193, R194) -/

theorem bytesString_lt (bytes : List Byte) : bytesString bytes < 2 ^ (8 * bytes.length) := by
  induction bytes using List.reverseRecOn with
  | nil => decide
  | append_singleton bytes b ih =>
    rw [bytesString_append_singleton, List.length_append, List.length_singleton, Nat.mul_succ, pow_add]
    have := b.isLt
    omega

theorem stringBytes_succ (len string : Nat) :
    stringBytes (len + 1) string = stringBytes len (string / 256) ++ [BitVec.ofNat 8 string] := by
  rw [stringBytes, List.range_succ, List.map_append, List.map_singleton, stringBytes, Nat.add_sub_cancel, Nat.sub_self,
    Nat.pow_zero, Nat.div_one]
  congr 1
  refine List.map_congr_left fun k hk => ?_
  have hlt := List.mem_range.1 hk
  rw [Nat.div_div_eq_div_mul, ← Nat.pow_succ', show (len - 1 - k).succ = len - k by omega]

/-- The bytes of a string are the string again. -/
theorem bytesString_stringBytes {len string : Nat} (hlt : string < 2 ^ (8 * len)) :
    bytesString (stringBytes len string) = string := by
  induction len generalizing string with
  | zero => exact (Nat.lt_one_iff.1 hlt).symm
  | succ len ih =>
    rw [Nat.mul_succ, pow_add] at hlt
    rw [stringBytes_succ, bytesString_append_singleton, ih (by omega), BitVec.toNat_ofNat]
    omega

/-- The string of some bytes is these bytes again. -/
theorem stringBytes_bytesString (bytes : List Byte) : stringBytes bytes.length (bytesString bytes) = bytes := by
  induction bytes using List.reverseRecOn with
  | nil => rfl
  | append_singleton bytes b ih =>
    have hb := b.isLt
    have hdiv : bytesString (bytes ++ [b]) / 256 = bytesString bytes := by
      rw [bytesString_append_singleton]; omega
    have hlast : BitVec.ofNat 8 (bytesString (bytes ++ [b])) = b := by
      refine BitVec.eq_of_toNat_eq ?_
      rw [bytesString_append_singleton, BitVec.toNat_ofNat]; omega
    rw [List.length_append, List.length_singleton, stringBytes_succ, hdiv, hlast, ih]

/-- The upper part of two bit strings put one after the other. -/
theorem concat_div_two_pow {x y k : Nat} (hy : y < 2 ^ k) : (x * 2 ^ k + y) / 2 ^ k = x := by
  rw [Nat.mul_comm, Nat.mul_add_div (Nat.two_pow_pos k), Nat.div_eq_of_lt hy, Nat.add_zero]

/-! ### One address (R191, R192) -/

/-- The bits of an address with the flag `short`, the flag included (R192). -/
def flagWidth (short : Bool) : Nat := if short then 3 else 8

/-- The address that the bits of `v` behind a flag say (R194). -/
def addressOf (short : Bool) (v : Nat) : Byte :=
  if short then BitVec.ofNat 8 (v % 4) - 4 else BitVec.ofNat 8 (v % 128)

@[simp] theorem flagWidth_true : flagWidth true = 3 := rfl
@[simp] theorem flagWidth_false : flagWidth false = 8 := rfl

theorem flagWidth_pos (short : Bool) : 0 < flagWidth short := by cases short <;> decide

theorem toNat_addressOf_short (v : Nat) : (addressOf true v).toNat = 252 + v % 4 := by
  have hlt : v % 4 < 4 := Nat.mod_lt v (by decide)
  rw [addressOf, if_pos rfl]
  interval_cases v % 4 <;> rfl

theorem toNat_addressOf_long (v : Nat) : (addressOf false v).toNat = v % 128 := by
  rw [addressOf, if_neg Bool.false_ne_true, BitVec.toNat_ofNat]
  omega

/-- Short addresses are the negative ones (R191). -/
theorem isShort_eq (a : Byte) : isShort a = decide (a.toInt < 0) := BitVec.msb_eq_toInt

theorem isShort_eq_toNat (a : Byte) : isShort a = decide (128 ≤ a.toNat) := BitVec.msb_eq_decide a

/-- A long address is its own value (R191). -/
theorem toInt_of_long {a : Byte} (hlong : isShort a = false) : a.toNat < 128 ∧ a.toInt = a.toNat := by
  have hlt : a.toNat < 128 := Nat.lt_of_not_le (of_decide_eq_false ((isShort_eq_toNat a).symm.trans hlong))
  exact ⟨hlt, by rw [BitVec.toInt_eq_toNat_cond, if_pos (by omega)]⟩

/-- The short addresses of R13 are the four greatest bytes (R191). -/
theorem toInt_of_short {a : Byte} (ha : addressInRange a.toInt) (hshort : isShort a = true) :
    252 ≤ a.toNat ∧ a.toInt = (a.toNat : Int) - 256 := by
  have hge : 128 ≤ a.toNat := of_decide_eq_true ((isShort_eq_toNat a).symm.trans hshort)
  have hval : a.toInt = (a.toNat : Int) - 256 := by rw [BitVec.toInt_eq_toNat_cond, if_neg (by omega)]; rfl
  obtain ⟨hlo, -⟩ := ha
  exact ⟨by omega, hval⟩

theorem addressBits_short {a : Byte} (hshort : isShort a = true) : addressBits a = 4 + a.toNat % 4 := by
  rw [addressBits, if_pos hshort, Nat.add_mod_right]

theorem addressBits_long {a : Byte} (hlong : isShort a = false) : addressBits a = a.toNat := by
  rw [addressBits, hlong, if_neg Bool.false_ne_true, Nat.mod_eq_of_lt (toInt_of_long hlong).1]

theorem addressBits_lt (a : Byte) : addressBits a < 2 ^ flagWidth (isShort a) := by
  cases hshort : isShort a with
  | true => rw [addressBits_short hshort, flagWidth_true]; omega
  | false => rw [addressBits_long hshort]; exact a.isLt

/-- The flag is the first bit of an address. -/
theorem addressBits_flag (a : Byte) : (addressBits a).testBit (flagWidth (isShort a) - 1) = isShort a := by
  rw [Nat.testBit_eq_decide_div_mod_eq]
  cases hshort : isShort a with
  | true =>
    have hbits : (4 + a.toNat % 4) / 4 % 2 = 1 := by omega
    rw [addressBits_short hshort]
    exact decide_eq_true hbits
  | false =>
    have hlt := (toInt_of_long hshort).1
    have hbits : ¬ a.toNat / 128 % 2 = 1 := by omega
    rw [addressBits_long hshort]
    exact decide_eq_false hbits

/-- The bits of an address in range say that address. -/
theorem addressOf_addressBits {a : Byte} (ha : addressInRange a.toInt) :
    addressOf (isShort a) (addressBits a) = a := by
  refine BitVec.eq_of_toNat_eq ?_
  cases hshort : isShort a with
  | true =>
    obtain ⟨hge, -⟩ := toInt_of_short ha hshort
    have hlt := a.isLt
    rw [addressBits_short hshort, toNat_addressOf_short]
    omega
  | false =>
    rw [addressBits_long hshort, toNat_addressOf_long, Nat.mod_eq_of_lt (toInt_of_long hshort).1]

/-- What an address says depends on the bits of the address alone. -/
theorem addressOf_mod (short : Bool) (v : Nat) : addressOf short (v % 2 ^ flagWidth short) = addressOf short v := by
  refine BitVec.eq_of_toNat_eq ?_
  cases short with
  | true =>
    rw [toNat_addressOf_short, toNat_addressOf_short, flagWidth_true]
    omega
  | false =>
    rw [toNat_addressOf_long, toNat_addressOf_long, flagWidth_false]
    omega

theorem isShort_addressOf (short : Bool) (v : Nat) : isShort (addressOf short v) = short := by
  rw [isShort_eq_toNat]
  cases short with
  | true => exact decide_eq_true (by rw [toNat_addressOf_short]; omega)
  | false => exact decide_eq_false (by rw [toNat_addressOf_long]; omega)

/-- The address that flagged bits say has these bits. -/
theorem addressBits_addressOf {short : Bool} {v : Nat} (hflag : v.testBit (flagWidth short - 1) = short) :
    addressBits (addressOf short v) = v % 2 ^ flagWidth short := by
  have hshort := isShort_addressOf short v
  rw [Nat.testBit_eq_decide_div_mod_eq] at hflag
  cases short with
  | true =>
    have hone : v / 4 % 2 = 1 := of_decide_eq_true hflag
    rw [addressBits_short hshort, toNat_addressOf_short, flagWidth_true]
    omega
  | false =>
    have hzero : ¬ v / 128 % 2 = 1 := of_decide_eq_false hflag
    rw [addressBits_long hshort, toNat_addressOf_long, flagWidth_false]
    omega

/-! ### Taking an address (R194) -/

theorem takeBits_add (string m k : Nat) : takeBits string (m + k) k = .ok (string / 2 ^ m % 2 ^ k, m) := by
  rw [takeBits, if_neg (Nat.not_lt_of_le (Nat.le_add_left k m)), Nat.add_sub_cancel]

theorem takeBits_of_lt {string n k : Nat} (hlt : n < k) : takeBits string n k = .error .corruptHeader := if_pos hlt

theorem testBit_eq_mod_two (v i : Nat) : (v / 2 ^ i % 2 ^ 1 = 1) = (v.testBit i = true) := by
  rw [Nat.testBit_eq_decide_div_mod_eq, decide_eq_true_eq, Nat.pow_one]

/-- An address whose bits are there is taken: the flag, what the bits behind it say, and the rest. -/
theorem takeAddress_add {string m : Nat} {short : Bool}
    (hflag : (string / 2 ^ m).testBit (flagWidth short - 1) = short) :
    takeAddress string (m + flagWidth short) = .ok (short, addressOf short (string / 2 ^ m), m) := by
  rw [Nat.testBit_div_two_pow] at hflag
  cases short with
  | true =>
    have hone : string / 2 ^ (m + 2) % 2 ^ 1 = 1 := (testBit_eq_mod_two string (m + 2)).mpr (by rwa [Nat.add_comm])
    rw [takeAddress, flagWidth_true, show m + 3 = m + 2 + 1 from rfl, takeBits_add, bind_ok]
    simp only [hone, if_true, takeBits_add, bind_ok]
    rfl
  | false =>
    have hzero : ¬ string / 2 ^ (m + 7) % 2 ^ 1 = 1 := by
      rw [testBit_eq_mod_two, Nat.add_comm]
      exact Bool.eq_false_iff.1 hflag
    rw [takeAddress, flagWidth_false, show m + 8 = m + 7 + 1 from rfl, takeBits_add, bind_ok]
    simp only [hzero, if_false, takeBits_add, bind_ok]
    rfl

/-- Everything taking an address can do: its bits are there and it is taken, or the string is too short. -/
theorem takeAddress_cases (string n : Nat) :
    (∃ m short, n = m + flagWidth short ∧ (string / 2 ^ m).testBit (flagWidth short - 1) = short ∧
      takeAddress string n = .ok (short, addressOf short (string / 2 ^ m), m)) ∨
    takeAddress string n = .error .corruptHeader := by
  cases n with
  | zero => exact .inr (by rw [takeAddress, takeBits_of_lt Nat.one_pos, bind_error])
  | succ n =>
    obtain ⟨short, hshort⟩ : ∃ short, string.testBit n = short := ⟨_, rfl⟩
    by_cases hlen : flagWidth short ≤ n + 1
    · obtain ⟨m, hm⟩ := Nat.exists_eq_add_of_le' hlen
      have hflag : (string / 2 ^ m).testBit (flagWidth short - 1) = short := by
        have hpos := flagWidth_pos short
        rw [Nat.testBit_div_two_pow, show flagWidth short - 1 + m = n by omega, hshort]
      exact .inl ⟨m, short, hm, hflag, hm ▸ takeAddress_add hflag⟩
    · refine .inr ?_
      rw [takeAddress, takeBits_add, bind_ok]
      cases short with
      | true =>
        rw [flagWidth_true] at hlen
        simp only [(testBit_eq_mod_two string n).mpr hshort, if_true, takeBits_of_lt (show n < 2 by omega), bind_error]
      | false =>
        rw [flagWidth_false] at hlen
        have hzero : ¬ string / 2 ^ n % 2 ^ 1 = 1 := by
          rw [testBit_eq_mod_two, hshort]
          exact Bool.false_ne_true
        simp only [hzero, if_false, takeBits_of_lt (show n < 7 by omega), bind_error]

/-! ### Decoding (R194, R195) -/

/-- Header bytes of the class with the flags `df` and `sf`: they have its length, and each address begins with its
flag (R191, R192). -/
structure HeaderFlags (df sf : Bool) (bytes : List Byte) : Prop where
  width : 8 * bytes.length = codeWidth df sf + flagWidth sf + flagWidth df
  dst : (bytesString bytes / 2 ^ (codeWidth df sf + flagWidth sf)).testBit (flagWidth df - 1) = df
  src : (bytesString bytes / 2 ^ codeWidth df sf).testBit (flagWidth sf - 1) = sf

/-- The triple that header bytes with the flags `df` and `sf` say. -/
def headerTriple (df sf : Bool) (bytes : List Byte) : Byte × Byte × Byte :=
  (addressOf df (bytesString bytes / 2 ^ (codeWidth df sf + flagWidth sf)),
    addressOf sf (bytesString bytes / 2 ^ codeWidth df sf), BitVec.ofNat 8 (bytesString bytes % 2 ^ codeWidth df sf))

theorem decodeHeader_of_flags {df sf : Bool} {bytes : List Byte} (hflags : HeaderFlags df sf bytes) :
    decodeHeader bytes = .ok (headerTriple df sf bytes) := by
  have hpos := flagWidth_pos df
  have hwidth := hflags.width
  have hcode := takeBits_add (bytesString bytes) 0 (codeWidth df sf)
  rw [Nat.zero_add, Nat.pow_zero, Nat.div_one] at hcode
  simp only [decodeHeader, need_pos (show bytes.length ≠ 0 by omega), need_pos, bind_ok, hwidth,
    takeAddress_add hflags.dst, takeAddress_add hflags.src, hcode, headerTriple]

/-- Everything decoding can do: the flags fit the length, and the header is taken apart, or CorruptHeader. -/
theorem decodeHeader_cases (bytes : List Byte) :
    (∃ df sf, HeaderFlags df sf bytes ∧ decodeHeader bytes = .ok (headerTriple df sf bytes)) ∨
    decodeHeader bytes = .error .corruptHeader := by
  by_cases hempty : bytes.length = 0
  · exact .inr (by rw [decodeHeader, need_neg (not_not.2 hempty), bind_error])
  rcases takeAddress_cases (bytesString bytes) (8 * bytes.length) with ⟨n, df, hn, hdst, htake⟩ | htake
  · rcases takeAddress_cases (bytesString bytes) n with ⟨m, sf, rfl, hsrc, htake'⟩ | htake'
    · by_cases hm : m = codeWidth df sf
      · subst hm
        have hflags : HeaderFlags df sf bytes := ⟨hn, hdst, hsrc⟩
        exact .inl ⟨df, sf, hflags, decodeHeader_of_flags hflags⟩
      · exact .inr (by simp only [decodeHeader, need_pos hempty, bind_ok, htake, htake', need_neg hm, bind_error])
    · exact .inr (by simp only [decodeHeader, need_pos hempty, bind_ok, htake, htake', bind_error])
  · exact .inr (by simp only [decodeHeader, need_pos hempty, bind_ok, htake, bind_error])

/-! ### Encoding and decoding are inverse to each other (R196) -/

/-- A triple that a header can say: legal addresses and a code of their class (R191). -/
structure LegalTriple (dst src code : Byte) : Prop where
  dstRange : addressInRange dst.toInt
  srcRange : addressInRange src.toInt
  codeRange : code.toNat < 2 ^ codeWidth (isShort dst) (isShort src)

theorem headerLen_eq_classLen (dst src : Byte) : headerLen dst src = classLen dst.toInt src.toInt := by
  rw [headerLen, classLen, isShort_eq, isShort_eq]
  by_cases hd : dst.toInt < 0 <;> by_cases hs : src.toInt < 0 <;> simp [hd, hs]

theorem two_pow_codeWidth (dst src : Byte) :
    2 ^ codeWidth (isShort dst) (isShort src) = classCodes dst.toInt src.toInt := by
  rw [classCodes, isShort_eq, isShort_eq]
  by_cases hd : dst.toInt < 0 <;> by_cases hs : src.toInt < 0 <;> simp [hd, hs, codeWidth]

/-- The two addresses and the code fill the header bytes (R191). -/
theorem headerWidth (dst src : Byte) :
    8 * headerLen dst src =
      codeWidth (isShort dst) (isShort src) + flagWidth (isShort src) + flagWidth (isShort dst) := by
  rw [headerLen]
  cases isShort dst <;> cases isShort src <;> rfl

theorem headerString_eq (dst src code : Byte) : headerString dst src code =
    (addressBits dst * 2 ^ flagWidth (isShort src) + addressBits src) * 2 ^ codeWidth (isShort dst) (isShort src) +
      code.toNat := rfl

section encode
variable {dst src code : Byte} (hcode : code.toNat < 2 ^ codeWidth (isShort dst) (isShort src))
include hcode

/-- The addresses stand before the code. -/
theorem headerString_div_code : headerString dst src code / 2 ^ codeWidth (isShort dst) (isShort src) =
    addressBits dst * 2 ^ flagWidth (isShort src) + addressBits src := concat_div_two_pow hcode

/-- The destination stands first. -/
theorem headerString_div_src :
    headerString dst src code / 2 ^ (codeWidth (isShort dst) (isShort src) + flagWidth (isShort src)) =
      addressBits dst := by
  rw [pow_add, ← Nat.div_div_eq_div_mul, headerString_div_code hcode, concat_div_two_pow (addressBits_lt src)]

theorem headerString_lt : headerString dst src code < 2 ^ (8 * headerLen dst src) := by
  rw [headerWidth, pow_add, Nat.mul_comm, ← Nat.div_lt_iff_lt_mul (Nat.two_pow_pos _), headerString_div_src hcode]
  exact addressBits_lt dst

theorem bytesString_encodeHeader : bytesString (encodeHeader dst src code) = headerString dst src code :=
  bytesString_stringBytes (headerString_lt hcode)

theorem encodeHeader_flags : HeaderFlags (isShort dst) (isShort src) (encodeHeader dst src code) where
  width := by rw [encodeHeader_length, headerWidth]
  dst := by rw [bytesString_encodeHeader hcode, headerString_div_src hcode, addressBits_flag]
  src := by
    have hlast := Nat.sub_one_lt (flagWidth_pos (isShort src)).ne'
    rw [bytesString_encodeHeader hcode, headerString_div_code hcode, Nat.mul_comm,
      Nat.testBit_two_pow_mul_add _ (addressBits_lt src), if_pos hlast, addressBits_flag]

end encode

/-- Decoding gives back a legal triple that was encoded (R196). -/
theorem decodeHeader_encodeHeader {dst src code : Byte} (hlegal : LegalTriple dst src code) :
    decodeHeader (encodeHeader dst src code) = .ok (dst, src, code) := by
  have hcode := hlegal.codeRange
  have hdst : addressOf (isShort dst) (addressBits dst) = dst := addressOf_addressBits hlegal.dstRange
  have hsrc : addressOf (isShort src) (addressBits dst * 2 ^ flagWidth (isShort src) + addressBits src) = src := by
    rw [← addressOf_mod, Nat.mul_add_mod_of_lt (addressBits_lt src), addressOf_addressBits hlegal.srcRange]
  have hrest : headerString dst src code % 2 ^ codeWidth (isShort dst) (isShort src) = code.toNat :=
    Nat.mul_add_mod_of_lt hcode
  rw [decodeHeader_of_flags (encodeHeader_flags hcode), headerTriple, bytesString_encodeHeader hcode,
    headerString_div_src hcode, headerString_div_code hcode, hdst, hsrc, hrest, BitVec.ofNat_toNat,
    BitVec.setWidth_eq]

section decode
variable {df sf : Bool} {bytes : List Byte}

/-- The code is less than the number of codes of its class, so a byte holds it. -/
theorem toNat_code_of_string (df sf : Bool) (string : Nat) :
    (BitVec.ofNat 8 (string % 2 ^ codeWidth df sf)).toNat = string % 2 ^ codeWidth df sf := by
  have hbyte : codeWidth df sf ≤ 8 := by cases df <;> cases sf <;> decide
  have hmod := Nat.mod_lt string (Nat.two_pow_pos (codeWidth df sf))
  rw [BitVec.toNat_ofNat, Nat.mod_eq_of_lt (hmod.trans_le (Nat.pow_le_pow_right Nat.two_pos hbyte))]

/-- Encoding the triple that flagged bytes say writes these bytes (R196). -/
theorem HeaderFlags.encodeHeader_eq {dst src code : Byte} (hflags : HeaderFlags df sf bytes)
    (htriple : headerTriple df sf bytes = (dst, src, code)) :
    code.toNat < 2 ^ codeWidth (isShort dst) (isShort src) ∧ encodeHeader dst src code = bytes := by
  obtain ⟨hwidth, hdst, hsrc⟩ := hflags
  obtain ⟨rfl, hrest⟩ := Prod.mk.inj htriple
  obtain ⟨rfl, rfl⟩ := Prod.mk.inj hrest
  have hlen := headerWidth (addressOf df (bytesString bytes / 2 ^ (codeWidth df sf + flagWidth sf)))
    (addressOf sf (bytesString bytes / 2 ^ codeWidth df sf))
  rw [isShort_addressOf, isShort_addressOf, ← hwidth] at hlen
  have htop : bytesString bytes / 2 ^ (codeWidth df sf + flagWidth sf) < 2 ^ flagWidth df := by
    rw [Nat.div_lt_iff_lt_mul (Nat.two_pow_pos _), ← pow_add, Nat.add_comm, ← hwidth]
    exact bytesString_lt bytes
  have hstring : headerString (addressOf df (bytesString bytes / 2 ^ (codeWidth df sf + flagWidth sf)))
      (addressOf sf (bytesString bytes / 2 ^ codeWidth df sf))
      (BitVec.ofNat 8 (bytesString bytes % 2 ^ codeWidth df sf)) = bytesString bytes := by
    rw [headerString_eq, isShort_addressOf, isShort_addressOf, toNat_code_of_string, addressBits_addressOf hdst,
      addressBits_addressOf hsrc, Nat.mod_eq_of_lt htop, pow_add, ← Nat.div_div_eq_div_mul, Nat.div_add_mod',
      Nat.div_add_mod']
  refine ⟨?_, ?_⟩
  · rw [isShort_addressOf, isShort_addressOf, toNat_code_of_string]
    exact Nat.mod_lt _ (Nat.two_pow_pos _)
  · rw [encodeHeader, Nat.eq_of_mul_eq_mul_left (by decide) hlen, hstring, stringBytes_bytesString]

/-- What decoding accepts is the encoding of the legal triple it answers (R196). -/
theorem encodeHeader_of_decodeHeader {dst src code : Byte} (hdec : decodeHeader bytes = .ok (dst, src, code)) :
    LegalTriple dst src code ∧ encodeHeader dst src code = bytes := by
  obtain ⟨hdst, hsrc⟩ := decodeHeader_inRange hdec
  rcases decodeHeader_cases bytes with ⟨df, sf, hflags, hok⟩ | herr
  · obtain ⟨hcode, hbytes⟩ := hflags.encodeHeader_eq (Except.ok.inj (hok.symm.trans hdec))
    exact ⟨⟨hdst, hsrc, hcode⟩, hbytes⟩
  · cases hdec.symm.trans herr

end decode

/-! ### The announced length (R195) -/

/-- The flag of the source, which stands behind a short or a long destination (R192, R195). -/
def sourceFlag (b0 b1 : Byte) : Bool := if b0.getLsbD 7 then b0.getLsbD 4 else b1.getLsbD 7

/-- The announced length is that of the class the two flags say. -/
theorem announcedLen_width (b0 b1 : Byte) : 8 * announcedLen b0 b1 =
    codeWidth (b0.getLsbD 7) (sourceFlag b0 b1) + flagWidth (sourceFlag b0 b1) + flagWidth (b0.getLsbD 7) := by
  rw [announcedLen, sourceFlag]
  cases b0.getLsbD 7 with
  | true => cases b0.getLsbD 4 <;> rfl
  | false => cases b1.getLsbD 7 <;> rfl

theorem announcedLen_pos (b0 b1 : Byte) : 1 ≤ announcedLen b0 b1 := by
  have hwidth := announcedLen_width b0 b1
  have hpos := flagWidth_pos (b0.getLsbD 7)
  omega

section flags
variable {df sf : Bool} {bytes : List Byte} {b0 b1 : Byte}

/-- Where the flags of header bytes of the right width stand among their first two bytes. -/
theorem headerFlags_iff (hb0 : 0 < bytes.length → bytes.getD 0 0 = b0)
    (hb1 : 1 < bytes.length → bytes.getD 1 0 = b1)
    (hwidth : 8 * bytes.length = codeWidth df sf + flagWidth sf + flagWidth df) :
    HeaderFlags df sf bytes ↔ b0.getLsbD 7 = df ∧ sourceFlag b0 b1 = sf := by
  have hdf := flagWidth_pos df
  have hsf := flagWidth_pos sf
  have hdst : (bytesString bytes / 2 ^ (codeWidth df sf + flagWidth sf)).testBit (flagWidth df - 1) =
      b0.getLsbD 7 := by
    have hbit := bytesString_testBit bytes (i := 0) (by omega)
    rw [Nat.testBit_div_two_pow, ← hb0 (by omega), ← hbit]
    congr 1
    omega
  have hsrc : (bytesString bytes / 2 ^ codeWidth df sf).testBit (flagWidth sf - 1) =
      if df then b0.getLsbD 4 else b1.getLsbD 7 := by
    have hbit := bytesString_testBit bytes (i := flagWidth df) (by omega)
    rw [Nat.testBit_div_two_pow, show flagWidth sf - 1 + codeWidth df sf = 8 * bytes.length - 1 - flagWidth df by omega,
      hbit]
    cases df with
    | true =>
      rw [if_pos rfl, ← hb0 (by omega)]
      rfl
    | false =>
      rw [flagWidth_false] at hwidth
      rw [if_neg Bool.false_ne_true, ← hb1 (by omega)]
      rfl
  refine ⟨fun ⟨_, hd, hs⟩ => ?_, fun ⟨hd, hs⟩ => ⟨hwidth, hdst.trans hd, ?_⟩⟩
  · have hb := hdst.symm.trans hd
    exact ⟨hb, by rw [sourceFlag, hb, ← hsrc, hs]⟩
  · rw [hsrc, ← hd]
    exact hs

/-- Header bytes have the flags of some class exactly when they have the length they announce. -/
theorem exists_headerFlags_iff (hb0 : 0 < bytes.length → bytes.getD 0 0 = b0)
    (hb1 : 1 < bytes.length → bytes.getD 1 0 = b1) :
    (∃ df sf, HeaderFlags df sf bytes) ↔ announcedLen b0 b1 = bytes.length := by
  have hannounced := announcedLen_width b0 b1
  constructor
  · rintro ⟨df, sf, hflags⟩
    obtain ⟨rfl, rfl⟩ := (headerFlags_iff hb0 hb1 hflags.width).1 hflags
    have hwidth := hflags.width
    omega
  · intro hlen
    rw [hlen] at hannounced
    exact ⟨_, _, (headerFlags_iff hb0 hb1 hannounced).2 ⟨rfl, rfl⟩⟩

/-- Decoding succeeds exactly on header bytes that have the length they announce (R195). -/
theorem decodeHeader_isOk_iff (hb0 : 0 < bytes.length → bytes.getD 0 0 = b0)
    (hb1 : 1 < bytes.length → bytes.getD 1 0 = b1) :
    (∃ triple, decodeHeader bytes = .ok triple) ↔ announcedLen b0 b1 = bytes.length := by
  rw [← exists_headerFlags_iff hb0 hb1]
  constructor
  · rintro ⟨triple, hok⟩
    rcases decodeHeader_cases bytes with ⟨df, sf, hflags, -⟩ | herr
    · exact ⟨df, sf, hflags⟩
    · cases hok.symm.trans herr
  · rintro ⟨df, sf, hflags⟩
    exact ⟨_, decodeHeader_of_flags hflags⟩

end flags

/-! ### The table of R192 -/

theorem stringBytes_one (string : Nat) : (stringBytes 1 string).map BitVec.toNat = [string % 256] := by
  rw [stringBytes_succ, List.map_append, List.map_singleton, BitVec.toNat_ofNat]
  rfl

theorem stringBytes_two (string : Nat) :
    (stringBytes 2 string).map BitVec.toNat = [string / 256 % 256, string % 256] := by
  rw [stringBytes_succ, List.map_append, stringBytes_one, List.map_singleton, BitVec.toNat_ofNat]
  rfl

theorem stringBytes_three (string : Nat) :
    (stringBytes 3 string).map BitVec.toNat = [string / 256 / 256 % 256, string / 256 % 256, string % 256] := by
  rw [stringBytes_succ, List.map_append, stringBytes_two, List.map_singleton, BitVec.toNat_ofNat]
  rfl

/-- The value of a short address (R191). -/
theorem toInt_add_four_of_short {a : Byte} (ha : addressInRange a.toInt) (hshort : isShort a = true) :
    a.toInt < 0 ∧ (a.toInt + 4).toNat = a.toNat % 4 := by
  obtain ⟨hge, hval⟩ := toInt_of_short ha hshort
  have hlt := a.isLt
  omega

/-- The value of a long address (R191). -/
theorem toInt_toNat_of_long {a : Byte} (hlong : isShort a = false) : ¬ a.toInt < 0 ∧ a.toInt.toNat = a.toNat := by
  obtain ⟨-, hval⟩ := toInt_of_long hlong
  omega

/-- The encoding of a legal triple is its row of the table, class by class. -/
theorem encodeHeader_row {dst src code : Byte} (hlegal : LegalTriple dst src code) :
    (encodeHeader dst src code).map BitVec.toNat = headerRow dst.toInt src.toInt code.toNat := by
  obtain ⟨hdst, hsrc, hcode⟩ := hlegal
  rw [encodeHeader, headerString_eq, headerLen, headerRow]
  cases hd : isShort dst with
  | true =>
    obtain ⟨hdneg, hdval⟩ := toInt_add_four_of_short hdst hd
    rw [addressBits_short hd, if_pos hdneg, hdval]
    cases hs : isShort src with
    | true =>
      obtain ⟨hsneg, hsval⟩ := toInt_add_four_of_short hsrc hs
      have hlt : code.toNat < 4 := by simpa [hd, hs, codeWidth] using hcode
      rw [addressBits_short hs, if_pos hsneg, hsval]
      simp only [stringBytes_one, codeWidth, flagWidth_true, List.cons.injEq, and_true]
      omega
    | false =>
      obtain ⟨hspos, hsval⟩ := toInt_toNat_of_long hs
      have hlt : code.toNat < 32 := by simpa [hd, hs, codeWidth] using hcode
      rw [addressBits_long hs, if_neg hspos, hsval]
      simp only [stringBytes_two, codeWidth, flagWidth_false, List.cons.injEq, and_true]
      omega
  | false =>
    obtain ⟨hdpos, hdval⟩ := toInt_toNat_of_long hd
    rw [addressBits_long hd, if_neg hdpos, hdval]
    cases hs : isShort src with
    | true =>
      obtain ⟨hsneg, hsval⟩ := toInt_add_four_of_short hsrc hs
      have hlt : code.toNat < 32 := by simpa [hd, hs, codeWidth] using hcode
      rw [addressBits_short hs, if_pos hsneg, hsval]
      simp only [stringBytes_two, codeWidth, flagWidth_true, List.cons.injEq, and_true]
      omega
    | false =>
      obtain ⟨hspos, hsval⟩ := toInt_toNat_of_long hs
      rw [addressBits_long hs, if_neg hspos, hsval]
      simp only [stringBytes_three, codeWidth, flagWidth_false, List.cons.injEq, and_true]
      omega

end Sys2Proof.Machine
end

section
/-! The statements about the header codec (45_header_codec.md R190 to R197). -/

namespace Sys2Proof.Machine

/-! ### Header bytes in a buffer (20_memory.md R41) -/

/-- The header bytes of a well-formed context, by their place before the payload. -/
theorem headerBytes_map_toNat {s : State} {h : Nat} {c : Ctx} (hoff : c.dataOff.toNat = 3) :
    (s.headerBytes h c).map BitVec.toNat =
      (List.range c.hdrLen.toNat).map fun k => (s.bufRead h (3 - c.hdrLen.toNat + k)).toNat := by
  rw [State.headerBytes, List.map_map, hoff]
  rfl

theorem headerBytes_count (s : State) (h : Nat) (c : Ctx) : (s.headerBytes h c).length = c.hdrLen.toNat := by
  rw [State.headerBytes, List.length_map, List.length_range]

theorem headerBytes_getD {s : State} {h k : Nat} {c : Ctx} (hoff : c.dataOff.toNat = 3) (hk : k < c.hdrLen.toNat) :
    (s.headerBytes h c).getD k 0 = s.bufRead h (3 - c.hdrLen.toNat + k) := by
  simp [State.headerBytes, hk, hoff]

/-- Header bytes that are the row of a legal triple are its encoding. -/
theorem headerBytes_eq_encodeHeader {s : State} {h : Nat} {c : Ctx} {dst src code : Byte}
    (hoff : c.dataOff.toNat = 3) (hlegal : LegalTriple dst src code)
    (hrow : (List.range c.hdrLen.toNat).map (fun k => (s.bufRead h (3 - c.hdrLen.toNat + k)).toNat) =
      headerRow dst.toInt src.toInt code.toNat) :
    s.headerBytes h c = encodeHeader dst src code := by
  rw [← headerBytes_map_toNat hoff, ← encodeHeader_row hlegal] at hrow
  exact List.map_injective_iff.2 (fun _ _ => BitVec.eq_of_toNat_eq) hrow

/-! ### HDR_ENCODE (R193) -/

/-- The state HDR_ENCODE leaves but for its answer: the header row before the payload, and its length. -/
def State.withHeader (s : State) (h : Nat) (c : Ctx) : State :=
  (s.writeBytes h (3 - headerLen c.dst c.src) (encodeHeader c.dst c.src c.code)).mapCtx h
    fun d => { d with hdrLen := BitVec.ofNat 2 (headerLen c.dst c.src) }

theorem exec_hdrEncode_of_code {s : State} {ha : Byte} {c : Ctx} (hc : s.ctx? ha.toNat = some c)
    (hoff : c.dataOff.toNat = 3) (ho : c.own ≠ .detached)
    (hcode : c.code.toNat < 2 ^ codeWidth (isShort c.dst) (isShort c.src)) :
    exec (.hdrEncode ha) s = .next { s.withHeader ha.toNat c with
      resp := some ⟨.ok, BitVec.ofNat 32 (headerLen c.dst c.src)⟩ } := by
  rw [exec, execHdrEncode, complete_needCtx hc, complete_bind_ok (needStore_pos ho), complete_bind_ok (need_pos hcode),
    complete_ok, respond, hoff, State.withHeader]

/-- The bytes HDR_ENCODE writes are the last bytes before the payload. -/
theorem encodeHeader_writes (s : State) (h : Nat) (dst src code : Byte) :
    Writes h (fun k => 3 - headerLen dst src ≤ k ∧ k < 3) s
      (s.writeBytes h (3 - headerLen dst src) (encodeHeader dst src code)) := by
  have hw := writeBytes_writes s h (3 - headerLen dst src) (encodeHeader dst src code)
  rwa [encodeHeader_length, Nat.sub_add_cancel (headerLen_le dst src)] at hw

theorem toNat_headerLen (dst src : Byte) : (BitVec.ofNat 2 (headerLen dst src)).toNat = headerLen dst src := by
  have hle := headerLen_le dst src
  rw [BitVec.toNat_ofNat]
  omega

section withHeader
variable {s : State} {h : Nat} {c : Ctx}

theorem withHeader_sameBuffers (hc : s.ctx? h = some c) : SameBuffers
    (s.writeBytes h (3 - headerLen c.dst c.src) (encodeHeader c.dst c.src c.code)) (s.withHeader h c) := by
  obtain ⟨m, hm⟩ := (encodeHeader_writes s h c.dst c.src c.code).ctx? hc
  exact .mapCtx hm ⟨rfl, rfl, rfl, rfl⟩

theorem withHeader_bufRead (hc : s.ctx? h = some c) {k : Nat} (hk : k < headerLen c.dst c.src) :
    (s.withHeader h c).bufRead h (3 - headerLen c.dst c.src + k) = (encodeHeader c.dst c.src c.code).getD k 0 := by
  obtain ⟨hh, -⟩ := List.getElem?_eq_some_iff.1 (ctx?_eq_some.1 hc).1
  have hsame := withHeader_sameBuffers hc
  rw [State.bufRead, hsame.bufLoc, hsame.locRead, ← State.bufRead, bufRead_writeBytes _ _ _ _ hh,
    encodeHeader_length, if_pos (by omega), Nat.add_sub_cancel_left]

/-- Every place but those of the header bytes reads as before: `sameBytesBut`. -/
theorem withHeader_locRead (hc : s.ctx? h = some c) :
    sameBytesBut s (s.withHeader h c) h (3 - headerLen c.dst c.src) 3 := fun l hl =>
  ((withHeader_sameBuffers hc).locRead l).trans
    ((encodeHeader_writes s h c.dst c.src c.code).locRead l fun k ⟨hlo, hhi⟩ => hl k hlo hhi)

/-- Encoding a header that already stands there changes no byte at all. -/
theorem withHeader_locRead_of_bytes (hc : s.ctx? h = some c) (hbytes : ∀ k, k < headerLen c.dst c.src →
    s.bufRead h (3 - headerLen c.dst c.src + k) = (encodeHeader c.dst c.src c.code).getD k 0) (l : Loc) :
    (s.withHeader h c).locRead l = s.locRead l := by
  have hloc (k : Nat) : (s.withHeader h c).bufLoc h k = s.bufLoc h k :=
    ((withHeader_sameBuffers hc).bufLoc h k).trans ((encodeHeader_writes s h c.dst c.src c.code).bufLoc k)
  by_cases hl : ∃ k, k < headerLen c.dst c.src ∧ l = s.bufLoc h (3 - headerLen c.dst c.src + k)
  · obtain ⟨k, hk, rfl⟩ := hl
    have hread := (withHeader_bufRead hc hk).trans (hbytes k hk).symm
    rwa [State.bufRead, State.bufRead, hloc] at hread
  · refine withHeader_locRead hc l fun j hlo hhi hj => hl ⟨j - (3 - headerLen c.dst c.src), ?_, ?_⟩
    · have hle := headerLen_le c.dst c.src
      omega
    · rwa [Nat.add_sub_cancel' hlo]

/-- The bytes before the payload are the row of the context's triple (R192). -/
theorem withHeader_row (hc : s.ctx? h = some c) (hlegal : LegalTriple c.dst c.src c.code) :
    (List.range (headerLen c.dst c.src)).map
      (fun k => ((s.withHeader h c).bufRead h (3 - headerLen c.dst c.src + k)).toNat) =
      headerRow c.dst.toInt c.src.toInt c.code.toNat := by
  rw [← encodeHeader_row hlegal]
  refine List.ext_getElem (by simp [encodeHeader_length]) fun k hk hk' => ?_
  rw [List.getElem_map, List.getElem_map, List.getElem_range, withHeader_bufRead hc (by simpa using hk),
    List.getD_eq_getElem]

/-- The context of a valid handle after HDR_ENCODE. -/
theorem withHeader_ctx? (hc : s.ctx? h = some c) : ∃ m, (s.withHeader h c).ctx? h =
    some { c with hdrLen := BitVec.ofNat 2 (headerLen c.dst c.src), store := m } := by
  obtain ⟨m, hm⟩ := (encodeHeader_writes s h c.dst c.src c.code).ctx? hc
  exact ⟨m, ctx?_mapCtx hm rfl⟩

end withHeader

/-- Settles O36: what the writes of the header row leave, and that they and `hdr_len` are all that changes. -/
theorem hdrEncodeWritesTheHeaderRow : Obligations.HdrEncodeWritesTheHeaderRow := by
  intro s ha hi
  refine ⟨badHandleIsBadOperand (.hdrEncode ha) s ha (List.mem_singleton_self ha), fun c hc => ?_⟩
  obtain ⟨hoff, -, -, -, hsrc, hdst, -⟩ := wf_of_ctx? hi hc
  rw [← headerLen_eq_classLen, ← two_pow_codeWidth]
  refine ⟨fun ho => ?_, fun ho hcode => ?_, fun ho hcode => ?_⟩
  · obtain ⟨hrefused, -⟩ := detachedContextHasNoBytes s ha 0 0 [] c hc ho
    exact hrefused _ (by simp)
  · rw [exec, execHdrEncode, complete_needCtx hc, complete_bind_ok (needStore_pos ho),
      complete_bind_error (need_neg (Nat.not_lt_of_le hcode))]
  · have hw := encodeHeader_writes s ha.toNat c.dst c.src c.code
    obtain ⟨m, hm⟩ := withHeader_ctx? hc
    refine ⟨_, _, exec_hdrEncode_of_code hc hoff ho hcode, rfl, (ctx?_eq_some.1 hm).1, toNat_headerLen _ _, rfl,
      withHeader_row hc ⟨hdst, hsrc, hcode⟩, withHeader_locRead hc, ⟨?_, fun j hj => ?_⟩, fun hown => ?_,
      hw.params, hw.inbox, hw.hostData, hw.fresh⟩
    · simp [State.withHeader]
    · simp [State.withHeader, Ne.symm hj, hw.other hj]
    · exact hw.host_of_not_borrowed (by rwa [slot_of_ctx? hc])

/-- A HDR_ENCODE that answered OK passed its checks: there is storage, and the triple is a legal one. -/
theorem legal_of_exec_hdrEncode {s t : State} {ha : Byte} {c : Ctx} {len : Word} (hi : s.Inv)
    (hc : s.ctx? ha.toNat = some c) (hexec : exec (.hdrEncode ha) s = .next t) (hresp : t.resp = some ⟨.ok, len⟩) :
    c.own ≠ .detached ∧ LegalTriple c.dst c.src c.code := by
  obtain ⟨-, hall⟩ := hdrEncodeWritesTheHeaderRow s ha hi
  obtain ⟨hdetached, hrange, -⟩ := hall c hc
  obtain ⟨-, -, -, -, hsrc, hdst, -⟩ := wf_of_ctx? hi hc
  have ho : c.own ≠ .detached := fun ho => by cases status_of_raised hexec hresp (hdetached ho)
  refine ⟨ho, hdst, hsrc, ?_⟩
  rw [two_pow_codeWidth]
  by_contra hcode
  cases status_of_raised hexec hresp (hrange ho (Nat.le_of_not_lt hcode))

/-! ### HDR_DECODE (R194) -/

section decode
variable {s t : State} {ha : Byte} {c : Ctx}

theorem exec_hdrDecode_of_decoded {dst src code : Byte} (hc : s.ctx? ha.toNat = some c) (ho : c.own ≠ .detached)
    (hdec : decodeHeader (s.headerBytes ha.toNat c) = .ok (dst, src, code)) :
    exec (.hdrDecode ha) s = .next { s with
      ctxs := s.ctxs.set ha.toNat { c with dst := dst, src := src, code := code }
      resp := some ⟨.ok, BitVec.ofNat 32 c.hdrLen.toNat⟩ } := by
  rw [exec, execHdrDecode, complete_needCtx hc, complete_bind_ok (needStore_pos ho), complete_bind_ok hdec,
    complete_mapCtx hc, BitVec.ofNat_toNat]

theorem exec_hdrDecode_of_corrupt {st : Status} (hc : s.ctx? ha.toNat = some c) (ho : c.own ≠ .detached)
    (hdec : decodeHeader (s.headerBytes ha.toNat c) = .error st) :
    exec (.hdrDecode ha) s = .next (raised s st) := by
  rw [exec, execHdrDecode, complete_needCtx hc, complete_bind_ok (needStore_pos ho), complete_bind_error hdec]

theorem exec_hdrDecode_of_detached (hc : s.ctx? ha.toNat = some c) (ho : c.own = .detached) :
    exec (.hdrDecode ha) s = .next (raised s .invalidBufferOwnership) := by
  obtain ⟨hrefused, -⟩ := detachedContextHasNoBytes s ha 0 0 [] c hc ho
  exact hrefused _ (by simp)

/-- A HDR_DECODE that answered OK took the header bytes of its context apart. -/
theorem decoded_of_exec_hdrDecode {len : Word} (hexec : exec (.hdrDecode ha) s = .next t)
    (hresp : t.resp = some ⟨.ok, len⟩) :
    ∃ c dst src code, s.ctx? ha.toNat = some c ∧ c.own ≠ .detached ∧
      decodeHeader (s.headerBytes ha.toNat c) = .ok (dst, src, code) ∧
      t = { s with
        ctxs := s.ctxs.set ha.toNat { c with dst := dst, src := src, code := code }
        resp := some ⟨.ok, BitVec.ofNat 32 c.hdrLen.toNat⟩ } := by
  cases hc : s.ctx? ha.toNat with
  | none =>
    cases status_of_raised hexec hresp (badHandleIsBadOperand (.hdrDecode ha) s ha (List.mem_singleton_self ha) hc)
  | some c =>
    have ho : c.own ≠ .detached := fun ho => by
      cases status_of_raised hexec hresp (exec_hdrDecode_of_detached hc ho)
    rcases decodeHeader_cases (s.headerBytes ha.toNat c) with ⟨df, sf, -, hdec⟩ | hdec
    · have hanswer := exec_hdrDecode_of_decoded hc ho hdec
      exact ⟨c, _, _, _, rfl, ho, hdec, Host.Outcome.next.inj (hexec.symm.trans hanswer)⟩
    · cases status_of_raised hexec hresp (exec_hdrDecode_of_corrupt hc ho hdec)

end decode

/-- Settles O37: header bytes that are the row of a legal triple are its encoding, and decoding gives the triple. -/
theorem hdrDecodeReadsTheHeaderRow : Obligations.HdrDecodeReadsTheHeaderRow := by
  intro s ha dst src code c hi hc ho hdst hsrc hcode _ hrow
  have hlegal : LegalTriple dst src code := ⟨hdst, hsrc, by rwa [two_pow_codeWidth]⟩
  have hbytes := headerBytes_eq_encodeHeader (dataOff_of_wf (wf_of_ctx? hi hc)) hlegal hrow
  exact exec_hdrDecode_of_decoded hc ho (hbytes ▸ decodeHeader_encodeHeader hlegal)

/-- Settles O38: the flags decide whether decoding answers, and an announced length is never 0. -/
theorem hdrDecodeChecksTheAnnouncedLength : Obligations.HdrDecodeChecksTheAnnouncedLength := by
  intro s ha hi
  refine ⟨badHandleIsBadOperand (.hdrDecode ha) s ha (List.mem_singleton_self ha), fun c hc =>
    ⟨exec_hdrDecode_of_detached hc, fun ho => ?_⟩⟩
  have hbyte (k : Nat) := headerBytes_getD (s := s) (h := ha.toNat) (k := k) (dataOff_of_wf (wf_of_ctx? hi hc))
  have hiff := decodeHeader_isOk_iff (bytes := s.headerBytes ha.toNat c)
    (by rw [headerBytes_count]; exact hbyte 0) (by rw [headerBytes_count]; exact hbyte 1)
  rw [headerBytes_count] at hiff
  refine ⟨fun ⟨_, hlen⟩ => ?_, fun hbad => ?_⟩
  · obtain ⟨triple, hdec⟩ := hiff.2 hlen
    exact ⟨_, exec_hdrDecode_of_decoded hc ho hdec, rfl⟩
  · rcases decodeHeader_cases (s.headerBytes ha.toNat c) with ⟨df, sf, -, hdec⟩ | hdec
    · have hlen := hiff.1 ⟨_, hdec⟩
      exact absurd ⟨(announcedLen_pos _ _).trans hlen.le, hlen⟩ hbad
    · exact exec_hdrDecode_of_corrupt hc ho hdec

/-! ### The round trip (R196) -/

/-- Settles O39: the header bytes are those that were encoded, and decoding is the inverse of encoding. -/
theorem headerDecodeUndoesEncode : Obligations.HeaderDecodeUndoesEncode := by
  intro s t u ha c d e len hs hu hc hexec hresp hd he ho hlen hbytes
  obtain ⟨hown, hlegal⟩ := legal_of_exec_hdrEncode hs hc hexec hresp
  obtain ⟨-, hall⟩ := hdrEncodeWritesTheHeaderRow s ha hs
  obtain ⟨-, -, hencode⟩ := hall c hc
  obtain ⟨t', d', hexec', hresp', hslot, hhdr, -, hrow, -⟩ := hencode hown (by
    rw [← two_pow_codeWidth]
    exact hlegal.codeRange)
  obtain rfl := Host.Outcome.next.inj (hexec.symm.trans hexec')
  obtain rfl : d = d' := Option.some.inj ((ctx?_eq_some.1 hd).1.symm.trans hslot)
  have hvalue : len = BitVec.ofNat 32 e.hdrLen.toNat := by
    rw [hlen, hhdr]
    exact congrArg Response.value (Option.some.inj (hresp.symm.trans hresp'))
  rw [← hhdr, ← hlen] at hrow
  have hread : (List.range e.hdrLen.toNat).map (fun k => (u.bufRead ha.toNat (3 - e.hdrLen.toNat + k)).toNat) =
      headerRow c.dst.toInt c.src.toInt c.code.toNat := by
    rw [← hrow]
    refine List.map_congr_left fun k hk => ?_
    have hlt := List.mem_range.1 hk
    have hmax := e.hdrLen.isLt
    rw [hbytes _ (by omega)]
  have hdec := decodeHeader_encodeHeader hlegal
  rw [← headerBytes_eq_encodeHeader (dataOff_of_wf (wf_of_ctx? hu he)) hlegal hread] at hdec
  rw [hvalue, exec_hdrDecode_of_decoded he ho hdec]

/-- Settles O40: the bytes that decoding took apart are those that encoding the triple writes where they stand. -/
theorem headerEncodeUndoesDecode : Obligations.HeaderEncodeUndoesDecode := by
  intro s t ha len hi hexec hresp
  obtain ⟨c, dst, src, code, hc, ho, hdec, ht⟩ := decoded_of_exec_hdrDecode hexec hresp
  obtain ⟨hlegal, hbytes⟩ := encodeHeader_of_decodeHeader hdec
  have hoff := dataOff_of_wf (wf_of_ctx? hi hc)
  have hctxs : t.ctxs = s.ctxs.set ha.toNat { c with dst := dst, src := src, code := code } := by rw [ht]
  have hct := ctx?_of_set hc hctxs rfl
  have hsame : SameBuffers s t := .of_set hc hctxs (by rw [ht]) ⟨rfl, rfl, rfl, rfl⟩
  have hlen : headerLen dst src = c.hdrLen.toNat := by rw [← encodeHeader_length, hbytes, headerBytes_count]
  have hvalue : len = BitVec.ofNat 32 (headerLen dst src) := by
    rw [ht] at hresp
    rw [hlen]
    exact (congrArg Response.value (Option.some.inj hresp)).symm
  refine ⟨_, exec_hdrEncode_of_code hct hoff ho hlegal.codeRange, by rw [hvalue],
    withHeader_locRead_of_bytes hct fun k hk => ?_⟩
  change k < headerLen dst src at hk
  change t.bufRead ha.toNat (3 - headerLen dst src + k) = (encodeHeader dst src code).getD k 0
  rw [hbytes, headerBytes_getD hoff (hlen ▸ hk), hlen, State.bufRead, hsame.bufLoc, hsame.locRead, ← State.bufRead]

end Sys2Proof.Machine
end

section
/-! SUPPORT. A command that fails is a body that failed, and no command reads the response of the one before it
(60_exceptions.md R214, R215; 30_encoding.md R66). -/

namespace Sys2Proof.Machine

/-- Every command is the end of a checked body that ran on the state the command found. -/
theorem exec_eq_complete (i : Instr) (s : State) : ∃ body, exec i s = complete s body := by
  cases i with
  | crc8Init | crc8Update | crc8Finish | crc16Init | crc16Update | crc16Finish => exact ⟨.ok (s, _), rfl⟩
  | fillCrc => exact ⟨.error .illegalCommand, rfl⟩
  | _ => exact ⟨_, rfl⟩

/-- A command that did not answer OK is the status it answered and nothing else (R214). -/
theorem eq_raised_of_status_ne_ok {i : Instr} {s t : State} {r : Response} (hexec : exec i s = .next t)
    (hresp : t.resp = some r) (hstatus : r.status ≠ .ok) : t = raised s r.status := by
  obtain ⟨body, hbody⟩ := exec_eq_complete i s
  rcases complete_cases (hbody.symm.trans hexec) with ⟨u, v, -, rfl⟩ | ⟨st, -, rfl⟩
  · obtain rfl := Option.some.inj hresp
    exact absurd rfl hstatus
  · obtain rfl := Option.some.inj hresp
    rfl

/-! ### The shared operations on a state with another response -/

/-- `s` as it would stand after another answer. -/
abbrev State.withResp (s : State) (q : Option Response) : State := { s with resp := q }

section operations
variable (s : State) (q : Option Response) (h : Nat)

theorem bufWrite_withResp (k : Nat) (v : Byte) : (s.withResp q).bufWrite h k v = (s.bufWrite h k v).withResp q := by
  change (s.withResp q).locWrite (s.bufLoc h k) v = (s.locWrite (s.bufLoc h k) v).withResp q
  cases s.bufLoc h k <;> rfl

theorem writeBytes_withResp (k : Nat) (data : List Byte) :
    (s.withResp q).writeBytes h k data = (s.writeBytes h k data).withResp q := by
  induction data generalizing s k with
  | nil => rfl
  | cons v vs ih => rw [State.writeBytes, bufWrite_withResp, ih, State.writeBytes]

theorem getBits_withResp (p n : Nat) : (s.withResp q).getBits h p n = s.getBits h p n :=
  getBits_congr fun _ _ => rfl

theorem putBits_withResp (p n v : Nat) : (s.withResp q).putBits h p n v = (s.putBits h p n v).withResp q := by
  induction n generalizing v with
  | zero => rfl
  | succ n ih =>
    rw [State.putBits, ih]
    exact bufWrite_withResp _ q h _ _

theorem ensureRoom_withResp (c : Ctx) (n : Nat) :
    ensureRoom (s.withResp q) h c n = (ensureRoom s h c n).map (·.withResp q) := by
  simp only [ensureRoom, apply_ite (Except.map _)]
  rfl

theorem appendBits_withResp (c : Ctx) (n v : Nat) :
    appendBits (s.withResp q) h c n v = (appendBits s h c n v).map (·.withResp q) := by
  rw [appendBits, ensureRoom_withResp, appendBits]
  cases ensureRoom s h c n with
  | error st => rfl
  | ok t =>
    change Except.ok (((t.withResp q).putBits h c.wc n v).mapCtx h _) = _
    rw [putBits_withResp]
    rfl

end operations

/-! ### Every command on a state with another response

Both runs go through the same checks, and the response that an answer overwrites is the only difference between the
states they end with. -/

section commands
variable {s : State} {q : Option Response} {ha hb w : Byte} {x y : Word}

/-- Past a check that reads no response. -/
theorem complete_check_withResp {α : Type} {check : Except Status α} {f g : α → Except Status (State × Word)}
    (hrest : ∀ a, complete (s.withResp q) (f a) = complete s (g a)) :
    complete (s.withResp q) (check >>= f) = complete s (check >>= g) := by
  cases check with
  | error st => rfl
  | ok a => exact hrest a

/-- A command that ends with an append. -/
theorem complete_append_withResp {h n v : Nat} {c : Ctx} {f g : State → Except Status (State × Word)}
    (hrest : ∀ t, complete (s.withResp q) (f (t.withResp q)) = complete s (g t)) :
    complete (s.withResp q) (appendBits (s.withResp q) h c n v >>= f) =
      complete s (appendBits s h c n v >>= g) := by
  rw [appendBits_withResp]
  cases appendBits s h c n v with
  | error st => rfl
  | ok t => exact hrest t

theorem execGetField_withResp : execGetField ha hb (s.withResp q) = execGetField ha hb s :=
  complete_check_withResp fun c => by cases c.field hb.toNat <;> rfl

theorem execGrow_withResp : execGrow ha x (s.withResp q) = execGrow ha x s :=
  complete_check_withResp fun _ => complete_check_withResp fun _ => complete_check_withResp fun _ => by
    split
    · rfl
    · exact complete_check_withResp fun _ => rfl

theorem execExtractChunk_withResp : execExtractChunk ha w (s.withResp q) = execExtractChunk ha w s :=
  complete_check_withResp fun _ => complete_check_withResp fun _ => complete_check_withResp fun _ =>
    complete_check_withResp fun _ => by
      simp only [getBits_withResp]
      split <;> rfl

theorem execDrop_withResp : execDrop ha w (s.withResp q) = execDrop ha w s :=
  complete_check_withResp fun _ => complete_check_withResp fun _ => complete_check_withResp fun _ =>
    complete_check_withResp fun _ => by
      rw [getBits_withResp]
      rfl

theorem execAddFrom_withResp : execAddFrom ha hb x (s.withResp q) = execAddFrom ha hb x s :=
  complete_check_withResp fun c => complete_check_withResp fun d => complete_check_withResp fun _ =>
    complete_check_withResp fun _ => complete_check_withResp fun _ => complete_check_withResp fun _ =>
      complete_check_withResp fun _ => by
        have hbits : copiedBits (s.withResp q) hb.toNat c d x.toNat = copiedBits s hb.toNat c d x.toNat := by
          rw [copiedBits, getBits_withResp, copiedBits]
        rw [hbits]
        exact complete_append_withResp fun _ => rfl

theorem execTruncateCopy_withResp : execTruncateCopy ha x (s.withResp q) = execTruncateCopy ha x s :=
  complete_check_withResp fun c => complete_check_withResp fun _ => complete_check_withResp fun _ =>
    complete_check_withResp fun h => complete_check_withResp fun _ => by
      have hcreate (e : Ctx) (cap : Nat) :
          (s.withResp q).createOwned h cap e = (s.createOwned h cap e).withResp q := rfl
      have hheader : (s.withResp q).headerBytes ha.toNat c = s.headerBytes ha.toNat c := rfl
      simp only [hcreate, hheader, writeBytes_withResp, getBits_withResp, putBits_withResp]
      rfl

theorem execHdrEncode_withResp : execHdrEncode ha (s.withResp q) = execHdrEncode ha s :=
  complete_check_withResp fun _ => complete_check_withResp fun _ => complete_check_withResp fun _ => by
    simp only [writeBytes_withResp]
    rfl

/-- No command reads the response of the one before it (R66, R215). -/
theorem exec_withResp (i : Instr) (s : State) (q : Option Response) : exec i (s.withResp q) = exec i s := by
  cases i with
  | crc8Init | crc8Update | crc8Finish | crc16Init | crc16Update | crc16Finish | fillCrc => rfl
  | crc8UpdateV | crc8Block | crc16UpdateV | crc16Block | release | startSend | startExtract | hasMore | startAdd
  | start | length | bitLength | sentBits => exact complete_check_withResp fun _ => rfl
  | duplicate | align | setField =>
    exact complete_check_withResp fun _ => complete_check_withResp fun _ => rfl
  | allocate | wrap | hdrDecode =>
    exact complete_check_withResp fun _ => complete_check_withResp fun _ => complete_check_withResp fun _ => rfl
  | attach =>
    exact complete_check_withResp fun _ => complete_check_withResp fun _ => complete_check_withResp fun _ =>
      complete_check_withResp fun _ => complete_check_withResp fun _ => rfl
  | appendByte =>
    exact complete_check_withResp fun _ => complete_check_withResp fun _ => complete_append_withResp fun _ => rfl
  | appendBytes | addChunk =>
    exact complete_check_withResp fun _ => complete_check_withResp fun _ => complete_check_withResp fun _ =>
      complete_append_withResp fun _ => rfl
  | getField => exact execGetField_withResp
  | grow => exact execGrow_withResp
  | extractChunk => exact execExtractChunk_withResp
  | addFrom => exact execAddFrom_withResp
  | drop => exact execDrop_withResp
  | truncateCopy => exact execTruncateCopy_withResp
  | hdrEncode => exact execHdrEncode_withResp

end commands

end Sys2Proof.Machine
end

section
/-! The statement about commands that fail (60_exceptions.md R214, R215; 30_encoding.md R66). -/

namespace Sys2Proof.Machine

/-- Settles O41: the failed command leaves its status in the response, which no command reads. -/
theorem failingCommandChangesNothing : Obligations.FailingCommandChangesNothing := by
  intro i s t r hexec hresp hstatus
  obtain rfl := eq_raised_of_status_ne_ok hexec hresp hstatus
  exact ⟨rfl, fun j => exec_withResp j s _⟩

end Sys2Proof.Machine
end

section
/-! The statements about reset (70_reset_and_hazards.md R230). Both the state after reset and the state a reset event
leaves hold blank contexts only, and all that is asked of them follows from that. -/

namespace Sys2Proof.Machine

/-! ### A state with blank contexts only -/

section blankContexts
variable {s : State} {n : Nat} (hblank : s.ctxs = List.replicate n Ctx.blank)
include hblank

theorem valid_eq_false_of_blankContexts {c : Ctx} (hc : c ∈ s.ctxs) : c.valid = false := by
  rw [hblank] at hc
  rw [List.eq_of_mem_replicate hc]
  rfl

theorem ctx?_of_blankContexts (h : Nat) : s.ctx? h = none := by
  refine Option.eq_none_iff_forall_ne_some.2 fun c hc => ?_
  obtain ⟨hslot, hvalid⟩ := ctx?_eq_some.1 hc
  simp [valid_eq_false_of_blankContexts hblank (List.mem_of_getElem? hslot)] at hvalid

/-- No invalid context takes anything from the pool (10_state.md R21). -/
theorem poolUsed_of_blankContexts : s.poolUsed = 0 := by
  refine List.sum_eq_zero fun b hb => ?_
  obtain ⟨c, hc, rfl⟩ := List.mem_map.1 hb
  exact poolBytes_invalid (valid_eq_false_of_blankContexts hblank hc)

theorem lowestFree_of_blankContexts (hn : 1 ≤ n) : lowestFree s 0 := by
  have hfirst : s.ctxs[0]? = some Ctx.blank := by rw [hblank, List.getElem?_replicate_of_lt hn]
  exact ⟨⟨Ctx.blank, hfirst, rfl⟩, fun _ _ hj => absurd hj (Nat.not_lt_zero _)⟩

end blankContexts

/-! ### The state after reset -/

theorem resetWith_ctxs (n : Nat) (p : Params) : (State.resetWith n p).ctxs = List.replicate n Ctx.blank := rfl

/-- No context is valid, nothing of the pool is used, and no byte of host memory is written. -/
theorem resetWith_inv {n : Nat} (p : Params) (hpos : 1 ≤ n) (hmax : n ≤ 255) : (State.resetWith n p).Inv := by
  have hlength : (State.resetWith n p).ctxs.length = n := List.length_replicate
  have hpool : (State.resetWith n p).poolHolds (State.resetWith n p).poolUsed = true := by
    rw [poolUsed_of_blankContexts (resetWith_ctxs n p), poolHolds_iff_poolAllows]
    exact fun limit _ => Nat.zero_le limit
  refine ⟨hpos.trans_eq hlength.symm, hlength.trans_le hmax, fun c hc hvalid => ?_, hpool, List.Pairwise.nil, nofun⟩
  simp [valid_eq_false_of_blankContexts (resetWith_ctxs n p) hc] at hvalid

/-- Settles O50: the state of `Config` is one with a legal number of contexts. -/
theorem resetHasTheInvariant : Obligations.ResetHasTheInvariant :=
  ⟨resetWith_inv _ (by decide) (by decide), fun _ p hpos hmax => resetWith_inv p hpos hmax⟩

/-- Settles O51: a command that names a handle names one of no valid context. -/
theorem afterResetNoContextExists : Obligations.AfterResetNoContextExists := by
  intro n p hpos _
  have hblank := resetWith_ctxs n p
  exact ⟨ctx?_of_blankContexts hblank, poolUsed_of_blankContexts hblank, lowestFree_of_blankContexts hblank hpos,
    fun i h hh => badHandleIsBadOperand i _ h hh (ctx?_of_blankContexts hblank _)⟩

/-! ### The reset event -/

/-- Settles O52: the reset comes before the half-sent command, and leaves as many contexts, all of them blank. -/
theorem resetEventLosesTheContexts : Obligations.ResetEventLosesTheContexts := by
  intro s sent rest hsent hinbox
  exact ⟨_, step_access hsent hinbox, rfl, ctx?_of_blankContexts rfl, poolUsed_of_blankContexts rfl,
    List.length_replicate, rfl, rfl, rfl, rfl⟩

end Sys2Proof.Machine
end
